-- ==== Sys2Proof/Word.lean ====
section
/-! DEFINITION. The word types of the MavlinkSharp codec block (`00_scope.md` rules R6 to R8): the
manual's bit fields, and nothing else. Counts, lengths and indexes are plain `Nat` elsewhere. -/

namespace Sys2Proof

/-- A byte (R8): one byte of a frame, of a payload, of the input memory. -/
abbrev Byte := BitVec 8

/-- The 64-bit command word, operand and result (R7). Bit 0 is the least significant (R8). -/
abbrev Word := BitVec 64

/-- A message identifier: "message identifiers are unsigned 24-bit" (R6). -/
abbrev MsgId := BitVec 24

/-- A checksum, and the CRC accumulator: 16 bits (R6). -/
abbrev Crc16 := BitVec 16

/-- The count operand of format FN: 16 bits (R101). -/
abbrev Count := BitVec 16

/-- A byte offset of the register space: 0x0 to 0x1FFFF, that is 17 bits (R80). -/
abbrev Offset := BitVec 17

/-- The protocol version of a frame: MAVLink v1 or v2 (R2). The machine's one-bit `VER` (R40) and the
one-bit operand `ver` of format FM (R101) name it. -/
inductive Version where
  | v1
  | v2
  deriving DecidableEq, Repr

end Sys2Proof
end

