-- ==== Sys2Proof/Syntax.lean ====
section
/-! DEFINITION. The commands of the block, one constructor per row of `spec/opcode_table.json`
(`30_encoding.md` rule R102), with the operand fields of the row's format (R101). -/

namespace Sys2Proof

/-- The 16 commands. A command's operands are exactly the bits its format names (R101), so every
operand of every constructor is encodable; the one check that is left is the capacity of a count
(R103 (c), `Instr.wellFormed`). -/
inductive Instr where
  /-- CRC_SEED, format F0 (R143). -/
  | crcSeed
  /-- CRC_LOAD v, format FH (R144). -/
  | crcLoad (v : Crc16)
  /-- CRC_ACC b, format FB (R145). -/
  | crcAcc (b : Byte)
  /-- CRC_CALC n, format FN (R146). -/
  | crcCalc (n : Count)
  /-- CAT_INIT m, format FN (R168). -/
  | catInit (m : Count)
  /-- CAT_INCLUDE m, format FN (R169). -/
  | catInclude (m : Count)
  /-- CAT_EXCLUDE m, format FN (R170). -/
  | catExclude (m : Count)
  /-- CAT_LOOKUP id, format FI (R171). -/
  | catLookup (id : MsgId)
  /-- CAT_FIELD id, k, format FK (R172). -/
  | catField (id : MsgId) (k : Byte)
  /-- PARSE n, format FN (R230). -/
  | parse (n : Count)
  /-- PARSE_STREAM n, format FN (R232). -/
  | parseStream (n : Count)
  /-- FIELD_READ k, e, format FF (R205). -/
  | fieldRead (k e : Byte)
  /-- FIELD_WRITE k, e, format FF (R206). -/
  | fieldWrite (k e : Byte)
  /-- FRAME_NEW id, ver, format FM (R260). -/
  | frameNew (id : MsgId) (ver : Version)
  /-- SET_HEADER seq, sys, comp, incompat, compat, format FS (R261). -/
  | setHeader (seq sys comp incompat compat : Byte)
  /-- SERIALIZE, format F0 (R265). -/
  | serialize
  deriving DecidableEq, Repr

end Sys2Proof
end

