-- ==== Sys2Proof/Decode.lean ====
section
/-! DEFINITION. The decoder and the encoder of the 64-bit command word (`30_encoding.md` rules R100 to
R103), and the assembler line of a command (R105). Decoding does what R100 says: it "reads bits [7:0],
looks the opcode up in rule R102 and extracts the fields of rule R101". -/

namespace Sys2Proof

/-- The command formats of R101. -/
inductive Format where
  | F0 | FB | FH | FN | FI | FK | FF | FM | FS
  deriving DecidableEq, Repr

/-- The rows of the opcode map R102. -/
inductive Opcode where
  | crcSeed | crcLoad | crcAcc | crcCalc
  | catInit | catInclude | catExclude | catLookup | catField
  | parse | parseStream
  | fieldRead | fieldWrite
  | frameNew | setHeader | serialize
  deriving DecidableEq, Repr

/-- Why a word is no command, whatever the state: the two grounds (a) and (b) of R103. -/
inductive Illegal where
  /-- "its opcode is not in rule R102". -/
  | unknownOpcode
  /-- "a reserved bit of its format is 1". -/
  | reservedBit
  deriving DecidableEq, Repr

/-- The opcode byte of a row (R102). -/
def Opcode.byte : Opcode → Byte
  | .crcSeed => 0x01#8
  | .crcLoad => 0x02#8
  | .crcAcc => 0x03#8
  | .crcCalc => 0x04#8
  | .catInit => 0x10#8
  | .catInclude => 0x11#8
  | .catExclude => 0x12#8
  | .catLookup => 0x13#8
  | .catField => 0x14#8
  | .parse => 0x20#8
  | .parseStream => 0x21#8
  | .fieldRead => 0x30#8
  | .fieldWrite => 0x31#8
  | .frameNew => 0x40#8
  | .setHeader => 0x41#8
  | .serialize => 0x42#8

/-- The rows of R102 in its order. -/
def Opcode.all : List Opcode :=
  [.crcSeed, .crcLoad, .crcAcc, .crcCalc, .catInit, .catInclude, .catExclude, .catLookup, .catField,
    .parse, .parseStream, .fieldRead, .fieldWrite, .frameNew, .setHeader, .serialize]

/-- The row of R102 with a given opcode byte, if there is one. -/
def Opcode.ofByte? (b : Byte) : Option Opcode := Opcode.all.find? (fun op => op.byte == b)

/-- The format of a row (R102). -/
def Opcode.format : Opcode → Format
  | .crcSeed => .F0
  | .crcLoad => .FH
  | .crcAcc => .FB
  | .crcCalc => .FN
  | .catInit => .FN
  | .catInclude => .FN
  | .catExclude => .FN
  | .catLookup => .FI
  | .catField => .FK
  | .parse => .FN
  | .parseStream => .FN
  | .fieldRead => .FF
  | .fieldWrite => .FF
  | .frameNew => .FM
  | .setHeader => .FS
  | .serialize => .F0

/-- The first bit above the opcode and the operand fields of a format: the reserved bits of every
format are the bits from this one to bit 63 (R101, its last column). -/
def Format.usedBits : Format → Nat
  | .F0 => 8
  | .FB => 16
  | .FH => 24
  | .FN => 24
  | .FI => 32
  | .FK => 40
  | .FF => 24
  | .FM => 33
  | .FS => 48

/-- Every reserved bit of the format is 0 in `w` (R100: "every bit a format does not name is reserved
and must be 0"). -/
def Format.reservedClear (f : Format) (w : Word) : Bool := w >>> f.usedBits == 0#64

/-- The version that the one-bit operand `ver` names: 0 is v1, 1 is v2 (R101, format FM). -/
def Version.ofBit (b : BitVec 1) : Version := if b = 1#1 then .v2 else .v1

/-- The bit that names a version (R101, R41). -/
def Version.bit : Version → BitVec 1
  | .v1 => 0#1
  | .v2 => 1#1

/-- The operand fields of `w` in the row's format (R101): "every operand is an unsigned number taken
from the bits shown; no operand is sign-extended, scaled or shifted". -/
def Opcode.operands (op : Opcode) (w : Word) : Instr :=
  match op with
  | .crcSeed => .crcSeed
  | .crcLoad => .crcLoad (w.extractLsb' 8 16)
  | .crcAcc => .crcAcc (w.extractLsb' 8 8)
  | .crcCalc => .crcCalc (w.extractLsb' 8 16)
  | .catInit => .catInit (w.extractLsb' 8 16)
  | .catInclude => .catInclude (w.extractLsb' 8 16)
  | .catExclude => .catExclude (w.extractLsb' 8 16)
  | .catLookup => .catLookup (w.extractLsb' 8 24)
  | .catField => .catField (w.extractLsb' 8 24) (w.extractLsb' 32 8)
  | .parse => .parse (w.extractLsb' 8 16)
  | .parseStream => .parseStream (w.extractLsb' 8 16)
  | .fieldRead => .fieldRead (w.extractLsb' 8 8) (w.extractLsb' 16 8)
  | .fieldWrite => .fieldWrite (w.extractLsb' 8 8) (w.extractLsb' 16 8)
  | .frameNew => .frameNew (w.extractLsb' 8 24) (Version.ofBit (w.extractLsb' 32 1))
  | .setHeader =>
    .setHeader (w.extractLsb' 8 8) (w.extractLsb' 16 8) (w.extractLsb' 24 8) (w.extractLsb' 32 8)
      (w.extractLsb' 40 8)
  | .serialize => .serialize

/-- Decode a command word (R100). Total: every word that is no command is rejected by name. -/
def decode (w : Word) : Except Illegal Instr :=
  match Opcode.ofByte? (w.extractLsb' 0 8) with
  | none => .error .unknownOpcode
  | some op => if op.format.reservedClear w then .ok (op.operands w) else .error .reservedBit

/-- Fields side by side, each given as its lowest bit and its value: Σ value · 2^bit. -/
def fieldsNat : List (Nat × Nat) → Nat
  | [] => 0
  | (bit, value) :: rest => value * 2 ^ bit + fieldsNat rest

/-- A 64-bit word with the given fields (lowest bit, value) and 0 in every other bit. -/
def fieldsWord (fields : List (Nat × Nat)) : Word := BitVec.ofNat 64 (fieldsNat fields)

/-- The word of a command: the opcode in bits [7:0], each operand at the bits R101 shows for the row's
format, and 0 in every reserved bit. -/
def encode : Instr → Word
  | .crcSeed => fieldsWord [(0, 0x01)]
  | .crcLoad v => fieldsWord [(0, 0x02), (8, v.toNat)]
  | .crcAcc b => fieldsWord [(0, 0x03), (8, b.toNat)]
  | .crcCalc n => fieldsWord [(0, 0x04), (8, n.toNat)]
  | .catInit m => fieldsWord [(0, 0x10), (8, m.toNat)]
  | .catInclude m => fieldsWord [(0, 0x11), (8, m.toNat)]
  | .catExclude m => fieldsWord [(0, 0x12), (8, m.toNat)]
  | .catLookup id => fieldsWord [(0, 0x13), (8, id.toNat)]
  | .catField id k => fieldsWord [(0, 0x14), (8, id.toNat), (32, k.toNat)]
  | .parse n => fieldsWord [(0, 0x20), (8, n.toNat)]
  | .parseStream n => fieldsWord [(0, 0x21), (8, n.toNat)]
  | .fieldRead k e => fieldsWord [(0, 0x30), (8, k.toNat), (16, e.toNat)]
  | .fieldWrite k e => fieldsWord [(0, 0x31), (8, k.toNat), (16, e.toNat)]
  | .frameNew id ver => fieldsWord [(0, 0x40), (8, id.toNat), (32, ver.bit.toNat)]
  | .setHeader seq sys comp incompat compat =>
    fieldsWord
      [(0, 0x41), (8, seq.toNat), (16, sys.toNat), (24, comp.toNat), (32, incompat.toNat),
        (40, compat.toNat)]
  | .serialize => fieldsWord [(0, 0x42)]

/-- What the decoder reads from the instruction whose bits are `w`. The table gives every row 64 bits,
one word (R100: "There is one length (64 bits)"); were a row shorter, its bits above `nbits` are 0. -/
def decodeTableWord (nbits w : Nat) : Option Instr :=
  match decode (BitVec.ofNat 64 (w % 2 ^ nbits)) with
  | .ok i => some i
  | .error _ => none

/-- The mnemonic of a command (R102). -/
def Instr.mnemonic : Instr → String
  | .crcSeed => "CRC_SEED"
  | .crcLoad _ => "CRC_LOAD"
  | .crcAcc _ => "CRC_ACC"
  | .crcCalc _ => "CRC_CALC"
  | .catInit _ => "CAT_INIT"
  | .catInclude _ => "CAT_INCLUDE"
  | .catExclude _ => "CAT_EXCLUDE"
  | .catLookup _ => "CAT_LOOKUP"
  | .catField _ _ => "CAT_FIELD"
  | .parse _ => "PARSE"
  | .parseStream _ => "PARSE_STREAM"
  | .fieldRead _ _ => "FIELD_READ"
  | .fieldWrite _ _ => "FIELD_WRITE"
  | .frameNew _ _ => "FRAME_NEW"
  | .setHeader _ _ _ _ _ => "SET_HEADER"
  | .serialize => "SERIALIZE"

/-- A command's operands in the order R105 writes them ("in the order of rule R101"), in decimal; the
version of FRAME_NEW is written `v1` or `v2`. -/
def Instr.operandText : Instr → List String
  | .crcSeed => []
  | .crcLoad v => [toString v.toNat]
  | .crcAcc b => [toString b.toNat]
  | .crcCalc n => [toString n.toNat]
  | .catInit m => [toString m.toNat]
  | .catInclude m => [toString m.toNat]
  | .catExclude m => [toString m.toNat]
  | .catLookup id => [toString id.toNat]
  | .catField id k => [toString id.toNat, toString k.toNat]
  | .parse n => [toString n.toNat]
  | .parseStream n => [toString n.toNat]
  | .fieldRead k e => [toString k.toNat, toString e.toNat]
  | .fieldWrite k e => [toString k.toNat, toString e.toNat]
  | .frameNew id .v1 => [toString id.toNat, "v1"]
  | .frameNew id .v2 => [toString id.toNat, "v2"]
  | .setHeader seq sys comp incompat compat =>
    [toString seq.toNat, toString sys.toNat, toString comp.toNat, toString incompat.toNat,
      toString compat.toNat]
  | .serialize => []

/-- The assembler line of a command (R105): "one command per line as the mnemonic followed by its
operands ..., comma-separated". -/
def Instr.line (i : Instr) : String :=
  match i.operandText with
  | [] => i.mnemonic
  | operands => i.mnemonic ++ " " ++ ", ".intercalate operands

end Sys2Proof
end

