-- ==== Sys2Proof/Config.lean ====
section
/-! DEFINITION. What one instance of the block fixes: the four open parameters of `00_scope.md` rule
R5, and the free values the spec leaves unspecified (`10_state.md` rule R47) or unstated (`41_schema.md`
rule R166). The constants here have no body: nothing can be proved of their values beyond the bounds
their types carry. -/

namespace Sys2Proof

/-- The parameters of R5, "fixed for the life of a model instance". `Machine.State` carries them, so
that a statement about every state is a statement about every legal parameter value. -/
structure Params where
  /-- `IN_CAP`, bytes in the input memory `IN`. -/
  inCap : Nat
  /-- `IDL_CAP`, 24-bit entries in the id-list memory `IDLIST`. -/
  idlCap : Nat
  /-- `MAX_MESSAGES`, schemas the catalog can hold. -/
  maxMessages : Nat
  /-- `V2_TRIM`, whether SERIALIZE trims trailing zero payload bytes of a v2 frame. -/
  v2Trim : Bool
  deriving DecidableEq, Repr

/-- The legal values of R5: 280 ≤ IN_CAP ≤ 65535, 1 ≤ IDL_CAP ≤ 1024, 1 ≤ MAX_MESSAGES ≤ 2^24. -/
def Params.legal (p : Params) : Bool :=
  280 ≤ p.inCap && p.inCap ≤ 65535 && 1 ≤ p.idlCap && p.idlCap ≤ 1024 &&
    1 ≤ p.maxMessages && p.maxMessages ≤ 16777216

/-- `IN_CAP` less its lower bound 280 (R5): an open parameter (D7, log entry 1). -/
opaque Config.inCapAbove : Fin 65256

/-- `IDL_CAP` less its lower bound 1 (R5): an open parameter (D7, log entry 1). -/
opaque Config.idlCapAbove : Fin 1024

/-- `MAX_MESSAGES` less its lower bound 1 (R5): an open parameter (D7, log entry 1). -/
opaque Config.maxMessagesAbove : Fin 16777216

/-- `V2_TRIM` (R5): an open parameter (D8, log entry 1). -/
opaque Config.v2Trim : Bool

/-- The parameters of the instance that `Machine.State.reset` describes. -/
def Config.params : Params where
  inCap := Config.inCapAbove.val + 280
  idlCap := Config.idlCapAbove.val + 1
  maxMessages := Config.maxMessagesAbove.val + 1
  v2Trim := Config.v2Trim

/-- The FREE VALUE that byte `i` of `IN` holds after reset number `epoch`, until the host writes it:
"a model treats each byte (or entry) as an arbitrary value until the host writes it" (R47, D42; log
entry 2). -/
opaque Config.inAtReset : (epoch i : Nat) → Byte

/-- The FREE VALUE that entry `j` of `IDLIST` holds after reset number `epoch`, until the host writes
it (R47, D42; log entry 2). -/
opaque Config.idListAtReset : (epoch j : Nat) → MsgId

/-- The FREE VALUE of the byte that the string of R166 holds for an arrayLength `n` above 255: R166 asks
for "a single raw byte whose value is arrayLength", and no byte has that value (log entry 18). -/
opaque Config.wideLengthByte : (n : Nat) → Byte

end Sys2Proof
end

