-- ==== Sys2Proof/Machine/State.lean ====
section
/-! DEFINITION. The state of the MavlinkSharp codec block as plain data (`10_state.md` rules R30 to
R52), the reasons a step can stop, and the state after reset. Registers the spec composes from fields
(STATUS, FRAME_CTL, FRAME_HDR, FRAME_CKSUM, CAT_STATE) are held as their fields and composed in
`Machine/Port.lean`, where the host reads them. -/

namespace Sys2Proof.Machine

/-- Sparse data by key, in ONE canonical form: keys strictly rising (`Cells.rising`). With `Byte` as its
data it is a list of `Host.Cell`. `IN` and `IDLIST` hold in it what the host has written, `CAT` its
entries by message id. -/
abbrev Cells (α : Type) := List (Nat × α)

/-- The element kinds of a field, in the order of their codes 0 to 10 (R117). -/
inductive Kind where
  | i8 | u8 | i16 | u16 | i32 | u32 | i64 | u64 | f32 | f64 | char
  deriving DecidableEq, Repr

/-- One field of a catalog entry (R36). Its `size` in bytes is a function of its kind (R160) and is
not held a second time: `Field.size` in `Machine/Schema.lean`. -/
structure Field where
  /-- Element kind. -/
  kind : Kind
  /-- Number of elements of an array, 0 for a scalar (8 bits). -/
  arrayLength : Byte
  /-- Declared after the `extensions` marker (1 bit). -/
  extended : Bool
  /-- Position in declaration order (8 bits). -/
  declIndex : Byte
  /-- Length in bytes (R161). -/
  length : Nat
  /-- Byte offset in the payload (R163). -/
  offset : Nat
  deriving DecidableEq, Repr

/-- One compiled schema of the catalog (R36). Its `count` is the length of `fields`
(`Entry.count` in `Machine/Schema.lean`). -/
structure Entry where
  /-- CRC_EXTRA (8 bits). -/
  crcExtra : Byte
  /-- The ordered field list `F[0..count)` (R162). -/
  fields : List Field
  /-- baseFieldPayloadLength (8 bits, R163). -/
  base : Byte
  /-- maxPayloadLength (8 bits, R163). -/
  max : Byte
  /-- The filter bit (R167). -/
  included : Bool
  deriving DecidableEq, Repr

/-- One field of a schema table entry: kind code, array length, extended bit (R118). -/
structure SchemaField where
  kind : BitVec 4
  arrayLength : Byte
  extended : Bool
  deriving DecidableEq, Repr

/-- One entry of the schema table `SCH`, its fields in declaration order (R118). -/
structure SchemaEntry where
  id : MsgId
  crcExtra : Byte
  fields : List SchemaField
  deriving DecidableEq, Repr

/-- `STATUS` (R35): the OK bit [0] and the error code [15:8]; its other bits read 0. -/
structure Status where
  ok : Bool
  err : Byte
  deriving DecidableEq, Repr

/-- The frame registers (R40). -/
structure Frame where
  /-- VALID: the registers hold a frame and `MSGID` names a catalog entry. -/
  valid : Bool
  /-- VER: 0 = v1, 1 = v2. -/
  ver : Version
  /-- LEN (8 bits). -/
  len : Byte
  /-- SEQ (8 bits). -/
  seq : Byte
  /-- SYSID (8 bits). -/
  sysId : Byte
  /-- COMPID (8 bits). -/
  compId : Byte
  /-- MSGID (24 bits). -/
  msgId : MsgId
  /-- INCOMPAT (8 bits). -/
  incompat : Byte
  /-- COMPAT (8 bits). -/
  compat : Byte
  /-- HASSIG. -/
  hasSig : Bool
  /-- SIG[0..13). -/
  sig : Vector Byte 13
  /-- CKSUM (16 bits). -/
  cksum : Crc16
  /-- PAYLOAD[0..255). -/
  payload : Vector Byte 255
  deriving DecidableEq, Repr

/-- Every frame register 0: their reset value (R40) and what `clearFrame()` leaves (R235). -/
def Frame.zero : Frame where
  valid := false
  ver := .v1
  len := 0
  seq := 0
  sysId := 0
  compId := 0
  msgId := 0
  incompat := 0
  compat := 0
  hasSig := false
  sig := Vector.replicate 13 0
  cksum := 0
  payload := Vector.replicate 255 0

/-- The width of a host access. R32 gives 8, 32 and 64 bits; 16 is here so that it can be refused. -/
inductive Width where
  | b8 | b16 | b32 | b64
  deriving DecidableEq, Repr

/-- What the host, the other agent (R30), can do at the block's one port. A write of a 64-bit word to
`CMD` (offset 0x000) is a command (R31). -/
inductive HostAccess where
  /-- A host write of the low `width` bits of `value` at a byte offset of the register space. -/
  | write (width : Width) (offset : Offset) (value : Word)
  /-- A host read at a byte offset of the register space. -/
  | read (width : Width) (offset : Offset)
  /-- `host SCH <- table`, through the configuration interface of R48. -/
  | stageSchemas (table : List SchemaEntry)
  /-- The platform asserts reset (R330). -/
  | reset
  deriving DecidableEq, Repr

/-- The machine: every piece of state of `10_state.md` (its table R52), the instance's parameters (R5),
and three fields of the model's own, `port`, `readData` and `epoch` (log entries 3 and 2). -/
structure State where
  /-- The open parameters of R5, fixed for the life of the instance. -/
  params : Params
  /-- DATA (R34). -/
  data : Word
  /-- STATUS (R35). -/
  status : Status
  /-- RESULT (R39). -/
  result : Word
  /-- CRC (R38). -/
  crc : Crc16
  /-- CONSUMED (R45). -/
  consumed : BitVec 16
  /-- EXAMINED (R45). -/
  examined : BitVec 16
  /-- OUT_LEN (R46). -/
  outLen : BitVec 16
  /-- OUT[0..280) (R46). -/
  out : Vector Byte 280
  /-- INIT (R37). -/
  init : Bool
  /-- CAT (R36), keyed by message id. -/
  cat : Cells Entry
  /-- The frame registers (R40). -/
  frame : Frame
  /-- IN (R47): the bytes the host has written since reset. -/
  inMem : Cells Byte
  /-- IDLIST (R47): the entries the host has written since reset, bits [23:0] of each. -/
  idList : Cells MsgId
  /-- SCH (R48). -/
  sch : List SchemaEntry
  /-- MODEL'S OWN: the host accesses still to come, in the order the host issues them (R89). -/
  port : List HostAccess
  /-- MODEL'S OWN: the value the port answered to the last host read. -/
  readData : Word
  /-- MODEL'S OWN: how many resets there have been, the index of the free values of `IN` and
  `IDLIST`. -/
  epoch : Nat
  deriving DecidableEq, Repr

/-- Why a step can stop with a fault. The block itself has no fault: "No error stops the block" (R300),
"No command can address out of range, so there is no access fault" (R81). -/
inductive Fault where
  /-- Raised by FIELD_READ, FIELD_WRITE and SERIALIZE where VALID = 1 and `CAT(MSGID)` is none. R40 says
  that VALID means "its `MSGID` names a catalog entry", so no run reaches such a state (safe; log entry
  4), and the spec gives these commands no meaning in it. -/
  | frameWithoutSchema
  deriving DecidableEq, Repr

/-- Why a step can be refused. -/
inductive Refusal where
  /-- Raised by no arm of `exec`: every command of the block has its meaning. Safe. -/
  | notModelled (mnemonic : String)
  /-- Raised by `step` for a host access (not a command) of a width or alignment R32 does not give: "A
  host access of another width or alignment than rule R32 gives is outside this spec; a model refuses
  it" (R49). Safe. -/
  | hostAccessForm
  deriving DecidableEq, Repr

/-- The state right after the first reset (R52, R331): the value the spec states for every register, no
byte of `IN` and no entry of `IDLIST` written, and no host access pending. -/
def State.reset : State where
  params := Config.params
  data := 0
  status := { ok := false, err := 0 }
  result := 0
  crc := 0xFFFF#16
  consumed := 0
  examined := 0
  outLen := 0
  out := Vector.replicate 280 0
  init := false
  cat := []
  frame := Frame.zero
  inMem := []
  idList := []
  sch := []
  port := []
  readData := 0
  epoch := 0

end Sys2Proof.Machine
end

