-- ==== Sys2Proof/Machine/Flags.lean ====
section
/-! DEFINITION. The condition flag and the error code of the block: `STATUS` (`10_state.md` rule R35,
`60_exceptions.md` rules R301, R302). "The only condition flag is `STATUS.OK`" (R50). -/

namespace Sys2Proof.Machine

/-- The outcomes of a command, in the order of their codes (R301). -/
inductive Err where
  | none
  | notInitialized
  | dialectNotFound
  | dialectParseError
  | badType
  | duplicateMessageId
  | startMarkerNotFound
  | frameTooShort
  | frameTooLong
  | messageNotFound
  | messageExcluded
  | payloadLengthInvalid
  | frameHasNoChecksum
  | badChecksum
  | signatureLengthInvalid
  | unknownMessageId
  | needMore
  | illegalCommand
  | fieldSelectInvalid
  | messageIdOutOfRange
  | schemaInvalid
  | noFrame
  deriving DecidableEq, Repr

/-- The code of an outcome in `STATUS.ERR` (R301). -/
def Err.code : Err → Byte
  | .none => 0
  | .notInitialized => 1
  | .dialectNotFound => 2
  | .dialectParseError => 3
  | .badType => 4
  | .duplicateMessageId => 5
  | .startMarkerNotFound => 6
  | .frameTooShort => 7
  | .frameTooLong => 8
  | .messageNotFound => 9
  | .messageExcluded => 10
  | .payloadLengthInvalid => 11
  | .frameHasNoChecksum => 12
  | .badChecksum => 13
  | .signatureLengthInvalid => 14
  | .unknownMessageId => 15
  | .needMore => 16
  | .illegalCommand => 17
  | .fieldSelectInvalid => 18
  | .messageIdOutOfRange => 19
  | .schemaInvalid => 20
  | .noFrame => 21

/-- What `status(e)` leaves in `STATUS`: "`STATUS.OK <- (1 if e = None else 0)`, `STATUS.ERR <-
code(e)`" (R302). -/
def statusOf (e : Err) : Status where
  ok := e == .none
  err := e.code

/-- `STATUS` as the host reads it (R35): OK in bit [0], ERR in bits [15:8], every reserved bit 0. -/
def Status.word (t : Status) : Word := fieldsWord [(0, t.ok.toNat), (8, t.err.toNat)]

end Sys2Proof.Machine
end

