-- ==== Sys2Proof/Machine/Ops.lean ====
section
/-! DEFINITION. The operations the commands share: how a command ends (`60_exceptions.md` rules R300,
R302), the block's memories, byte windows and byte order (`20_memory.md`), the frame registers
(`43_parser.md` rules R234, R235) and reset (`70_reset_and_hazards.md` rule R330). -/

namespace Sys2Proof.Machine

/-- How a command of this machine comes out. -/
abbrev Out := Host.Outcome State Fault Refusal

/-! ### Ending a command

The block takes no exception: "no error causes a trap, vector fetch, saved state, mode change or
transfer of control" (R307). What stands in an exception's place is this one operation. -/

/-- `status(e)` (R302). -/
def setStatus (e : Err) (s : State) : State := { s with status := statusOf e }

/-- `raise E`: "means `status(E)` and stop" (R12). -/
def raise (e : Err) (s : State) : Out := .next (setStatus e s)

/-- `status(None)`: the command succeeded. -/
def succeed (s : State) : Out := .next (setStatus .none s)

/-! ### Sparse memories -/

/-- The data at key `k`, if the list holds it. -/
def Cells.read? {α : Type} : Cells α → Nat → Option α
  | [], _ => none
  | (j, x) :: rest, k => if j = k then some x else Cells.read? rest k

/-- Put `x` at key `k`, in its place among the rising keys; what stood at `k` is replaced. -/
def Cells.write {α : Type} (k : Nat) (x : α) : Cells α → Cells α
  | [] => [(k, x)]
  | (j, y) :: rest =>
    if k < j then (k, x) :: (j, y) :: rest
    else if k = j then (k, x) :: rest
    else (j, y) :: Cells.write k x rest

/-- Change the data at every key by `f`; the keys stay. -/
def Cells.mapData {α : Type} (f : Nat → α → α) (m : Cells α) : Cells α :=
  m.map (fun c => (c.1, f c.1 c.2))

/-- The canonical form: the keys rise strictly from the head on. -/
def Cells.rising {α : Type} : Cells α → Bool
  | [] => true
  | [_] => true
  | (j, _) :: (k, y) :: rest => decide (j < k) && Cells.rising ((k, y) :: rest)

/-- The canonical form of a memory of `cap` places: strictly rising addresses, all of them inside the
memory. An unlisted address reads as a free value, which no byte is known to equal, so a written byte
is always listed (log entry 2). -/
def Memory.wf {α : Type} (cap : Nat) (m : Cells α) : Bool :=
  Cells.rising m && m.all (fun c => decide (c.1 < cap))

/-- `IN[i]` (R47): what the host has written there, else the free value of this reset. The ONE
definition of what an unlisted byte reads as. -/
def State.readIn (s : State) (i : Nat) : Byte :=
  (Cells.read? s.inMem i).getD (Config.inAtReset s.epoch i)

/-- `IDLIST[j][23:0]` (R47): what the host has written there, else the free value of this reset. The
ONE definition of what an unlisted entry reads as. -/
def State.readId (s : State) (j : Nat) : MsgId :=
  (Cells.read? s.idList j).getD (Config.idListAtReset s.epoch j)

/-- `IN[i] <- b`, a host write (R87). -/
def State.writeIn (s : State) (i : Nat) (b : Byte) : State :=
  { s with inMem := Cells.write i b s.inMem }

/-- `IDLIST[j] <- x`, a host write (R87). -/
def State.writeId (s : State) (j : Nat) (x : MsgId) : State :=
  { s with idList := Cells.write j x s.idList }

/-! ### Byte order: little-endian, everywhere (R82) -/

/-- `le_N(b0, ..., bN-1)`, the number Σ b_i · 2^(8i) (R10). -/
def le : List Byte → Nat
  | [] => 0
  | b :: bs => b.toNat + 256 * le bs

/-- `bytes_le_N(v)`: the `n` bytes of v modulo 2^(8n), least significant first (R10). -/
def bytesLe : (n v : Nat) → List Byte
  | 0, _ => []
  | n + 1, v => BitVec.ofNat 8 v :: bytesLe n (v / 256)

/-! ### Byte windows: SIG, PAYLOAD, OUT -/

/-- A window of `n` bytes given byte by byte. -/
def Bytes.tabulate (n : Nat) (f : Nat → Byte) : Vector Byte n :=
  ⟨⟨(List.range n).map f⟩, by simp⟩

/-- A window that holds the bytes of a list from index 0 on, and zero after them. -/
def Bytes.ofList (n : Nat) (l : List Byte) : Vector Byte n :=
  Bytes.tabulate n (fun i => l.getD i 0)

/-- Byte `i` of a window; 0 beyond its end, as the host reads it there (R44). -/
def byteAt {n : Nat} (x : Vector Byte n) (i : Nat) : Byte := x[i]?.getD 0

/-- `X[a..b)` of a window (R11). -/
def slice {n : Nat} (x : Vector Byte n) (a b : Nat) : List Byte :=
  (List.range (b - a)).map (fun j => byteAt x (a + j))

/-- `MemRead(X, a, k) = le_k(X[a], ..., X[a+k-1])` (R12). -/
def memRead {n : Nat} (x : Vector Byte n) (a k : Nat) : Nat := le (slice x a (a + k))

/-- `MemWrite(X, a, k, v)` writes `bytes_le_k(v)` to `X[a..a+k)` and leaves every other byte (R12). -/
def memWrite {n : Nat} (x : Vector Byte n) (a k v : Nat) : Vector Byte n :=
  Bytes.tabulate n (fun i => if a ≤ i ∧ i < a + k then (bytesLe k v).getD (i - a) 0 else byteAt x i)

/-! ### The frame registers and the catalog -/

/-- `clearFrame()`: every frame register 0 (R235). -/
def clearFrame (s : State) : State := { s with frame := Frame.zero }

/-- `load(frame)` (R234). -/
def loadFrame (f : Frame) (s : State) : State := { s with frame := f }

/-- `CAT(id)`: the catalog entry for an id, or none (R12). -/
def State.catEntry (s : State) (id : MsgId) : Option Entry := Cells.read? s.cat id.toNat

/-- `RESULT <- v`. -/
def setResult (v : Word) (s : State) : State := { s with result := v }

/-! ### Reset -/

/-- The platform asserts reset (R330): every piece of the block's state takes its value of R52, and
`IN` and `IDLIST` are unspecified again. The parameters, the host's further accesses and what it has
read are not the block's state and stay. -/
def platformReset (s : State) : State :=
  { State.reset with
    params := s.params, port := s.port, readData := s.readData, epoch := s.epoch + 1 }

end Sys2Proof.Machine
end

