-- ==== Sys2Proof/WellFormed.lean ====
section
/-! DEFINITION. The well-formedness of a command: the part of "illegal" that the bits of a command
word alone do not show, `30_encoding.md` rule R103 (c). -/

namespace Sys2Proof

/-- A count of bytes of `IN` is at most `IN_CAP` (R103 (c)). -/
def Params.inCountOk (p : Params) (n : Count) : Bool := n.toNat ≤ p.inCap

/-- A count of entries of `IDLIST` is at most `IDL_CAP` (R103 (c)). -/
def Params.idlCountOk (p : Params) (m : Count) : Bool := m.toNat ≤ p.idlCap

/-- Legality of a decoded command (R103 (c)): its count, where its format is FN, does not exceed the
capacity it counts. Every other operand is legal at every value of its bits. -/
def Instr.wellFormed (p : Params) : Instr → Bool
  | .crcCalc n => p.inCountOk n
  | .parse n => p.inCountOk n
  | .parseStream n => p.inCountOk n
  | .catInit m => p.idlCountOk m
  | .catInclude m => p.idlCountOk m
  | .catExclude m => p.idlCountOk m
  | .crcSeed => true
  | .crcLoad _ => true
  | .crcAcc _ => true
  | .catLookup _ => true
  | .catField _ _ => true
  | .fieldRead _ _ => true
  | .fieldWrite _ _ => true
  | .frameNew _ _ => true
  | .setHeader _ _ _ _ _ => true
  | .serialize => true

end Sys2Proof
end

