-- ==== Sys2Proof/Machine/Operands.lean ====
section
/-! DEFINITION. The operand forms of the commands: the counted prefix of `IN` and of `IDLIST` (formats
FN, `10_state.md` rule R47), and the guards that stand before a command's own work, in the order of
`60_exceptions.md` rule R303. -/

namespace Sys2Proof.Machine

/-- `IN[0..n)` (R47). -/
def State.inPrefix (s : State) (n : Nat) : List Byte := (List.range n).map s.readIn

/-- `[ IDLIST[j][23:0] | 0 ≤ j < m ]` (R168). -/
def State.idPrefix (s : State) (m : Nat) : List MsgId := (List.range m).map s.readId

/-- "The legality test of rule R103 happens before any other test of any command" (R104): a count of
bytes of `IN` above `IN_CAP` is IllegalCommand and nothing else changes. -/
def withInCount (n : Count) (s : State) (run : List Byte → Out) : Out :=
  if s.params.inCountOk n then run (s.inPrefix n.toNat) else raise .illegalCommand s

/-- The same for a count of entries of `IDLIST` (R103 (c), R104). -/
def withIdCount (m : Count) (s : State) (run : List MsgId → Out) : Out :=
  if s.params.idlCountOk m then run (s.idPrefix m.toNat) else raise .illegalCommand s

/-- The second test of R303: a command that needs the catalog fails NotInitialized while INIT = 0. -/
def whenInit (s : State) (run : Out) : Out := if s.init then run else raise .notInitialized s

/-- The test of R303 after it, for the commands that act on the frame registers: NoFrame while
VALID = 0. -/
def whenFrame (s : State) (run : Out) : Out :=
  whenInit s (if s.frame.valid then run else raise .noFrame s)

/-- `E <- CAT(MSGID)` of a command that acts on the frame held (R205, R206, R265), after the tests of
`whenFrame`. -/
def withFrameEntry (s : State) (run : Entry → Out) : Out :=
  whenFrame s <|
    match s.catEntry s.frame.msgId with
    | none => .fault .frameWithoutSchema
    | some e => run e

end Sys2Proof.Machine
end

