-- ==== Sys2Proof/Machine/Schema.lean ====
section
/-! DEFINITION. The layout of a message (`41_schema.md` rules R160 to R164) and the compilation of the
schema table `SCH` into the catalog (R168). -/

namespace Sys2Proof.Machine

/-! ### Kinds -/

/-- The code of a kind (R117). -/
def Kind.code : Kind → BitVec 4
  | .i8 => 0
  | .u8 => 1
  | .i16 => 2
  | .u16 => 3
  | .i32 => 4
  | .u32 => 5
  | .i64 => 6
  | .u64 => 7
  | .f32 => 8
  | .f64 => 9
  | .char => 10

/-- The kind of a code; codes 11 to 15 name none (R117). -/
def Kind.ofCode? (c : BitVec 4) : Option Kind :=
  [Kind.i8, .u8, .i16, .u16, .i32, .u32, .i64, .u64, .f32, .f64, .char][c.toNat]?

/-- The element size of a kind in bytes (R160). -/
def Kind.size : Kind → Nat
  | .i8 => 1
  | .u8 => 1
  | .i16 => 2
  | .u16 => 2
  | .i32 => 4
  | .u32 => 4
  | .i64 => 8
  | .u64 => 8
  | .f32 => 4
  | .f64 => 8
  | .char => 1

/-- The kinds FIELD_READ widens by sign (R205, R117); the 64-bit kinds fill the word either way. -/
def Kind.signed : Kind → Bool
  | .i8 => true
  | .u8 => false
  | .i16 => true
  | .u16 => false
  | .i32 => true
  | .u32 => false
  | .i64 => false
  | .u64 => false
  | .f32 => false
  | .f64 => false
  | .char => false

/-! ### Fields and entries -/

/-- The element size of a field (R36, R160). -/
def Field.size (f : Field) : Nat := f.kind.size

/-- The number of elements of a field: `max(1, arrayLength)` (R161, R200). -/
def Field.elements (f : Field) : Nat := max 1 f.arrayLength.toNat

/-- The number of fields of an entry (R36). -/
def Entry.count (e : Entry) : Nat := e.fields.length

/-- One declared field, `i`-th in declaration order, with its length (R161) and no offset yet; none
where its kind code names no kind (R117). -/
def resolveField (i : Nat) (d : SchemaField) : Option Field :=
  match Kind.ofCode? d.kind with
  | none => none
  | some k =>
    some
      { kind := k
        arrayLength := d.arrayLength
        extended := d.extended
        declIndex := BitVec.ofNat 8 i
        length := k.size * max 1 d.arrayLength.toNat
        offset := 0 }

/-- The declared fields of an entry from position `i` on; none where one of them has no kind. -/
def resolveFields : Nat → List SchemaField → Option (List Field)
  | _, [] => some []
  | i, d :: ds =>
    match resolveField i d, resolveFields (i + 1) ds with
    | some f, some fs => some (f :: fs)
    | _, _ => none

/-- `orderedFields` (R162): the base fields sorted by descending element size, stably, then the extended
fields in declaration order. -/
def orderFields (fs : List Field) : List Field :=
  (fs.filter (fun f => !f.extended)).insertionSort (fun a b => b.size ≤ a.size) ++
    fs.filter (fun f => f.extended)

/-- Offsets by "walking `orderedFields` and prefix-summing `length`" (R163). -/
def assignOffsets : Nat → List Field → List Field
  | _, [] => []
  | at0, f :: fs => { f with offset := at0 } :: assignOffsets (at0 + f.length) fs

/-- `Σ length(f)`. -/
def totalLength (fs : List Field) : Nat := (fs.map (fun f => f.length)).sum

/-- `Σ length(f)` over the fields with extended = 0 (R163). -/
def baseLength (fs : List Field) : Nat := totalLength (fs.filter (fun f => !f.extended))

/-- The laid-out schema of declared fields (R161 to R163), not yet included. Its 8-bit lengths are the
sums of R163 whenever the entry passes CAT_INIT's test `max ≤ 255` (R164). -/
def layOut (crcExtra : Byte) (declared : List Field) : Entry :=
  let fs := assignOffsets 0 (orderFields declared)
  { crcExtra := crcExtra
    fields := fs
    base := BitVec.ofNat 8 (baseLength fs)
    max := BitVec.ofNat 8 (totalLength fs)
    included := false }

/-! ### The catalog -/

/-- Lay out every entry of a schema table, each with its id; none where some field has a kind code
above 10. -/
def layOutTable : List SchemaEntry → Option (List (MsgId × Entry))
  | [] => some []
  | r :: rs =>
    match resolveFields 0 r.fields, layOutTable rs with
    | some fs, some es => some ((r.id, layOut r.crcExtra fs) :: es)
    | _, _ => none

/-- Whether the filter list turns a message on: `(m = 0) or (id ∈ L) or (id = 0)` (R168, R169). -/
def includes (ids : List MsgId) (k : Nat) : Bool :=
  ids.isEmpty || ids.any (fun x => x.toNat == k) || k == 0

/-- The map `{ E.id -> E }` of laid-out entries, with its filter bits. -/
def buildCatalog (ids : List MsgId) : List (MsgId × Entry) → Cells Entry
  | [] => []
  | (id, e) :: rest =>
    Cells.write id.toNat { e with included := includes ids id.toNat } (buildCatalog ids rest)

/-- CAT_INIT's tests in their order, and the catalog it installs (R168). -/
def compile (maxMessages : Nat) (sch : List SchemaEntry) (ids : List MsgId) :
    Except Err (Cells Entry) :=
  match layOutTable sch with
  | none => .error .badType
  | some rows =>
    if rows.any (fun r => decide (255 < totalLength r.2.fields)) || decide (maxMessages < sch.length) then
      .error .schemaInvalid
    else if ¬ (sch.map (fun r => r.id)).Nodup then .error .duplicateMessageId
    else if ids.any (fun x => !(sch.map (fun r => r.id)).contains x) then .error .unknownMessageId
    else .ok (buildCatalog ids rows)

end Sys2Proof.Machine
end

