-- ==== Sys2Proof/Machine/Catalog.lean ====
section
/-! DEFINITION. The catalog family, components C2 and C4 (`41_schema.md` section 4): CAT_INIT,
CAT_INCLUDE, CAT_EXCLUDE, CAT_LOOKUP, CAT_FIELD. -/

namespace Sys2Proof.Machine

/-- Some id of the list has no catalog entry: the test for UnknownMessageId (R169, R170). -/
def someUnknown (s : State) (ids : List MsgId) : Bool := ids.any (fun x => (s.catEntry x).isNone)

/-- CAT_INIT m (R168). It does not test INIT (R303); on an error nothing but STATUS changes. -/
def execCatInit (m : Count) (s : State) : Out :=
  withIdCount m s fun ids =>
    match compile s.params.maxMessages s.sch ids with
    | .error e => raise e s
    | .ok cat => succeed (clearFrame { s with cat := cat, init := true })

/-- CAT_INCLUDE m (R169): `included` becomes `(m = 0) or (x ∈ L) or (x = 0)` for every id mapped. -/
def execCatInclude (m : Count) (s : State) : Out :=
  withIdCount m s fun ids =>
    whenInit s <|
      if someUnknown s ids then raise .unknownMessageId s
      else
        succeed
          { s with cat := Cells.mapData (fun k e => { e with included := includes ids k }) s.cat }

/-- CAT_EXCLUDE m (R170): id 0 is dropped from the list first, then `included` becomes 0 for every id
in it. -/
def execCatExclude (m : Count) (s : State) : Out :=
  withIdCount m s fun all =>
    whenInit s <|
      let ids := all.filter (fun x => x != 0#24)
      if someUnknown s ids then raise .unknownMessageId s
      else
        succeed
          { s with
            cat :=
              Cells.mapData
                (fun k e => if ids.any (fun x => x.toNat == k) then { e with included := false } else e)
                s.cat }

/-- RESULT of CAT_LOOKUP: `crcExtra | (base << 8) | (max << 16) | (count << 24) | (included << 32)`
(R171, R119). -/
def lookupWord (e : Entry) : Word :=
  BitVec.ofNat 64
    (e.crcExtra.toNat ||| (e.base.toNat <<< 8) ||| (e.max.toNat <<< 16) ||| (e.count <<< 24) |||
      (e.included.toNat <<< 32))

/-- CAT_LOOKUP id (R171). -/
def execCatLookup (id : MsgId) (s : State) : Out :=
  whenInit s <|
    match s.catEntry id with
    | none => raise .unknownMessageId s
    | some e => succeed (setResult (lookupWord e) s)

/-- RESULT of CAT_FIELD: `kind | (arrayLength << 8) | (offset << 16) | (length << 24) | (extended << 32)
| (declIndex << 40)` (R172, R119). -/
def fieldWord (f : Field) : Word :=
  BitVec.ofNat 64
    (f.kind.code.toNat ||| (f.arrayLength.toNat <<< 8) ||| (f.offset <<< 16) ||| (f.length <<< 24) |||
      (f.extended.toNat <<< 32) ||| (f.declIndex.toNat <<< 40))

/-- CAT_FIELD id, k (R172). -/
def execCatField (id : MsgId) (k : Byte) (s : State) : Out :=
  whenInit s <|
    match s.catEntry id with
    | none => raise .unknownMessageId s
    | some e =>
      match e.fields[k.toNat]? with
      | none => raise .fieldSelectInvalid s
      | some f => succeed (setResult (fieldWord f) s)

end Sys2Proof.Machine
end

