-- ==== Sys2Proof/Machine/Payload.lean ====
section
/-! DEFINITION. The payload codec family, component C5 (`42_payload.md`): FIELD_READ, FIELD_WRITE, and
the whole value of a field (R207). -/

namespace Sys2Proof.Machine

/-- Field selection (R200): the field that selector `k` names, when element `e` of it exists. -/
def Entry.select (en : Entry) (k e : Byte) : Option Field :=
  match en.fields[k.toNat]? with
  | none => none
  | some f => if e.toNat < f.elements then some f else none

/-- The byte address of element `e` of a field in PAYLOAD: `f.offset + e × size(f.kind)` (R200). -/
def elementAddress (f : Field) (e : Nat) : Nat := f.offset + e * f.size

/-- The raw value of element `e` of a field: `MemRead(PAYLOAD, a, size(f.kind))` (R201). -/
def rawElement (p : Vector Byte 255) (f : Field) (e : Nat) : Nat :=
  memRead p (elementAddress f e) f.size

/-- FIELD_READ's widening of a raw value of a kind to 64 bits (R205, R117): by sign for i8, i16 and i32,
by zero for u8, u16, u32, f32 and char, and as it is for the 64-bit kinds. -/
def widen (k : Kind) (v : Nat) : Word :=
  if k.signed then (BitVec.ofNat (8 * k.size) v).signExtend 64
  else (BitVec.ofNat (8 * k.size) v).setWidth 64

/-- FIELD_READ k, e (R205). -/
def execFieldRead (k e : Byte) (s : State) : Out :=
  withFrameEntry s fun en =>
    match en.select k e with
    | none => raise .fieldSelectInvalid s
    | some f => succeed (setResult (widen f.kind (rawElement s.frame.payload f e.toNat)) s)

/-- `MemWrite(PAYLOAD, a, size(f.kind), trunc_{8·size}(DATA))` (R202, R206). -/
def writeElement (f : Field) (e : Nat) (v : Word) (s : State) : State :=
  { s with
    frame :=
      { s.frame with
        payload := memWrite s.frame.payload (elementAddress f e) f.size (v.toNat % 2 ^ (8 * f.size)) } }

/-- FIELD_WRITE k, e (R206). -/
def execFieldWrite (k e : Byte) (s : State) : Out :=
  withFrameEntry s fun en =>
    match en.select k e with
    | none => raise .fieldSelectInvalid s
    | some f => succeed (writeElement f e.toNat s.data s)

/-- The whole value of a field, "the source's tagged variant": its kind, its arrayLength and its raw
elements (R207). A view the host can assemble; no command returns it. -/
structure FieldValue where
  kind : Kind
  arrayLength : Byte
  elements : List Nat
  deriving DecidableEq, Repr

/-- `FieldValue(k)` of the frame in the registers, where it has a field `k` (R207). DESIGN CHOICE (log
entry 17): none while VALID = 0, of which R207, speaking of the frame in the registers, says nothing. -/
def State.fieldValue? (s : State) (k : Byte) : Option FieldValue :=
  if s.frame.valid then
    match s.catEntry s.frame.msgId with
    | none => none
    | some en =>
      match en.fields[k.toNat]? with
      | none => none
      | some f =>
        some
          { kind := f.kind
            arrayLength := f.arrayLength
            elements := (List.range f.elements).map (rawElement s.frame.payload f) }
  else none

end Sys2Proof.Machine
end

