-- ==== Sys2Proof/Machine/Parser.lean ====
section
/-! DEFINITION. The frame scanner and parser family, component C6 (`43_parser.md`): PARSE and
PARSE_STREAM, over the wire format of `30_encoding.md` rules R110 to R116. -/

namespace Sys2Proof.Machine

/-- The start marker STX of a version: 0xFE for v1, 0xFD for v2 (R110). -/
def stxOf : Version → Byte
  | .v1 => 0xFE#8
  | .v2 => 0xFD#8

/-- Header length H: 6 for v1, 10 for v2 (R113). -/
def headerLength : Version → Nat
  | .v1 => 6
  | .v2 => 10

/-- A byte at which the scanner attempts a decode, and the version it announces (R220). -/
def markerVersion? (b : Byte) : Option Version :=
  if b = stxOf .v1 then some .v1 else if b = stxOf .v2 then some .v2 else none

/-- "If a frame is signed": bit 0 of the incompat byte of a v2 frame (R115). -/
def signedBit (incompat : Byte) : Bool := incompat.getLsbD 0

/-- The checksum of a frame: `acc(crcExtra, calc(header without STX || payload))` (R114). -/
def frameChecksum (crcExtra : Byte) (covered : List Byte) : Crc16 := acc crcExtra (crcOf covered)

/-- The longest payload a frame of this version may carry: `max` for v2, `base` for v1 (R225). -/
def Entry.limit (e : Entry) : Version → Byte
  | .v1 => e.base
  | .v2 => e.max

/-- The two scanner modes (R221). -/
inductive Mode where
  | discrete
  | stream
  deriving DecidableEq, Repr

/-- What the candidate procedure answers (R221). A decoded frame comes with the number of bytes it
occupies, `end − start`. -/
inductive Try where
  | ok (frame : Frame) (size : Nat)
  | fail (reason : Err)
  | needMore
  deriving DecidableEq, Repr

/-- What a lack of bytes means in each mode (R221 steps 1, 2 and 8, R229). -/
def Mode.lacking (mode : Mode) (reason : Err) : Try :=
  match mode with
  | .discrete => .fail reason
  | .stream => .needMore

/-- The header fields of a candidate in the frame registers (R221 step 3, R111, R112): `b` is the bytes
from its STX on. A v1 frame "has no incompat or compat byte and the block records 0 for both" (R224). -/
def headerFrame (ver : Version) (b : List Byte) : Frame :=
  match ver with
  | .v2 =>
    { Frame.zero with
      valid := true
      ver := .v2
      len := b.getD 1 0
      incompat := b.getD 2 0
      compat := b.getD 3 0
      seq := b.getD 4 0
      sysId := b.getD 5 0
      compId := b.getD 6 0
      msgId := BitVec.ofNat 24 (le [b.getD 7 0, b.getD 8 0, b.getD 9 0]) }
  | .v1 =>
    { Frame.zero with
      valid := true
      ver := .v1
      len := b.getD 1 0
      seq := b.getD 2 0
      sysId := b.getD 3 0
      compId := b.getD 4 0
      msgId := BitVec.ofNat 24 (b.getD 5 0).toNat }

/-- `S[a..a+k)` of a byte sequence (R11). -/
def portion (b : List Byte) (a k : Nat) : List Byte := (b.drop a).take k

/-- Step 8 (R221, R229): the signature of a v2 frame with incompat bit 0 = 1. `f` is the frame as far as
steps 3 to 7 give it and `used` the bytes up to and with its checksum. -/
def trySignature (mode : Mode) (f : Frame) (used : Nat) (b : List Byte) : Try :=
  if f.ver = .v2 ∧ signedBit f.incompat then
    if b.length - used < 13 then mode.lacking .signatureLengthInvalid
    else .ok { f with hasSig := true, sig := Bytes.ofList 13 (portion b used 13) } (used + 13)
  else .ok f used

/-- Steps 3 to 7 (R221, R224 to R228), once the header, the payload and the checksum are all there. -/
def tryBody (cat : Cells Entry) (mode : Mode) (ver : Version) (b : List Byte) : Try :=
  let f := headerFrame ver b
  let h := headerLength ver
  let len := f.len.toNat
  match Cells.read? cat f.msgId.toNat with
  | none => .fail .messageNotFound
  | some e =>
    if ¬ e.included then .fail .messageExcluded
    else if (e.limit ver).toNat < len then .fail .payloadLengthInvalid
    else
      let ck := BitVec.ofNat 16 (le (portion b (h + len) 2))
      if frameChecksum e.crcExtra (portion b 1 (h + len - 1)) ≠ ck then .fail .badChecksum
      else
        trySignature mode
          { f with cksum := ck, payload := Bytes.ofList 255 (portion b h len) } (h + len + 2) b

/-- `try(i, mode)` (R221). `b` is `IN[i..n)`, the candidate's STX first: the procedure "reads only
IN[i..n) and CAT, and writes nothing". -/
def tryCandidate (cat : Cells Entry) (mode : Mode) (ver : Version) (b : List Byte) : Try :=
  let h := headerLength ver
  if b.length < h + 2 then mode.lacking .frameTooShort
  else if b.length < h + (b.getD 1 0).toNat + 2 then mode.lacking .frameTooShort
  else tryBody cat mode ver b

/-- How a scan ends (R230, R232): a frame from index `start` to `stop`, a candidate that needs more
bytes, or no candidate left. -/
inductive Scan where
  | found (frame : Frame) (start stop : Nat)
  | needMore (candidate : Nat)
  | exhausted (reason : Err)
  deriving DecidableEq, Repr

/-- The scan of R230 and R232 from index `i` on, `b` being `IN[i..n)` and `last` the reason of the last
candidate tried. A byte that is no marker is passed over (`nextMarker`, R220); a candidate that fails
is passed by one byte (`pos <- i + 1`). At the end the reason is the last candidate's, or
StartMarkerNotFound where there was none (R231). -/
def scan (cat : Cells Entry) (mode : Mode) : Nat → List Byte → Option Err → Scan
  | _, [], last => .exhausted (last.getD .startMarkerNotFound)
  | i, x :: rest, last =>
    match markerVersion? x with
    | none => scan cat mode (i + 1) rest last
    | some ver =>
      match tryCandidate cat mode ver (x :: rest) with
      | .ok f size => .found f i (i + size)
      | .needMore => .needMore i
      | .fail r => scan cat mode (i + 1) rest (some r)

/-- `nextMarker(pos)`: the smallest index from `pos` on at which `buf`, `IN[0..n)`, holds a marker, or
none (R220). -/
def nextMarker (buf : List Byte) (pos : Nat) : Option Nat :=
  ((buf.drop pos).findIdx? (fun x => (markerVersion? x).isSome)).map (fun j => pos + j)

/-- RESULT of a successful parse: `(start << 16) | end` (R230, R119). -/
def parseWord (start stop : Nat) : Word := BitVec.ofNat 64 ((start <<< 16) ||| stop)

/-- `CONSUMED <- c; EXAMINED <- x` (R45). -/
def setStream (c x : Nat) (s : State) : State :=
  { s with consumed := BitVec.ofNat 16 c, examined := BitVec.ofNat 16 x }

/-- PARSE n (R230). In discrete mode the candidate procedure never answers NeedMore; that branch only
completes the match. -/
def execParse (n : Count) (s : State) : Out :=
  withInCount n s fun buf =>
    whenInit s <|
      match scan s.cat .discrete 0 buf none with
      | .found f start stop => succeed (setResult (parseWord start stop) (loadFrame f (clearFrame s)))
      | .needMore _ => raise .needMore (clearFrame s)
      | .exhausted r => raise r (clearFrame s)

/-- PARSE_STREAM n (R232). Before initialization it writes CONSUMED and EXAMINED 0 (D40). -/
def execParseStream (n : Count) (s : State) : Out :=
  withInCount n s fun buf =>
    if s.init then
      match scan s.cat .stream 0 buf none with
      | .found f start stop =>
        succeed (setStream stop stop (setResult (parseWord start stop) (loadFrame f (clearFrame s))))
      | .needMore i => raise .needMore (setStream i n.toNat (clearFrame s))
      | .exhausted r => raise r (setStream n.toNat n.toNat (clearFrame s))
    else raise .notInitialized (setStream 0 0 s)

end Sys2Proof.Machine
end

