-- ==== Sys2Proof/Machine/Serializer.lean ====
section
/-! DEFINITION. The frame serializer family, component C7 (`44_serializer.md`): FRAME_NEW, SET_HEADER,
SERIALIZE. -/

namespace Sys2Proof.Machine

/-- FRAME_NEW id, ver (R260). The `included` bit is not consulted. -/
def execFrameNew (id : MsgId) (ver : Version) (s : State) : Out :=
  whenInit s <|
    match s.catEntry id with
    | none => raise .messageNotFound s
    | some e =>
      if ver = .v1 ∧ 255 < id.toNat then raise .messageIdOutOfRange s
      else
        succeed
          (loadFrame { Frame.zero with valid := true, ver := ver, msgId := id, len := e.limit ver }
            (clearFrame s))

/-- SET_HEADER seq, sys, comp, incompat, compat (R261). "on a v1 frame the incompat and compat operands
are ignored". -/
def execSetHeader (seq sys comp incompat compat : Byte) (s : State) : Out :=
  whenFrame s <|
    let f := { s.frame with seq := seq, sysId := sys, compId := comp }
    match s.frame.ver with
    | .v1 => succeed { s with frame := f }
    | .v2 => succeed { s with frame := { f with incompat := incompat, compat := compat } }

/-- `trim(E)` (R262): the largest j with 1 ≤ j ≤ max and PAYLOAD[j−1] ≠ 0, or 1 if PAYLOAD[0..max) is
all zero, and 0 when max = 0. -/
def trimmed (p : Vector Byte 255) : (max : Nat) → Nat
  | 0 => 0
  | 1 => 1
  | j + 2 => if byteAt p (j + 1) ≠ 0#8 then j + 2 else trimmed p (j + 1)

/-- The emitted payload length `ln` (R262). -/
def emittedLength (v2Trim : Bool) (e : Entry) (f : Frame) : Nat :=
  match f.ver with
  | .v1 => e.base.toNat
  | .v2 => if v2Trim then trimmed f.payload e.max.toNat else e.max.toNat

/-- The header bytes `hdr` (R263), with emitted payload length `ln`. -/
def headerBytes (f : Frame) (ln : Nat) : List Byte :=
  match f.ver with
  | .v1 =>
    [stxOf .v1, BitVec.ofNat 8 ln, f.seq, f.sysId, f.compId, f.msgId.extractLsb' 0 8]
  | .v2 =>
    [stxOf .v2, BitVec.ofNat 8 ln, f.incompat, f.compat, f.seq, f.sysId, f.compId,
      f.msgId.extractLsb' 0 8, f.msgId.extractLsb' 8 8, f.msgId.extractLsb' 16 8]

/-- The checksum of the frame as emitted: over the header without STX and the emitted payload (R264). -/
def emittedChecksum (e : Entry) (f : Frame) (ln : Nat) : Crc16 :=
  frameChecksum e.crcExtra ((headerBytes f ln).drop 1 ++ slice f.payload 0 ln)

/-- The bytes of the serialized frame, `hdr || PAYLOAD[0..ln) || [ck AND 0xFF, ck >> 8]` (R265); never
a signature (R266). -/
def frameBytes (e : Entry) (f : Frame) (ln : Nat) : List Byte :=
  headerBytes f ln ++ slice f.payload 0 ln ++ bytesLe 2 (emittedChecksum e f ln).toNat

/-- SERIALIZE (R265). -/
def execSerialize (s : State) : Out :=
  withFrameEntry s fun e =>
    let ln := emittedLength s.params.v2Trim e s.frame
    let bytes := frameBytes e s.frame ln
    succeed
      (setResult (BitVec.ofNat 64 bytes.length)
        { s with
          out := Bytes.ofList 280 bytes
          outLen := BitVec.ofNat 16 bytes.length
          frame :=
            { s.frame with len := BitVec.ofNat 8 ln, cksum := emittedChecksum e s.frame ln } })

end Sys2Proof.Machine
end

