-- ==== Sys2Proof/Machine/Dispatch.lean ====
section
/-! DEFINITION. The dispatch of a command to its meaning: one arm per constructor of `Instr`. -/

namespace Sys2Proof.Machine

def exec (i : Instr) (s : State) : Host.Outcome State Fault Refusal :=
  match i with
  | .crcSeed => Sys2Proof.Machine.execCrcSeed s
  | .crcLoad v => Sys2Proof.Machine.execCrcLoad v s
  | .crcAcc b => Sys2Proof.Machine.execCrcAcc b s
  | .crcCalc n => Sys2Proof.Machine.execCrcCalc n s
  | .catInit m => Sys2Proof.Machine.execCatInit m s
  | .catInclude m => Sys2Proof.Machine.execCatInclude m s
  | .catExclude m => Sys2Proof.Machine.execCatExclude m s
  | .catLookup id => Sys2Proof.Machine.execCatLookup id s
  | .catField id k => Sys2Proof.Machine.execCatField id k s
  | .parse n => Sys2Proof.Machine.execParse n s
  | .parseStream n => Sys2Proof.Machine.execParseStream n s
  | .fieldRead k e => Sys2Proof.Machine.execFieldRead k e s
  | .fieldWrite k e => Sys2Proof.Machine.execFieldWrite k e s
  | .frameNew id ver => Sys2Proof.Machine.execFrameNew id ver s
  | .setHeader seq sys comp incompat compat => Sys2Proof.Machine.execSetHeader seq sys comp incompat compat s
  | .serialize => Sys2Proof.Machine.execSerialize s

end Sys2Proof.Machine
end

