-- ==== Sys2Proof/Machine/Port.lean ====
section
/-! DEFINITION. The host's port: the register map (`10_state.md` rules R32 to R49), host reads and
writes (`20_memory.md` rules R80 to R93), and how the next access is taken off the port. The block has
no instruction fetch (R31): what stands in its place is the host's write of a word to `CMD`. -/

namespace Sys2Proof.Machine

/-- The 64-bit registers of R32, in the order of their offsets 0x000, 0x008, ... 0x058. -/
inductive Reg where
  | cmd | data | status | result | crc | consumed | examined | frameCtl | frameHdr | frameCksum
  | outLen | catState
  deriving DecidableEq, Repr

/-- What a byte offset of the register space belongs to (R32). -/
inductive Place where
  | reg (r : Reg)
  | sig (i : Nat)
  | payload (i : Nat)
  | out (i : Nat)
  | idList (j : Nat)
  | input (i : Nat)
  | unmapped
  deriving DecidableEq, Repr

/-- The 64-bit register whose eight bytes hold the offset `8k` to `8k + 7`. -/
def Reg.ofIndex? (k : Nat) : Option Reg :=
  [Reg.cmd, .data, .status, .result, .crc, .consumed, .examined, .frameCtl, .frameHdr, .frameCksum,
    .outLen, .catState][k]?

/-- The register map (R32): the place of a byte offset. -/
def placeOf (p : Params) (off : Nat) : Place :=
  if off < 0x60 then
    match Reg.ofIndex? (off / 8) with
    | some r => .reg r
    | none => .unmapped
  else if 0x100 ≤ off ∧ off < 0x100 + 13 then .sig (off - 0x100)
  else if 0x200 ≤ off ∧ off < 0x200 + 255 then .payload (off - 0x200)
  else if 0x3000 ≤ off ∧ off < 0x3000 + 280 then .out (off - 0x3000)
  else if 0x4000 ≤ off ∧ off < 0x4000 + 4 * p.idlCap then .idList ((off - 0x4000) / 4)
  else if 0x10000 ≤ off ∧ off < 0x10000 + p.inCap then .input (off - 0x10000)
  else .unmapped

/-- Bytes of an access of a width. -/
def Width.bytes : Width → Nat
  | .b8 => 1
  | .b16 => 2
  | .b32 => 4
  | .b64 => 8

/-- The one width in which a place is accessed (R32, R86); a reserved offset has none of its own. -/
def Place.width? : Place → Option Width
  | .reg _ => some .b64
  | .sig _ => some .b8
  | .payload _ => some .b8
  | .out _ => some .b8
  | .idList _ => some .b32
  | .input _ => some .b8
  | .unmapped => none

/-- An access R32 admits: naturally aligned (R86), and of its place's width. A reserved offset has no
width of its own and admits the three that R32 gives, 8, 32 and 64 bits (DESIGN CHOICE, log entry 6);
16 bits are "another width ... than rule R32 gives" (R49) everywhere. -/
def accessOk (p : Params) (w : Width) (off : Nat) : Bool :=
  off % w.bytes == 0 &&
    match (placeOf p off).width? with
    | some w' => w == w'
    | none => w != .b16

/-- `FRAME_CTL` (R41): VALID [0], VER [1], HASSIG [2], LEN [15:8]. -/
def Frame.ctlWord (f : Frame) : Word :=
  fieldsWord [(0, f.valid.toNat), (1, f.ver.bit.toNat), (2, f.hasSig.toNat), (8, f.len.toNat)]

/-- `FRAME_HDR` (R42): SEQ [7:0], SYSID [15:8], COMPID [23:16], INCOMPAT [31:24], COMPAT [39:32],
MSGID [63:40]. -/
def Frame.hdrWord (f : Frame) : Word :=
  fieldsWord
    [(0, f.seq.toNat), (8, f.sysId.toNat), (16, f.compId.toNat), (24, f.incompat.toNat),
      (32, f.compat.toNat), (40, f.msgId.toNat)]

/-- `CAT_STATE` (R37): INIT [0], the number of ids mapped in CAT [56:32]. -/
def State.catStateWord (s : State) : Word :=
  fieldsWord [(0, s.init.toNat), (32, s.cat.length % 2 ^ 25)]

/-- What the host reads from a 64-bit register (R33 to R46): "a host read returns 0" from CMD. -/
def State.readReg (s : State) : Reg → Word
  | .cmd => 0
  | .data => s.data
  | .status => s.status.word
  | .result => s.result
  | .crc => s.crc.setWidth 64
  | .consumed => s.consumed.setWidth 64
  | .examined => s.examined.setWidth 64
  | .frameCtl => s.frame.ctlWord
  | .frameHdr => s.frame.hdrWord
  | .frameCksum => s.frame.cksum.setWidth 64
  | .outLen => s.outLen.setWidth 64
  | .catState => s.catStateWord

/-- What the host reads from a place (R32, R44, R46, R47); an offset no row of R32 names reads 0 (R49). -/
def State.readPlace (s : State) : Place → Word
  | .reg r => s.readReg r
  | .sig i => (byteAt s.frame.sig i).setWidth 64
  | .payload i => (byteAt s.frame.payload i).setWidth 64
  | .out i => (byteAt s.out i).setWidth 64
  | .idList j => (s.readId j).setWidth 64
  | .input i => (s.readIn i).setWidth 64
  | .unmapped => 0

/-- The host's view of the register space (R49): the value read at an offset in a width, or none where
R32 does not admit the access. -/
def State.hostRead? (s : State) (w : Width) (off : Offset) : Option Word :=
  if accessOk s.params w off.toNat then some (s.readPlace (placeOf s.params off.toNat)) else none

/-- What a host write leaves (R34, R47, R49): DATA, IDLIST and IN store the value; a write to a register
whose access is R, or to an offset no row names, "is ignored and changes no state". A write to CMD is
no store: `fetch` takes it. -/
def State.writePlace (s : State) (v : Word) : Place → State
  | .reg .data => { s with data := v }
  | .idList j => s.writeId j (v.setWidth 24)
  | .input i => s.writeIn i (v.setWidth 8)
  | .reg _ => s
  | .sig _ => s
  | .payload _ => s
  | .out _ => s
  | .unmapped => s

/-- What the next access at the port is. -/
inductive Fetched where
  /-- The host issues nothing: "There is exactly one step per command write and no step otherwise"
  (R31). -/
  | idle
  /-- A 64-bit write to CMD: the command word, and the state with the access taken. -/
  | command (w : Word) (s : State)
  /-- Any other access R32 admits, and the state it leaves. -/
  | served (s : State)
  /-- An access R32 does not admit. -/
  | refused

/-- Serve one host access. -/
def serve (a : HostAccess) (s : State) : Fetched :=
  match a with
  | .write w off v =>
    if accessOk s.params w off.toNat then
      match placeOf s.params off.toNat with
      | .reg .cmd => .command v s
      | place => .served (s.writePlace v place)
    else .refused
  | .read w off =>
    match s.hostRead? w off with
    | some v => .served { s with readData := v }
    | none => .refused
  | .stageSchemas table => .served { s with sch := table }
  | .reset => .served (platformReset s)

/-- Take the next access off the port and serve it, "in the order in which the host issues accesses"
(R89). -/
def fetch (s : State) : Fetched :=
  match s.port with
  | [] => .idle
  | a :: rest => serve a { s with port := rest }

end Sys2Proof.Machine
end

