-- ==== Sys2Proof/Machine/Step.lean ====
section
/-! DEFINITION. One step of the machine: the next host access is taken off the port and served; a word
written to `CMD` is decoded and executed (`10_state.md` rule R31). -/

namespace Sys2Proof.Machine

/-- One step. With nothing at the port the machine waits unchanged (log entry 3). An illegal command
word "executes as: `STATUS <- (OK = 0, ERR = IllegalCommand)` and nothing else changes" (R103). -/
def step (s : State) : Host.Outcome State Fault Refusal :=
  match fetch s with
  | .idle => .next s
  | .served t => .next t
  | .refused => .refused .hostAccessForm
  | .command w t =>
    match decode w with
    | .ok i => exec i t
    | .error _ => raise .illegalCommand t

/-- `s` with the host about to write the word `w` (its low `nbits` bits) to `CMD`, before everything
else it does: the very next step takes that write and runs the command. -/
def State.withFetchWord (s : State) (nbits w : Nat) : State :=
  { s with port := .write .b64 0 (BitVec.ofNat 64 (w % 2 ^ nbits)) :: s.port }

end Sys2Proof.Machine
end

