-- ==== Sys2Proof/Machine/HostSide.lean ====
section
/-! DEFINITION. What the host does before it drives the block: the two reference functions of
`41_schema.md` section 2 (R173, R165, R166), which "the block never runs", and the pseudo-instructions
and host lines of `30_encoding.md` rules R105 and R106 as sequences of host accesses. -/

namespace Sys2Proof.Machine

/-! ### Type strings -/

/-- The primitives and their kinds (R173, R117). -/
def primitives : List (List Char × Kind) :=
  [("char".toList, .char), ("int8_t".toList, .i8), ("uint8_t".toList, .u8), ("int16_t".toList, .i16),
    ("uint16_t".toList, .u16), ("int32_t".toList, .i32), ("uint32_t".toList, .u32),
    ("int64_t".toList, .i64), ("uint64_t".toList, .u64), ("float".toList, .f32),
    ("double".toList, .f64)]

/-- The rest of a text after a prefix, if it starts with it. -/
def afterPrefix? : (pre text : List Char) → Option (List Char)
  | [], text => some text
  | _ :: _, [] => none
  | p :: pre, c :: text => if p = c then afterPrefix? pre text else none

/-- The value of a decimal digit. -/
def digit? (c : Char) : Option Nat :=
  if '0'.toNat ≤ c.toNat ∧ c.toNat ≤ '9'.toNat then some (c.toNat - '0'.toNat) else none

/-- The value of a text of decimal digits, `acc` being the value of the digits before. -/
def digits? : (acc : Nat) → List Char → Option Nat
  | acc, [] => some acc
  | acc, c :: cs =>
    match digit? c with
    | some d => digits? (10 * acc + d) cs
    | none => none

/-- "N a positive decimal integer" (R173), leading zeros allowed (log entry 8). -/
def positiveDecimal? (cs : List Char) : Option Nat :=
  match digits? 0 cs with
  | some 0 => none
  | some n => some n
  | none => none

/-- What may follow the primitive in a type string, and the arrayLength it gives (R173): nothing,
`[N]`, or the literal suffix `_mavlink_version`. -/
def arrayLengthOf? (rest : List Char) : Option Nat :=
  if rest = [] then some 0
  else if rest = "_mavlink_version".toList then some 0
  else
    match rest with
    | '[' :: body =>
      match body.reverse with
      | ']' :: ds => positiveDecimal? ds.reverse
      | _ => none
    | _ => none

/-- The primitive a type string starts with: its name, its kind, and what follows it. -/
def primitivePart? (text : List Char) : Option (List Char × Kind × List Char) :=
  primitives.findSome? (fun p => (afterPrefix? p.1 text).map (fun rest => (p.1, p.2, rest)))

/-- Type-string resolution (R173): the kind and the arrayLength; "anything else `Fails with BadType`". -/
def resolveType (text : String) : Except Err (Kind × Nat) :=
  match primitivePart? text.toList with
  | none => .error .badType
  | some (_, k, rest) =>
    match arrayLengthOf? rest with
    | some n => .ok (k, n)
    | none => .error .badType

/-- The curated type of a field (R165): "the primitive portion of the declared type string with any
trailing `[N]` stripped, and with the literal suffix `_mavlink_version` ... removed". -/
def curatedType (text : String) : List Char :=
  match primitivePart? text.toList with
  | some (name, _, _) => name
  | none => []

/-! ### CRC_EXTRA -/

/-- A field as a dialect declares it. -/
structure HostField where
  typeText : String
  name : String
  extended : Bool
  deriving DecidableEq, Repr

/-- The ASCII bytes of a text. R166 speaks of ASCII texts only; of any other character the model takes
the low byte of its code (DESIGN CHOICE, log entry 18). -/
def asciiBytes (cs : List Char) : List Byte := cs.map (fun c => BitVec.ofNat 8 c.toNat)

/-- "A single raw byte whose value is arrayLength" (R166). Above 255, where no byte has that value, a free
value (DESIGN CHOICE, log entry 18). -/
def arrayLengthByte (n : Nat) : Byte := if n < 256 then BitVec.ofNat 8 n else Config.wideLengthByte n

/-- What one base field adds to the string of R166: curated type, space, name, space, and the raw byte
of its arrayLength where that is not 0. Of a type string that does not resolve, with which a
message is never staged (R173), the model adds the primitive it starts with, if any, and no length byte
(DESIGN CHOICE, log entry 18). -/
def crcExtraField (f : HostField) : List Byte :=
  asciiBytes (curatedType f.typeText) ++ [0x20#8] ++ asciiBytes f.name.toList ++ [0x20#8] ++
    match resolveType f.typeText with
    | .ok (_, 0) => []
    | .ok (_, n) => [arrayLengthByte n]
    | .error _ => []

/-- The element size of a declared field; 0 where its type does not resolve (log entry 18). -/
def HostField.size (f : HostField) : Nat :=
  match resolveType f.typeText with
  | .ok (k, _) => k.size
  | .error _ => 0

/-- CRC_EXTRA of a message (R166), over its base fields in the order of R162. -/
def hostCrcExtra (name : String) (fields : List HostField) : Byte :=
  let base := (fields.filter (fun f => !f.extended)).insertionSort (fun a b => b.size ≤ a.size)
  let c := crcOf (asciiBytes name.toList ++ [0x20#8] ++ base.flatMap crcExtraField)
  c.setWidth 8 ^^^ (c >>> 8).setWidth 8

/-- The staged form of one declared field (R118); none where its type does not resolve or its N does
not fit the 8 bits of `arrayLength`. -/
def stageField? (f : HostField) : Option SchemaField :=
  match resolveType f.typeText with
  | .error _ => none
  | .ok (k, n) =>
    if n < 256 then
      some { kind := k.code, arrayLength := BitVec.ofNat 8 n, extended := f.extended }
    else none

/-- The staged forms of a message's fields, in declaration order. -/
def stageFields? : List HostField → Option (List SchemaField)
  | [] => some []
  | f :: fs =>
    match stageField? f, stageFields? fs with
    | some d, some ds => some (d :: ds)
    | _, _ => none

/-- The schema table entry the host writes for a message (R118, R332 step 1). -/
def stageMessage? (id : MsgId) (name : String) (fields : List HostField) : Option SchemaEntry :=
  (stageFields? fields).map (fun ds => { id := id, crcExtra := hostCrcExtra name fields, fields := ds })

/-! ### Host lines and pseudo-instructions -/

/-- The host access that a command line is (R105): a write of the command's word to CMD. -/
def commandLine (i : Instr) : HostAccess := .write .b64 0 (encode i)

/-- `host DATA <- v` (R105). -/
def hostData (v : Word) : HostAccess := .write .b64 8 v

/-- `host IN[a..] <- b0 b1 ...` (R105). -/
def hostIn : (a : Nat) → List Byte → List HostAccess
  | _, [] => []
  | a, b :: bs => .write .b8 (BitVec.ofNat 17 (0x10000 + a)) (b.setWidth 64) :: hostIn (a + 1) bs

/-- `host IDLIST[j] <- id0; host IDLIST[j+1] <- id1; ...` (R105). -/
def hostIds : (j : Nat) → List MsgId → List HostAccess
  | _, [] => []
  | j, x :: xs => .write .b32 (BitVec.ofNat 17 (0x4000 + 4 * j)) (x.setWidth 64) :: hostIds (j + 1) xs

/-- `CRC_BYTES b0, ..., bk` (R106). -/
def pseudoCrcBytes (bs : List Byte) : List HostAccess :=
  commandLine .crcSeed :: bs.map (fun b => commandLine (.crcAcc b))

/-- `FIELD_SET k, e, v` (R106). -/
def pseudoFieldSet (k e : Byte) (v : Word) : List HostAccess :=
  [hostData v, commandLine (.fieldWrite k e)]

/-- `INCLUDE_ALL` (R106). -/
def pseudoIncludeAll : List HostAccess := [commandLine (.catInclude 0)]

/-- `IDS id0, ..., idm-1` (R106). -/
def pseudoIds (ids : List MsgId) : List HostAccess := hostIds 0 ids

end Sys2Proof.Machine
end

