-- ==== Sys2Proof/Safety.lean ====
section
/-! DEFINITION. The terms claims are stated in: the status words of `60_exceptions.md` rule R301 by
number, one command word run from any state, the illegal words of R103 read straight off the opcode
map, what a catalog entry and the state as a whole look like in every run (`Inv`), and which commands
may raise which code. -/

namespace Sys2Proof.Machine

/-! ### Outcomes -/

/-- `STATUS` after a success: OK = 1, ERR = 0 (R302). -/
def okStatus : Status := { ok := true, err := 0 }

/-- `STATUS` after an error of a given code: OK = 0, ERR = code (R302, R301). -/
def errStatus (code : Byte) : Status := { ok := false, err := code }

/-- `s` with nothing but `STATUS` changed, to an error code: what a failing command leaves (R300). -/
def failed (code : Byte) (s : State) : Out := .next { s with status := errStatus code }

/-- The host writes the word `w` to CMD: the step that this command is (R31). -/
def runWord (w : Word) (s : State) : Out := step (s.withFetchWord 64 w.toNat)

/-- How words with opcode `op` run in state `s`, where the format uses the bits below `used`: with every
reserved bit 0 the word runs the command its operand bits name, with a reserved bit 1 it is illegal
(R100, R101, R103 (b)). -/
def WordRuns (op used : Nat) (command : Word → Instr) (s : State) : Prop :=
  ∀ w : Word, w.toNat % 256 = op →
    (w.toNat < 2 ^ used → runWord w s = exec (command w) s) ∧
      (2 ^ used ≤ w.toNat → runWord w s = failed 17 s)

/-- Commands one after another, from one next state to the next. -/
def execAll : List Instr → State → Out
  | [], s => .next s
  | i :: is, s =>
    match exec i s with
    | .next t => execAll is t
    | .fault r => .fault r
    | .refused r => .refused r

/-! ### Illegal words, off the opcode map -/

/-- What a count operand counts (R103 (c)). -/
inductive Counts where
  | nothing
  | inputBytes
  | idEntries
  deriving DecidableEq, Repr

/-- The rows of R102 as R103 needs them: opcode byte, first reserved bit of the format (R101), and
what the row's count operand counts. -/
def commandRows : List (Byte × Nat × Counts) :=
  [(0x01#8, 8, .nothing), (0x02#8, 24, .nothing), (0x03#8, 16, .nothing), (0x04#8, 24, .inputBytes),
    (0x10#8, 24, .idEntries), (0x11#8, 24, .idEntries), (0x12#8, 24, .idEntries),
    (0x13#8, 32, .nothing), (0x14#8, 40, .nothing), (0x20#8, 24, .inputBytes),
    (0x21#8, 24, .inputBytes), (0x30#8, 24, .nothing), (0x31#8, 24, .nothing), (0x40#8, 33, .nothing),
    (0x41#8, 48, .nothing), (0x42#8, 8, .nothing)]

/-- The capacity a row's count is held against, if it has a count. -/
def Counts.cap? (p : Params) : Counts → Option Nat
  | .nothing => none
  | .inputBytes => some p.inCap
  | .idEntries => some p.idlCap

/-- A word is legal for a row: its opcode is the row's, every reserved bit is 0, and its count (bits
[23:8]) is within the capacity. -/
def LegalFor (p : Params) (w : Word) (row : Byte × Nat × Counts) : Prop :=
  w.toNat % 256 = row.1.toNat ∧ (∀ j, row.2.1 ≤ j → w.getLsbD j = false) ∧
    ∀ cap, row.2.2.cap? p = some cap → w.toNat / 256 % 65536 ≤ cap

/-- R103: a word is illegal when it is legal for no row of the opcode map. -/
def IllegalWord (p : Params) (w : Word) : Prop := ∀ row ∈ commandRows, ¬ LegalFor p w row

/-! ### The error codes of R301 -/

/-- The codes a command can raise, from the column "raised by" of R301; 17 (IllegalCommand) only where
its count can exceed a capacity, since every other illegal word is no command. -/
def codesOf : Instr → List Byte
  | .crcSeed => []
  | .crcLoad _ => []
  | .crcAcc _ => []
  | .crcCalc _ => [17]
  | .catInit _ => [17, 4, 20, 5, 15]
  | .catInclude _ => [17, 1, 15]
  | .catExclude _ => [17, 1, 15]
  | .catLookup _ => [1, 15]
  | .catField _ _ => [1, 15, 18]
  | .parse _ => [17, 1, 6, 7, 9, 10, 11, 13, 14]
  | .parseStream _ => [17, 1, 6, 9, 10, 11, 13, 16]
  | .fieldRead _ _ => [1, 21, 18]
  | .fieldWrite _ _ => [1, 21, 18]
  | .frameNew _ _ => [1, 9, 19]
  | .setHeader _ _ _ _ _ => [1, 21]
  | .serialize => [1, 21]

/-- The codes some command or illegal word can leave in `STATUS.ERR` (R301, R305): 0 to 21 but 2, 3, 8
and 12. -/
def raisedCodes : List Byte := [0, 1, 4, 5, 6, 7, 9, 10, 11, 13, 14, 15, 16, 17, 18, 19, 20, 21]

/-! ### Families of commands -/

/-- The CRC family (R102). -/
def isCrc : Instr → Bool
  | .crcSeed => true
  | .crcLoad _ => true
  | .crcAcc _ => true
  | .crcCalc _ => true
  | .catInit _ => false
  | .catInclude _ => false
  | .catExclude _ => false
  | .catLookup _ => false
  | .catField _ _ => false
  | .parse _ => false
  | .parseStream _ => false
  | .fieldRead _ _ => false
  | .fieldWrite _ _ => false
  | .frameNew _ _ => false
  | .setHeader _ _ _ _ _ => false
  | .serialize => false

/-- The two scanner commands (R102). -/
def isParse : Instr → Bool
  | .parse _ => true
  | .parseStream _ => true
  | .crcSeed => false
  | .crcLoad _ => false
  | .crcAcc _ => false
  | .crcCalc _ => false
  | .catInit _ => false
  | .catInclude _ => false
  | .catExclude _ => false
  | .catLookup _ => false
  | .catField _ _ => false
  | .fieldRead _ _ => false
  | .fieldWrite _ _ => false
  | .frameNew _ _ => false
  | .setHeader _ _ _ _ _ => false
  | .serialize => false

/-- The commands that write the frame registers: "PARSE, PARSE_STREAM, FRAME_NEW, SET_HEADER,
FIELD_WRITE, SERIALIZE and CAT_INIT as their rules say, and ... nothing else" (R40). -/
def writesFrame : Instr → Bool
  | .parse _ => true
  | .parseStream _ => true
  | .frameNew _ _ => true
  | .setHeader _ _ _ _ _ => true
  | .fieldWrite _ _ => true
  | .serialize => true
  | .catInit _ => true
  | .crcSeed => false
  | .crcLoad _ => false
  | .crcAcc _ => false
  | .crcCalc _ => false
  | .catInclude _ => false
  | .catExclude _ => false
  | .catLookup _ => false
  | .catField _ _ => false
  | .fieldRead _ _ => false

/-- The commands whose rule writes RESULT on success (R39). -/
def writesResult : Instr → Bool
  | .crcSeed => true
  | .crcLoad _ => true
  | .crcAcc _ => true
  | .crcCalc _ => true
  | .catLookup _ => true
  | .catField _ _ => true
  | .parse _ => true
  | .parseStream _ => true
  | .fieldRead _ _ => true
  | .serialize => true
  | .catInit _ => false
  | .catInclude _ => false
  | .catExclude _ => false
  | .fieldWrite _ _ => false
  | .frameNew _ _ => false
  | .setHeader _ _ _ _ _ => false

/-! ### Layout claims -/

/-- The byte length of one declared field of the schema table: `size(kind) × max(1, arrayLength)`
(R160, R161); 0 where the kind code names no kind. -/
def SchemaField.bytes (d : SchemaField) : Nat :=
  match Kind.ofCode? d.kind with
  | some k => k.size * max 1 d.arrayLength.toNat
  | none => 0

/-- The order of two base fields in `orderedFields` (R162): larger elements first, equal sizes in
declaration order. -/
def BaseBefore (a b : Field) : Prop :=
  b.size < a.size ∨ (a.size = b.size ∧ a.declIndex.toNat < b.declIndex.toNat)

/-- A laid-out entry (R161 to R164, R174): each field as long as its elements, base fields before
extended ones and each part in its order, offsets the prefix sums of lengths, `base` and `max` the
sums, and max ≤ 255. -/
structure Entry.LaidOut (e : Entry) : Prop where
  lengths : ∀ f ∈ e.fields, f.length = f.size * f.elements
  split : ∃ bs xs, e.fields = bs ++ xs ∧ (∀ f ∈ bs, f.extended = false) ∧
    (∀ f ∈ xs, f.extended = true) ∧ bs.Pairwise BaseBefore ∧
    xs.Pairwise (fun a b => a.declIndex.toNat < b.declIndex.toNat)
  offsets : ∀ (k : Nat) (f : Field), e.fields[k]? = some f →
    f.offset = totalLength (e.fields.take k)
  base : e.base.toNat = baseLength e.fields
  max : e.max.toNat = totalLength e.fields

/-! ### Candidates -/

/-- Header length by version (R113). -/
def headerBytesOf : Version → Nat
  | .v1 => 6
  | .v2 => 10

/-- The message id in a candidate's header: byte 5 in v1 (R111), bytes 7 to 9 little-endian in v2
(R112). -/
def candidateId (ver : Version) (b : List Byte) : Nat :=
  match ver with
  | .v1 => (b.getD 5 0).toNat
  | .v2 => (b.getD 7 0).toNat + 256 * (b.getD 8 0).toNat + 65536 * (b.getD 9 0).toNat

/-- Whether a candidate is a signed frame: v2 with incompat bit 0 = 1 (R115). -/
def candidateSigned (ver : Version) (b : List Byte) : Bool :=
  match ver with
  | .v1 => false
  | .v2 => (b.getD 2 0).toNat % 2 == 1

/-- The bytes up to and with the checksum that a candidate announces: `H + len + 2` (R116). -/
def candidateBytes (ver : Version) (b : List Byte) : Nat := headerBytesOf ver + (b.getD 1 0).toNat + 2

/-- The checksum on the wire: the two bytes after the payload, little-endian (R227). -/
def wireChecksum (ver : Version) (b : List Byte) : Nat :=
  (b.getD (candidateBytes ver b - 2) 0).toNat + 256 * (b.getD (candidateBytes ver b - 1) 0).toNat

/-- The checksum computed over the candidate's header without STX and its payload (R114, R228). -/
def computedChecksum (crcExtra : Byte) (ver : Version) (b : List Byte) : Nat :=
  (acc crcExtra (crcOf ((b.drop 1).take (candidateBytes ver b - 3)))).toNat

/-- `buf[i]` is a marker of version `ver` (R220). -/
def MarkerAt (buf : List Byte) (i : Nat) (ver : Version) : Prop :=
  (ver = .v1 ∧ buf[i]? = some 0xFE#8) ∨ (ver = .v2 ∧ buf[i]? = some 0xFD#8)

/-- The loop of R230 and R232 over `buf`, `IN[0..n)`: from `pos` on, with `last` the reason of the last
candidate tried, the scan goes to the next marker and tries it; a frame and a NeedMore end it, a failure
goes on one byte after the marker, and where no marker is left the reason is `last`'s, or
StartMarkerNotFound (R231). -/
def ScanLoop (cat : Cells Entry) (mode : Mode) (buf : List Byte) : Prop :=
  ∀ (pos : Nat) (last : Option Err),
    scan cat mode pos (buf.drop pos) last =
      match nextMarker buf pos with
      | none => .exhausted (last.getD .startMarkerNotFound)
      | some i =>
        match tryCandidate cat mode (if buf.getD i 0 = 0xFE#8 then .v1 else .v2) (buf.drop i) with
        | .ok f size => .found f i (i + size)
        | .needMore => .needMore i
        | .fail r => scan cat mode (i + 1) (buf.drop (i + 1)) (some r)

/-- Every marker of `buf` below index `j` is a candidate that fails validation. -/
def AllFailBelow (cat : Cells Entry) (mode : Mode) (buf : List Byte) (j : Nat) : Prop :=
  ∀ i < j, ∀ ver, MarkerAt buf i ver → ∃ r, tryCandidate cat mode ver (buf.drop i) = .fail r

/-! ### Reserved offsets -/

/-- An offset no row of R32 names. -/
def ReservedOffset (p : Params) (off : Nat) : Prop :=
  0x60 ≤ off ∧ ¬ (0x100 ≤ off ∧ off ≤ 0x10C) ∧ ¬ (0x200 ≤ off ∧ off ≤ 0x2FE) ∧
    ¬ (0x3000 ≤ off ∧ off ≤ 0x3117) ∧ ¬ (0x4000 ≤ off ∧ off < 0x4000 + 4 * p.idlCap) ∧
    ¬ (0x10000 ≤ off ∧ off < 0x10000 + p.inCap)

/-! ### The invariant -/

/-- A frame held with VALID = 1 against its entry (R40, R225, R226, R234, R260, R261): LEN within the
version's limit, a v1 frame with no flags, no signature and an id of one byte, no signature bytes
without HASSIG, and nothing in PAYLOAD at or beyond `max`. -/
structure Frame.Fits (f : Frame) (e : Entry) : Prop where
  len : f.len.toNat ≤ (e.limit f.ver).toNat
  v1 : f.ver = .v1 →
    f.incompat = 0 ∧ f.compat = 0 ∧ f.hasSig = false ∧ f.msgId.toNat ≤ 255
  sig : f.hasSig = false → f.sig = Vector.replicate 13 0
  payload : ∀ i, e.max.toNat ≤ i → byteAt f.payload i = 0

/-- What every state of every run looks like. -/
structure Inv (s : State) : Prop where
  /-- The parameters are legal (R5). -/
  params : s.params.legal = true
  /-- IN and IDLIST are in their canonical form, inside their capacities (R47). -/
  inMem : Memory.wf s.params.inCap s.inMem = true
  idList : Memory.wf s.params.idlCap s.idList = true
  /-- CAT is a finite partial map from 24-bit ids, of at most MAX_MESSAGES ids (R36). -/
  cat : Memory.wf 16777216 s.cat = true
  catSize : s.cat.length ≤ s.params.maxMessages
  /-- Before initialization the catalog is empty (R37, R52). -/
  catEmpty : s.init = false → s.cat = []
  /-- Every entry is laid out (R174). -/
  entries : ∀ c ∈ s.cat, c.2.LaidOut
  /-- Id 0, where mapped, is included (R167). -/
  heartbeat : ∀ e, Cells.read? s.cat 0 = some e → e.included = true
  /-- No frame held: every frame register is 0 (R52, R235). -/
  noFrame : s.frame.valid = false → s.frame = Frame.zero
  /-- A frame held: MSGID names an entry, which it fits (R40). -/
  frame : s.frame.valid = true →
    s.init = true ∧ ∃ e, s.catEntry s.frame.msgId = some e ∧ s.frame.Fits e
  /-- OUT is zero from OUT_LEN on, and OUT_LEN is at most 267 (R46). -/
  out : ∀ i, s.outLen.toNat ≤ i → byteAt s.out i = 0
  outLen : s.outLen.toNat ≤ 267
  /-- CONSUMED and EXAMINED are offsets into IN (R45). -/
  stream : s.consumed.toNat ≤ s.examined.toNat ∧ s.examined.toNat ≤ s.params.inCap
  /-- STATUS holds a code of R301 that can be raised, and OK = 1 only with code 0 (R35, R305). -/
  status : s.status.err ∈ raisedCodes ∧ (s.status.ok = true → s.status.err = 0)

/-- A safe step: it does not fault. (A refusal is a host access R32 does not admit.) -/
def SafeStep (s : State) : Prop := ∀ r, step s ≠ .fault r

end Sys2Proof.Machine
end

