-- ==== Sys2Proof/Certificates/Slice0/Obligations.lean ====
section
/-! DEFINITION. The statements for the provers. Each docstring names the rule of the spec it formalises,
or says that it is derived. `exec` is the command's own step; `runWord` is the step of a 64-bit word the
host writes to CMD (`Safety.lean`). -/

open Sys2Proof Sys2Proof.Machine

/-! ### Encoding (`30_encoding.md`) -/

/-- Derived from R100 to R102: decoding the encoding of any command, with every operand at every
value, gives the command back. -/
def Obligations.EncodeThenDecode : Prop :=
  ∀ i : Instr, decode (encode i) = .ok i

/-- Derived from R100 and R101: a word that decodes at all is the encoding of what it decodes to, so
no bit of it is ignored. -/
def Obligations.DecodedWordIsItsEncoding : Prop :=
  ∀ (w : Word) (i : Instr), decode w = .ok i → encode i = w

/-- Derived from R100 to R102: words of the spec's own test vectors (`95_test_vectors.md`) decode to
the commands they stand for. -/
def Obligations.KnownWordsDecode : Prop :=
  decode 0x0000000000003103#64 = .ok (.crcAcc 0x31) ∧
    decode 0x0000000401234514#64 = .ok (.catField 0x012345 4) ∧
    decode 0x0000000000001520#64 = .ok (.parse 21) ∧
    decode 0x0000000000010631#64 = .ok (.fieldWrite 6 1) ∧
    decode 0x00000101BEFF0541#64 = .ok (.setHeader 5 255 190 1 1) ∧
    decode 0x0000000100001E40#64 = .ok (.frameNew 30 .v2) ∧
    decode 0x0000000300001E40#64 = .error .reservedBit ∧
    decode 0x0000000000000043#64 = .error .unknownOpcode

/-- R103, R104: an illegal word, whatever the state, changes STATUS to IllegalCommand and nothing
else; a legal word runs the well-formed command it decodes to. -/
def Obligations.IllegalWordOnlySetsStatus : Prop :=
  ∀ (s : State) (w : Word),
    (IllegalWord s.params w → runWord w s = failed 17 s) ∧
      (¬ IllegalWord s.params w →
        ∃ i, decode w = .ok i ∧ i.wellFormed s.params = true ∧ runWord w s = exec i s ∧
          ∀ t, exec i s = .next t → t.status.err ≠ 17)

/-- Derived from R31 and R100 (the port is the model's own, log entry 3): the host's write of a word
to CMD is one step, which runs the command decoded from it; the write is gone from the port. -/
def Obligations.StepRunsDecodedCommand : Prop :=
  ∀ (s : State) (w : Word) (i : Instr) (rest : List HostAccess),
    s.port = .write .b64 0 w :: rest → decode w = .ok i → i.wellFormed s.params = true →
      step s = exec i { s with port := rest }

/-! ### CRC family (`40_crc.md`) -/

/-- R140: the update on unbounded naturals, with the operators of R9 and no truncation but "keep low 8
bits", is what `acc` computes; its result fits 16 bits. -/
def Obligations.CrcUpdateOnNaturals : Prop :=
  ∀ (b : Byte) (crc : Crc16),
    let ch0 := b.toNat ^^^ (crc.toNat &&& 0x00FF)
    let ch := (ch0 ^^^ (ch0 <<< 4)) &&& 0xFF
    (acc b crc).toNat = (crc.toNat >>> 8) ^^^ (ch <<< 8) ^^^ (ch <<< 3) ^^^ (ch >>> 4)

/-- R142: the table the spec prints holds `T[x] = acc(x, 0x0000)`, and the table form of the update
equals the update for every byte and every CRC value. -/
def Obligations.CrcTableFormAgrees : Prop :=
  crcTable.length = 256 ∧
    (∀ x : Nat, x < 256 → crcTable[x]? = some (acc (BitVec.ofNat 8 x) 0)) ∧
    ∀ (b : Byte) (crc : Crc16), accByTable b crc = acc b crc

/-- R148: the three known answers the source requires. -/
def Obligations.CrcKnownAnswers : Prop :=
  crcOf (asciiBytes "123456789".toList) = 0x6F91#16 ∧
    crcOf (asciiBytes "Hello, MAVLink!".toList) = 0xE07D#16 ∧ crcOf [] = 0xFFFF#16

/-- R143: CRC_SEED, from every state and for every word with its opcode. -/
def Obligations.CrcSeedSetsSeed : Prop :=
  ∀ s : State,
    exec .crcSeed s =
        .next { s with crc := 0xFFFF#16, result := 0xFFFF#64, status := okStatus } ∧
      WordRuns 0x01 8 (fun _ => .crcSeed) s

/-- R144: CRC_LOAD, from every state and for every word with its opcode. -/
def Obligations.CrcLoadSetsValue : Prop :=
  ∀ (s : State) (v : Crc16),
    exec (.crcLoad v) s =
        .next { s with crc := v, result := BitVec.ofNat 64 v.toNat, status := okStatus } ∧
      WordRuns 0x02 24 (fun w => .crcLoad (w.extractLsb' 8 16)) s

/-- R145: CRC_ACC, from every state and for every word with its opcode, with the corner cases the rule
lists. -/
def Obligations.CrcAccUpdates : Prop :=
  (∀ (s : State) (b : Byte),
    exec (.crcAcc b) s =
        .next { s with
          crc := acc b s.crc, result := BitVec.ofNat 64 (acc b s.crc).toNat, status := okStatus } ∧
      WordRuns 0x03 16 (fun w => .crcAcc (w.extractLsb' 8 8)) s) ∧
    acc 0x00 0x0000 = 0x0000#16 ∧ acc 0x00 0xFFFF = 0x0F87#16 ∧ acc 0xFF 0xFFFF = 0x00FF#16 ∧
    acc 0x31 0xFFFF = 0x2F8D#16

/-- R146: CRC_CALC seeds with 0xFFFF, not the old CRC, and folds the first n bytes of IN; a count
above IN_CAP, or a reserved bit, is IllegalCommand and changes nothing else. -/
def Obligations.CrcCalcFoldsInput : Prop :=
  ∀ (s : State) (n : Count),
    let c := ((List.range n.toNat).map s.readIn).foldl (fun crc b => acc b crc) 0xFFFF#16
    (n.toNat ≤ s.params.inCap →
      exec (.crcCalc n) s =
        .next { s with crc := c, result := BitVec.ofNat 64 c.toNat, status := okStatus }) ∧
      (s.params.inCap < n.toNat → exec (.crcCalc n) s = failed 17 s) ∧
      WordRuns 0x04 24 (fun w => .crcCalc (w.extractLsb' 8 16)) s

/-- The law R149, which the spec derives from R140, R141 and R143 to R146: CRC_SEED and one CRC_ACC
per byte of IN[0..k) leave the very state CRC_CALC k leaves; CRC_LOAD c and CRC_ACC over S leave
`fold(acc, c, S)`; and a fold may be split at any byte. -/
def Obligations.CrcPathsAgree : Prop :=
  (∀ (s : State) (k : Count), k.toNat ≤ s.params.inCap →
    execAll (.crcSeed :: (s.inPrefix k.toNat).map .crcAcc) s = exec (.crcCalc k) s) ∧
    (∀ (s : State) (c : Crc16) (bytes : List Byte),
      execAll (.crcLoad c :: bytes.map .crcAcc) s =
        .next { s with
          crc := accFold c bytes
          result := BitVec.ofNat 64 (accFold c bytes).toNat
          status := okStatus }) ∧
    ∀ (c : Crc16) (front back : List Byte),
      accFold c (front ++ back) = accFold (accFold c front) back

/-- R38: no command but the CRC family writes CRC, and none of them depends on it; the host reads it
zero-extended at 0x020; it resets to the seed. -/
def Obligations.CrcRegisterIsPrivate : Prop :=
  (∀ (i : Instr) (s t : State), isCrc i = false → exec i s = .next t →
    t.crc = s.crc ∧ ∀ c : Crc16, exec i { s with crc := c } = .next { t with crc := c }) ∧
    (∀ s : State, s.hostRead? .b64 0x020 = some (BitVec.ofNat 64 s.crc.toNat)) ∧
    State.reset.crc = 0xFFFF#16

/-! ### Catalog family (`41_schema.md`) -/

/-- R162: the base fields come first, a permutation of the declared base fields in descending element
size, those of equal size in declaration order; the extended fields follow in declaration order. -/
def Obligations.OrderedFieldsAreStablySorted : Prop :=
  ∀ declared : List Field,
    ∃ base : List Field,
      orderFields declared = base ++ declared.filter (fun f => f.extended) ∧
        base.Perm (declared.filter (fun f => !f.extended)) ∧
        base.Pairwise (fun a b => b.size ≤ a.size) ∧
        ∀ z : Nat,
          base.filter (fun f => f.size == z) =
            declared.filter (fun f => !f.extended && f.size == z)

/-- R163, with the law R174 that the spec derives from it: for every declared field list whose lengths
sum to at most 255, the laid-out entry has the lengths, order, offsets and sums of the rules; fields
end within `max`, base fields within `base`, extended fields begin at or after `base`, and no two
fields overlap. -/
def Obligations.LayoutLaws : Prop :=
  ∀ (crcExtra : Byte) (ds : List SchemaField) (fs : List Field),
    resolveFields 0 ds = some fs → (ds.map SchemaField.bytes).sum ≤ 255 →
      let e := layOut crcExtra fs
      e.LaidOut ∧ e.fields.length = ds.length ∧
        (e.fields.map (fun f => f.length)).sum = e.max.toNat ∧
        (∀ f ∈ e.fields, f.offset + f.length ≤ e.max.toNat ∧
          (f.extended = false → f.offset + f.length ≤ e.base.toNat) ∧
          (f.extended = true → e.base.toNat ≤ f.offset)) ∧
        e.fields.Pairwise (fun f g => f.offset + f.length ≤ g.offset)

/-- R168: CAT_INIT. Where no test fails, the catalog maps exactly the table's ids, each to its
laid-out entry with the filter bit `(m = 0) or (E.id ∈ L) or (E.id = 0)`, INIT is 1 and the frame
registers are cleared; otherwise the first failing test, in the rule's order, is the outcome and
nothing else changes. -/
def Obligations.CatInitCompilesTable : Prop :=
  ∀ (s : State) (m : Count),
    let ids := s.idPrefix m.toNat
    let badType := ∃ r ∈ s.sch, ∃ d ∈ r.fields, 10 < d.kind.toNat
    let invalid :=
      (∃ r ∈ s.sch, 255 < (r.fields.map SchemaField.bytes).sum) ∨
        s.params.maxMessages < s.sch.length
    let duplicate := ¬ (s.sch.map (fun r => r.id)).Nodup
    let unknown := ∃ x ∈ ids, ∀ r ∈ s.sch, r.id ≠ x
    (m.toNat ≤ s.params.idlCap → ¬ badType → ¬ invalid → ¬ duplicate → ¬ unknown →
      ∃ cat : Cells Entry,
        exec (.catInit m) s =
            .next { s with cat := cat, init := true, frame := Frame.zero, status := okStatus } ∧
          Cells.rising cat = true ∧
          (∀ k, (Cells.read? cat k).isSome = true ↔ ∃ r ∈ s.sch, r.id.toNat = k) ∧
          ∀ r ∈ s.sch, ∃ (e : Entry) (declared : List Field),
            Cells.read? cat r.id.toNat = some e ∧ e.crcExtra = r.crcExtra ∧
              (e.included = true ↔ m = 0 ∨ r.id ∈ ids ∨ r.id = 0) ∧
              resolveFields 0 r.fields = some declared ∧
              e.fields = assignOffsets 0 (orderFields declared) ∧
              e.base.toNat = baseLength e.fields ∧ e.max.toNat = totalLength e.fields) ∧
      (s.params.idlCap < m.toNat → exec (.catInit m) s = failed 17 s) ∧
      (m.toNat ≤ s.params.idlCap → badType → exec (.catInit m) s = failed 4 s) ∧
      (m.toNat ≤ s.params.idlCap → ¬ badType → invalid → exec (.catInit m) s = failed 20 s) ∧
      (m.toNat ≤ s.params.idlCap → ¬ badType → ¬ invalid → duplicate →
        exec (.catInit m) s = failed 5 s) ∧
      (m.toNat ≤ s.params.idlCap → ¬ badType → ¬ invalid → ¬ duplicate → unknown →
        exec (.catInit m) s = failed 15 s) ∧
      WordRuns 0x10 24 (fun w => .catInit (w.extractLsb' 8 16)) s

/-- R169: CAT_INCLUDE sets the filter bit of every id mapped to `(m = 0) or (x ∈ L) or (x = 0)` and
changes nothing else of the catalog; an unknown id fails the whole command with no bit changed. -/
def Obligations.CatIncludeSetsFilter : Prop :=
  ∀ (s : State) (m : Count),
    let ids := s.idPrefix m.toNat
    (m.toNat ≤ s.params.idlCap → s.init = true → (∀ x ∈ ids, (s.catEntry x).isSome = true) →
      ∃ cat : Cells Entry,
        exec (.catInclude m) s = .next { s with cat := cat, status := okStatus } ∧
          cat.map (fun c => c.1) = s.cat.map (fun c => c.1) ∧
          ∀ k, Cells.read? cat k =
            (Cells.read? s.cat k).map (fun e =>
              { e with included := decide (m = 0 ∨ (∃ x ∈ ids, x.toNat = k) ∨ k = 0) })) ∧
      (s.params.idlCap < m.toNat → exec (.catInclude m) s = failed 17 s) ∧
      (m.toNat ≤ s.params.idlCap → s.init = false → exec (.catInclude m) s = failed 1 s) ∧
      (m.toNat ≤ s.params.idlCap → s.init = true → (∃ x ∈ ids, s.catEntry x = none) →
        exec (.catInclude m) s = failed 15 s) ∧
      WordRuns 0x11 24 (fun w => .catInclude (w.extractLsb' 8 16)) s

/-- R170: CAT_EXCLUDE clears the filter bit of every id of the list but 0 and changes nothing else of
the catalog; an unknown id other than 0 fails the whole command with no bit changed. -/
def Obligations.CatExcludeClearsFilter : Prop :=
  ∀ (s : State) (m : Count),
    let ids := s.idPrefix m.toNat
    (m.toNat ≤ s.params.idlCap → s.init = true →
      (∀ x ∈ ids, x ≠ 0 → (s.catEntry x).isSome = true) →
      ∃ cat : Cells Entry,
        exec (.catExclude m) s = .next { s with cat := cat, status := okStatus } ∧
          cat.map (fun c => c.1) = s.cat.map (fun c => c.1) ∧
          ∀ k, Cells.read? cat k =
            (Cells.read? s.cat k).map (fun e =>
              { e with
                included := e.included && !decide (k ≠ 0 ∧ ∃ x ∈ ids, x.toNat = k) })) ∧
      (s.params.idlCap < m.toNat → exec (.catExclude m) s = failed 17 s) ∧
      (m.toNat ≤ s.params.idlCap → s.init = false → exec (.catExclude m) s = failed 1 s) ∧
      (m.toNat ≤ s.params.idlCap → s.init = true → (∃ x ∈ ids, x ≠ 0 ∧ s.catEntry x = none) →
        exec (.catExclude m) s = failed 15 s) ∧
      WordRuns 0x12 24 (fun w => .catExclude (w.extractLsb' 8 16)) s

/-- Derived from R170 and R224: after a successful CAT_EXCLUDE, every candidate with all its bytes
present whose id is one of the list's ids but 0 fails MessageExcluded. -/
def Obligations.ExcludedMessageIsRejected : Prop :=
  ∀ (s t : State) (m : Count) (x : MsgId) (mode : Mode) (ver : Version) (b : List Byte),
    exec (.catExclude m) s = .next t → t.status = okStatus → x ∈ s.idPrefix m.toNat → x ≠ 0 →
      candidateBytes ver b ≤ b.length → candidateId ver b = x.toNat →
        tryCandidate t.cat mode ver b = .fail .messageExcluded

/-- R171: CAT_LOOKUP, with the RESULT bit fields of the entry and 0 in every unnamed bit. -/
def Obligations.CatLookupReadsEntry : Prop :=
  ∀ (s : State) (id : MsgId),
    (∀ e : Entry, Inv s → s.init = true → s.catEntry id = some e →
      ∃ r : Word,
        exec (.catLookup id) s = .next { s with result := r, status := okStatus } ∧
          r.extractLsb' 0 8 = e.crcExtra ∧ r.extractLsb' 8 8 = e.base ∧
          r.extractLsb' 16 8 = e.max ∧ (r.extractLsb' 24 8).toNat = e.fields.length ∧
          r.getLsbD 32 = e.included ∧ r.toNat < 2 ^ 33) ∧
      (s.init = false → exec (.catLookup id) s = failed 1 s) ∧
      (s.init = true → s.catEntry id = none → exec (.catLookup id) s = failed 15 s) ∧
      WordRuns 0x13 32 (fun w => .catLookup (w.extractLsb' 8 24)) s

/-- R172: CAT_FIELD, with the RESULT bit fields of the k-th ordered field and 0 in every unnamed bit. -/
def Obligations.CatFieldReadsField : Prop :=
  ∀ (s : State) (id : MsgId) (k : Byte),
    (∀ (e : Entry) (f : Field), Inv s → s.init = true → s.catEntry id = some e →
      e.fields[k.toNat]? = some f →
      ∃ r : Word,
        exec (.catField id k) s = .next { s with result := r, status := okStatus } ∧
          r.extractLsb' 0 4 = f.kind.code ∧ r.extractLsb' 4 4 = 0#4 ∧
          r.extractLsb' 8 8 = f.arrayLength ∧ (r.extractLsb' 16 8).toNat = f.offset ∧
          (r.extractLsb' 24 8).toNat = f.length ∧ r.getLsbD 32 = f.extended ∧
          r.extractLsb' 33 7 = 0#7 ∧ r.extractLsb' 40 8 = f.declIndex ∧ r.toNat < 2 ^ 48) ∧
      (s.init = false → exec (.catField id k) s = failed 1 s) ∧
      (s.init = true → s.catEntry id = none → exec (.catField id k) s = failed 15 s) ∧
      (∀ e : Entry, s.init = true → s.catEntry id = some e → e.fields.length ≤ k.toNat →
        exec (.catField id k) s = failed 18 s) ∧
      WordRuns 0x14 40 (fun w => .catField (w.extractLsb' 8 24) (w.extractLsb' 32 8)) s

/-! ### Payload family (`42_payload.md`) -/

/-- R200: every element of every field of the entry of the frame held stays inside PAYLOAD. -/
def Obligations.ElementStaysInsidePayload : Prop :=
  ∀ (s : State) (en : Entry) (f : Field) (k e : Byte),
    Inv s → s.frame.valid = true → s.catEntry s.frame.msgId = some en →
      en.fields[k.toNat]? = some f → e.toNat < max 1 f.arrayLength.toNat →
        en.select k e = some f ∧
          f.offset + e.toNat * f.kind.size + f.kind.size ≤ f.offset + f.length ∧
          f.offset + f.length ≤ en.max.toNat ∧ en.max.toNat ≤ 255

/-- R205: FIELD_READ. RESULT is the little-endian value of the element's bytes, by sign for i8, i16
and i32 and by zero for every other kind; PAYLOAD and everything else is as before. -/
def Obligations.FieldReadWidensElement : Prop :=
  ∀ (s : State) (k e : Byte),
    (∀ (en : Entry) (f : Field), s.init = true → s.frame.valid = true →
      s.catEntry s.frame.msgId = some en → en.fields[k.toNat]? = some f →
      e.toNat < max 1 f.arrayLength.toNat →
      ∃ r : Word,
        exec (.fieldRead k e) s = .next { s with result := r, status := okStatus } ∧
          let v := memRead s.frame.payload (f.offset + e.toNat * f.kind.size) f.kind.size
          ((f.kind = .i8 ∨ f.kind = .i16 ∨ f.kind = .i32) →
            r.toInt = if 2 * v < 2 ^ (8 * f.kind.size) then (v : Int) else v - 2 ^ (8 * f.kind.size)) ∧
          (f.kind ≠ .i8 → f.kind ≠ .i16 → f.kind ≠ .i32 → r.toNat = v)) ∧
      (s.init = false → exec (.fieldRead k e) s = failed 1 s) ∧
      (s.init = true → s.frame.valid = false → exec (.fieldRead k e) s = failed 21 s) ∧
      (∀ en : Entry, s.init = true → s.frame.valid = true → s.catEntry s.frame.msgId = some en →
        (en.fields.length ≤ k.toNat ∨
          ∃ f, en.fields[k.toNat]? = some f ∧ max 1 f.arrayLength.toNat ≤ e.toNat) →
        exec (.fieldRead k e) s = failed 18 s) ∧
      WordRuns 0x30 24 (fun w => .fieldRead (w.extractLsb' 8 8) (w.extractLsb' 16 8)) s

/-- R206: FIELD_WRITE stores the low bytes of DATA at the element's address, least significant first;
every other byte of PAYLOAD, and everything else, is as before. -/
def Obligations.FieldWriteStoresElement : Prop :=
  ∀ (s : State) (k e : Byte),
    (∀ (en : Entry) (f : Field), Inv s → s.init = true → s.frame.valid = true →
      s.catEntry s.frame.msgId = some en → en.fields[k.toNat]? = some f →
      e.toNat < max 1 f.arrayLength.toNat →
      ∃ p : Vector Byte 255,
        exec (.fieldWrite k e) s =
            .next { s with frame := { s.frame with payload := p }, status := okStatus } ∧
          let a := f.offset + e.toNat * f.kind.size
          ∀ i : Nat,
            byteAt p i =
              if a ≤ i ∧ i < a + f.kind.size then s.data.extractLsb' (8 * (i - a)) 8
              else byteAt s.frame.payload i) ∧
      (s.init = false → exec (.fieldWrite k e) s = failed 1 s) ∧
      (s.init = true → s.frame.valid = false → exec (.fieldWrite k e) s = failed 21 s) ∧
      (∀ en : Entry, s.init = true → s.frame.valid = true → s.catEntry s.frame.msgId = some en →
        (en.fields.length ≤ k.toNat ∨
          ∃ f, en.fields[k.toNat]? = some f ∧ max 1 f.arrayLength.toNat ≤ e.toNat) →
        exec (.fieldWrite k e) s = failed 18 s) ∧
      WordRuns 0x31 24 (fun w => .fieldWrite (w.extractLsb' 8 8) (w.extractLsb' 16 8)) s

/-- The law R207, which the spec derives from R201, R205, R174, R225 and R226: the whole value of a
field is the sequence of its FIELD_READ results with the widening undone by `trunc`; after a v1 frame
is parsed, every extended field's value is all zeros. -/
def Obligations.FieldValueIsReadElementwise : Prop :=
  (∀ (s : State) (en : Entry) (f : Field) (k : Byte),
    s.init = true → s.frame.valid = true → s.catEntry s.frame.msgId = some en →
      en.fields[k.toNat]? = some f →
        ∃ xs : List Nat,
          s.fieldValue? k =
              some { kind := f.kind, arrayLength := f.arrayLength, elements := xs } ∧
            xs.length = max 1 f.arrayLength.toNat ∧
            ∀ e : Byte, e.toNat < max 1 f.arrayLength.toNat →
              ∃ r : Word,
                exec (.fieldRead k e) s = .next { s with result := r, status := okStatus } ∧
                  xs[e.toNat]? = some (r.toNat % 2 ^ (8 * f.kind.size))) ∧
    ∀ (s t : State) (n : Count) (i : Instr) (en : Entry) (f : Field) (k : Byte),
      Inv s → (i = .parse n ∨ i = .parseStream n) → exec i s = .next t → t.status = okStatus →
        t.frame.ver = .v1 → t.catEntry t.frame.msgId = some en → en.fields[k.toNat]? = some f →
          f.extended = true →
            ∃ v : FieldValue, t.fieldValue? k = some v ∧ ∀ x ∈ v.elements, x = 0

/-- The law R208, which the spec derives from R201 and R226: after a successful parse, every element
whose bytes all lie at indices ≥ LEN reads 0. -/
def Obligations.TruncatedElementReadsZero : Prop :=
  ∀ (s t : State) (n : Count) (i : Instr) (en : Entry) (f : Field) (k e : Byte),
    (i = .parse n ∨ i = .parseStream n) → exec i s = .next t → t.status = okStatus →
      t.catEntry t.frame.msgId = some en → en.fields[k.toNat]? = some f →
        e.toNat < max 1 f.arrayLength.toNat →
          t.frame.len.toNat ≤ f.offset + e.toNat * f.kind.size →
            exec (.fieldRead k e) t = .next { t with result := 0, status := okStatus }

/-- The law R209, which the spec derives from R200 to R202, R205 and R163: what FIELD_WRITE stores,
FIELD_READ of the same element returns, widened from DATA's low bytes; a FIELD_READ of any other
element gives what it gave before; and writes to different elements commute. -/
def Obligations.WriteThenReadElement : Prop :=
  ∀ (s : State) (en : Entry) (f g : Field) (k e k' e' : Byte) (d d' : Word),
    Inv s → s.frame.valid = true → s.catEntry s.frame.msgId = some en →
      en.select k e = some f → en.select k' e' = some g →
        ∃ t : State,
          exec (.fieldWrite k e) { s with data := d } = .next t ∧
            exec (.fieldRead k e) t =
              .next { t with result := widen f.kind (d.toNat % 2 ^ (8 * f.kind.size)) } ∧
            ((k, e) ≠ (k', e') →
              (∀ r, exec (.fieldRead k' e') s = .next { s with result := r, status := okStatus } →
                exec (.fieldRead k' e') t = .next { t with result := r }) ∧
                ∃ t' u u' : State,
                  exec (.fieldWrite k' e') { s with data := d' } = .next t' ∧
                    exec (.fieldWrite k' e') { t with data := d' } = .next u ∧
                    exec (.fieldWrite k e) { t' with data := d } = .next u' ∧ u.frame = u'.frame)

/-! ### Parser family (`43_parser.md`) -/

/-- Derived from R110 to R116, R221 and R224 to R229: what a candidate that decodes is. That bit 0 of
incompat marks a signed frame is the spec's own choice (R115, log entry 5). It is accepted exactly
when its bytes are all there, its id is mapped and included, its length is within the version's limit,
its checksum matches and its signature, if it is signed, is there; and then every frame register is
the one the wire gives. -/
def Obligations.CandidateDecodesExactly : Prop :=
  ∀ (cat : Cells Entry) (mode : Mode) (ver : Version) (b : List Byte) (f : Frame) (size : Nat),
    tryCandidate cat mode ver b = .ok f size ↔
      ∃ e : Entry,
        candidateBytes ver b ≤ b.length ∧ Cells.read? cat (candidateId ver b) = some e ∧
          e.included = true ∧
          (b.getD 1 0).toNat ≤ (match ver with | .v1 => e.base.toNat | .v2 => e.max.toNat) ∧
          computedChecksum e.crcExtra ver b = wireChecksum ver b ∧
          (candidateSigned ver b = true → candidateBytes ver b + 13 ≤ b.length) ∧
          size = candidateBytes ver b + (if candidateSigned ver b then 13 else 0) ∧
          f.valid = true ∧ f.ver = ver ∧ f.len = b.getD 1 0 ∧
          f.msgId.toNat = candidateId ver b ∧ f.cksum.toNat = wireChecksum ver b ∧
          f.hasSig = candidateSigned ver b ∧
          (match ver with
            | .v1 =>
              f.seq = b.getD 2 0 ∧ f.sysId = b.getD 3 0 ∧ f.compId = b.getD 4 0 ∧ f.incompat = 0 ∧
                f.compat = 0
            | .v2 =>
              f.incompat = b.getD 2 0 ∧ f.compat = b.getD 3 0 ∧ f.seq = b.getD 4 0 ∧
                f.sysId = b.getD 5 0 ∧ f.compId = b.getD 6 0) ∧
          (∀ i : Nat,
            byteAt f.sig i =
              if candidateSigned ver b ∧ i < 13 then b.getD (candidateBytes ver b + i) 0 else 0) ∧
          ∀ i : Nat,
            byteAt f.payload i =
              if i < (b.getD 1 0).toNat then b.getD (headerBytesOf ver + i) 0 else 0

/-- Derived from R222, R223, R225 and, for the clauses on id, filter, checksum and signature, R224, R227
to R229 and R304: the first failing step decides the reason, in the step order of R221: bytes missing, id
unknown, message excluded, payload above the version's limit, checksum, signature. That bit 0 of incompat
marks a signed frame is the spec's own choice (R115, log entry 5). -/
def Obligations.CandidateFailsInStepOrder : Prop :=
  ∀ (cat : Cells Entry) (ver : Version) (b : List Byte),
    ((b.length < headerBytesOf ver + 2 ∨ b.length < candidateBytes ver b) →
      tryCandidate cat .discrete ver b = .fail .frameTooShort ∧
        tryCandidate cat .stream ver b = .needMore) ∧
      (candidateBytes ver b ≤ b.length →
        ∀ mode : Mode,
          (Cells.read? cat (candidateId ver b) = none →
            tryCandidate cat mode ver b = .fail .messageNotFound) ∧
          ∀ e : Entry, Cells.read? cat (candidateId ver b) = some e →
            (e.included = false → tryCandidate cat mode ver b = .fail .messageExcluded) ∧
            (e.included = true →
              (match ver with | .v1 => e.base.toNat | .v2 => e.max.toNat) < (b.getD 1 0).toNat →
              tryCandidate cat mode ver b = .fail .payloadLengthInvalid) ∧
            (e.included = true →
              (b.getD 1 0).toNat ≤ (match ver with | .v1 => e.base.toNat | .v2 => e.max.toNat) →
              (computedChecksum e.crcExtra ver b ≠ wireChecksum ver b →
                tryCandidate cat mode ver b = .fail .badChecksum) ∧
              (computedChecksum e.crcExtra ver b = wireChecksum ver b →
                candidateSigned ver b = true → b.length < candidateBytes ver b + 13 →
                tryCandidate cat mode ver b =
                  match mode with
                  | .discrete => .fail .signatureLengthInvalid
                  | .stream => .needMore)))

/-- R220: `nextMarker(pos)` is the smallest index from pos on, below n, that holds 0xFE or 0xFD, or
none; and the scan is the loop of R230 and R232 over it. -/
def Obligations.ScanFollowsNextMarker : Prop :=
  (∀ (buf : List Byte) (pos i : Nat),
    nextMarker buf pos = some i ↔
      pos ≤ i ∧ (∃ ver, MarkerAt buf i ver) ∧ ∀ j, pos ≤ j → j < i → ∀ ver, ¬ MarkerAt buf j ver) ∧
    ∀ (cat : Cells Entry) (mode : Mode) (buf : List Byte), ScanLoop cat mode buf

/-- Derived from R230 to R232: how a scan ends. A frame found, or the candidate that needs more, has
only failed candidates before it; when none succeeds the reason is the last candidate's, and
StartMarkerNotFound is reported only where there is no candidate at all. -/
def Obligations.ScanReportsLastReason : Prop :=
  ∀ (cat : Cells Entry) (mode : Mode) (buf : List Byte),
    match scan cat mode 0 buf none with
    | .found f a b =>
      a < b ∧ b ≤ buf.length ∧ AllFailBelow cat mode buf a ∧
        ∃ ver, MarkerAt buf a ver ∧ tryCandidate cat mode ver (buf.drop a) = .ok f (b - a)
    | .needMore c =>
      mode = .stream ∧ c < buf.length ∧ AllFailBelow cat mode buf c ∧
        ∃ ver, MarkerAt buf c ver ∧ tryCandidate cat mode ver (buf.drop c) = .needMore
    | .exhausted r =>
      AllFailBelow cat mode buf buf.length ∧
        ((r = .startMarkerNotFound ∧ ∀ i ver, ¬ MarkerAt buf i ver) ∨
          ∃ i ver, MarkerAt buf i ver ∧ tryCandidate cat mode ver (buf.drop i) = .fail r ∧
            ∀ j, i < j → ∀ v, ¬ MarkerAt buf j v)

/-- R230: PARSE, whose outcome is that of the scan loop from index 0. On success the frame is loaded,
RESULT holds start and end; on failure the frame registers are cleared and RESULT is unchanged; before
initialization, or for an illegal count, nothing but STATUS changes. -/
def Obligations.ParseLoadsFrame : Prop :=
  ∀ (s : State) (n : Count),
    let outcome := scan s.cat .discrete 0 (s.inPrefix n.toNat) none
    ScanLoop s.cat .discrete (s.inPrefix n.toNat) ∧
      (∀ (f : Frame) (a b : Nat), s.params.legal = true → n.toNat ≤ s.params.inCap → s.init = true →
      outcome = .found f a b →
        exec (.parse n) s =
            .next { s with
              frame := f, result := BitVec.ofNat 64 (a * 65536 + b), status := okStatus } ∧
          a < b ∧ b ≤ n.toNat) ∧
      (∀ r : Err, n.toNat ≤ s.params.inCap → s.init = true → outcome = .exhausted r →
        exec (.parse n) s = .next { s with frame := Frame.zero, status := errStatus r.code } ∧
          r.code ∈ [6, 7, 9, 10, 11, 13, 14]) ∧
      (∀ c : Nat, outcome ≠ .needMore c) ∧
      (n.toNat ≤ s.params.inCap → s.init = false → exec (.parse n) s = failed 1 s) ∧
      (s.params.inCap < n.toNat → exec (.parse n) s = failed 17 s) ∧
      WordRuns 0x20 24 (fun w => .parse (w.extractLsb' 8 16)) s

/-- R232: PARSE_STREAM, whose outcome is that of the scan loop from index 0, and its CONSUMED and
EXAMINED: end and end after success, the candidate's index and n after NeedMore, n and n after any
other failure, 0 and 0 before initialization. -/
def Obligations.ParseStreamReportsProgress : Prop :=
  ∀ (s : State) (n : Count),
    let outcome := scan s.cat .stream 0 (s.inPrefix n.toNat) none
    ScanLoop s.cat .stream (s.inPrefix n.toNat) ∧
      (∀ (f : Frame) (a b : Nat), s.params.legal = true → n.toNat ≤ s.params.inCap → s.init = true →
      outcome = .found f a b →
        exec (.parseStream n) s =
            .next { s with
              frame := f
              result := BitVec.ofNat 64 (a * 65536 + b)
              consumed := BitVec.ofNat 16 b
              examined := BitVec.ofNat 16 b
              status := okStatus } ∧
          a < b ∧ b ≤ n.toNat) ∧
      (∀ c : Nat, n.toNat ≤ s.params.inCap → s.init = true → outcome = .needMore c →
        exec (.parseStream n) s =
            .next { s with
              frame := Frame.zero
              consumed := BitVec.ofNat 16 c
              examined := n
              status := errStatus 16 } ∧
          c < n.toNat) ∧
      (∀ r : Err, n.toNat ≤ s.params.inCap → s.init = true → outcome = .exhausted r →
        exec (.parseStream n) s =
            .next { s with
              frame := Frame.zero, consumed := n, examined := n, status := errStatus r.code } ∧
          r.code ∈ [6, 9, 10, 11, 13]) ∧
      (n.toNat ≤ s.params.inCap → s.init = false →
        exec (.parseStream n) s =
          .next { s with consumed := 0, examined := 0, status := errStatus 1 }) ∧
      (s.params.inCap < n.toNat → exec (.parseStream n) s = failed 17 s) ∧
      WordRuns 0x21 24 (fun w => .parseStream (w.extractLsb' 8 16)) s

/-- The law R236, which the spec derives from R220 and R232: in one PARSE_STREAM, every candidate that
fails validation, up to which all candidates failed, is passed by CONSUMED at the end of the command. -/
def Obligations.EveryFailedCandidateIsConsumed : Prop :=
  ∀ (s t : State) (n : Count) (i : Nat) (ver : Version),
    s.params.legal = true → s.init = true → n.toNat ≤ s.params.inCap →
      exec (.parseStream n) s = .next t → i < n.toNat → MarkerAt (s.inPrefix n.toNat) i ver →
        AllFailBelow s.cat .stream (s.inPrefix n.toNat) (i + 1) → i + 1 ≤ t.consumed.toNat

/-- The law R237, which the spec derives from R221, R230 and R232: resynchronization. (a) A frame
followed by any bytes is returned, by both commands; (b) junk before it is skipped by PARSE when no
candidate in it validates; (c) and by PARSE_STREAM when moreover no candidate in it needs more bytes. -/
def Obligations.ScannerResynchronizes : Prop :=
  ∀ (s : State) (n : Count) (ver : Version) (junk bytes rest : List Byte) (f : Frame),
    s.params.legal = true → s.init = true → n.toNat ≤ s.params.inCap →
      s.inPrefix n.toNat = junk ++ bytes ++ rest → MarkerAt bytes 0 ver →
        (tryCandidate s.cat .discrete ver bytes = .ok f bytes.length →
          (junk = [] ∨
            rest = [] ∧ ∀ i < junk.length, ∀ v, MarkerAt (junk ++ bytes) i v →
              ∀ g k, tryCandidate s.cat .discrete v ((junk ++ bytes).drop i) ≠ .ok g k) →
          exec (.parse n) s =
            .next { s with
              frame := f
              result := BitVec.ofNat 64 (junk.length * 65536 + (junk.length + bytes.length))
              status := okStatus }) ∧
        (tryCandidate s.cat .stream ver bytes = .ok f bytes.length →
          (junk = [] ∨
            rest = [] ∧ ∀ i < junk.length, ∀ v, MarkerAt (junk ++ bytes) i v →
              (∀ g k, tryCandidate s.cat .stream v ((junk ++ bytes).drop i) ≠ .ok g k) ∧
                tryCandidate s.cat .stream v ((junk ++ bytes).drop i) ≠ .needMore) →
          exec (.parseStream n) s =
            .next { s with
              frame := f
              result := BitVec.ofNat 64 (junk.length * 65536 + (junk.length + bytes.length))
              consumed := BitVec.ofNat 16 (junk.length + bytes.length)
              examined := BitVec.ofNat 16 (junk.length + bytes.length)
              status := okStatus })

/-- Derived from R47 and R221: the commands with a count n over IN depend on no byte of IN at or
beyond n (so an unwritten byte there cannot show). -/
def Obligations.InputBeyondCountIsNotRead : Prop :=
  ∀ (s t : State) (n : Count) (i : Instr) (inMem : Cells Byte),
    (i = .crcCalc n ∨ i = .parse n ∨ i = .parseStream n) →
      (∀ j < n.toNat, ({ s with inMem := inMem } : State).readIn j = s.readIn j) →
        exec i s = .next t → exec i { s with inMem := inMem } = .next { t with inMem := inMem }

/-! ### Serializer family (`44_serializer.md`) -/

/-- R260: FRAME_NEW clears the frame registers and sets VALID, VER, MSGID and LEN; the filter bit is
not consulted. -/
def Obligations.FrameNewStartsFrame : Prop :=
  ∀ (s : State) (id : MsgId) (ver : Version),
    (∀ e : Entry, s.init = true → s.catEntry id = some e → (ver = .v1 → id.toNat ≤ 255) →
      ∃ f : Frame,
        exec (.frameNew id ver) s = .next { s with frame := f, status := okStatus } ∧
          f.valid = true ∧ f.ver = ver ∧ f.msgId = id ∧
          f.len = (match ver with | .v1 => e.base | .v2 => e.max) ∧ f.seq = 0 ∧ f.sysId = 0 ∧
          f.compId = 0 ∧ f.incompat = 0 ∧ f.compat = 0 ∧ f.hasSig = false ∧ f.cksum = 0 ∧
          (∀ i, byteAt f.sig i = 0) ∧ ∀ i, byteAt f.payload i = 0) ∧
      (s.init = false → exec (.frameNew id ver) s = failed 1 s) ∧
      (s.init = true → s.catEntry id = none → exec (.frameNew id ver) s = failed 9 s) ∧
      (∀ e : Entry, s.init = true → s.catEntry id = some e → ver = .v1 → 255 < id.toNat →
        exec (.frameNew id ver) s = failed 19 s) ∧
      WordRuns 0x40 33
        (fun w => .frameNew (w.extractLsb' 8 24) (if w.getLsbD 32 then .v2 else .v1)) s

/-- R261: SET_HEADER writes SEQ, SYSID and COMPID, and for a v2 frame INCOMPAT and COMPAT; on a v1
frame those two operands are ignored. -/
def Obligations.SetHeaderWritesHeader : Prop :=
  ∀ (s : State) (seq sys comp incompat compat : Byte),
    (s.init = true → s.frame.valid = true → s.frame.ver = .v1 →
      exec (.setHeader seq sys comp incompat compat) s =
        .next { s with
          frame := { s.frame with seq := seq, sysId := sys, compId := comp }
          status := okStatus }) ∧
      (s.init = true → s.frame.valid = true → s.frame.ver = .v2 →
        exec (.setHeader seq sys comp incompat compat) s =
          .next { s with
            frame :=
              { s.frame with
                seq := seq, sysId := sys, compId := comp, incompat := incompat, compat := compat }
            status := okStatus }) ∧
      (s.init = false → exec (.setHeader seq sys comp incompat compat) s = failed 1 s) ∧
      (s.init = true → s.frame.valid = false →
        exec (.setHeader seq sys comp incompat compat) s = failed 21 s) ∧
      WordRuns 0x41 48
        (fun w =>
          .setHeader (w.extractLsb' 8 8) (w.extractLsb' 16 8) (w.extractLsb' 24 8)
            (w.extractLsb' 32 8) (w.extractLsb' 40 8)) s

/-- Derived from R262, whose lower bound of one byte is the spec's own choice from general knowledge
(log entry 7): the emitted payload length. v1: base. v2 without V2_TRIM: max. v2 with it: the largest
j with 1 ≤ j ≤ max and PAYLOAD[j−1] ≠ 0, or 1 if PAYLOAD[0..max) is all zero, and 0 when max = 0; the
bytes trimming drops are zero. -/
def Obligations.EmittedLengthIsTrimmed : Prop :=
  ∀ (trim : Bool) (e : Entry) (f : Frame),
    let ln := emittedLength trim e f
    (f.ver = .v1 → ln = e.base.toNat) ∧
      (f.ver = .v2 → trim = false → ln = e.max.toNat) ∧
      (f.ver = .v2 → trim = true →
        (e.max.toNat = 0 → ln = 0) ∧
          (0 < e.max.toNat → 1 ≤ ln ∧ ln ≤ e.max.toNat ∧ (byteAt f.payload (ln - 1) ≠ 0 ∨ ln = 1)) ∧
          ∀ i, ln ≤ i → i < e.max.toNat → byteAt f.payload i = 0)

/-- R263, R264, R265: SERIALIZE emits header, payload and little-endian checksum, in that order, at
the start of OUT and zero after them, never a signature; it writes OUT_LEN, LEN, CKSUM and RESULT and
leaves everything else. -/
def Obligations.SerializeEmitsFrame : Prop :=
  ∀ s : State,
    (∀ e : Entry, s.init = true → s.frame.valid = true → s.catEntry s.frame.msgId = some e →
      let f := s.frame
      let ln := emittedLength s.params.v2Trim e f
      let hdr : List Byte :=
        match f.ver with
        | .v1 => [0xFE, BitVec.ofNat 8 ln, f.seq, f.sysId, f.compId, f.msgId.extractLsb' 0 8]
        | .v2 =>
          [0xFD, BitVec.ofNat 8 ln, f.incompat, f.compat, f.seq, f.sysId, f.compId,
            f.msgId.extractLsb' 0 8, f.msgId.extractLsb' 8 8, f.msgId.extractLsb' 16 8]
      let payload := (List.range ln).map (byteAt f.payload)
      let ck := acc e.crcExtra (crcOf (hdr.tail ++ payload))
      let bytes := hdr ++ payload ++ [ck.extractLsb' 0 8, ck.extractLsb' 8 8]
      8 ≤ bytes.length ∧ bytes.length ≤ 267 ∧
        ∃ out : Vector Byte 280,
          exec .serialize s =
              .next { s with
                out := out
                outLen := BitVec.ofNat 16 bytes.length
                result := BitVec.ofNat 64 bytes.length
                frame := { f with len := BitVec.ofNat 8 ln, cksum := ck }
                status := okStatus } ∧
            ∀ i : Nat, byteAt out i = bytes.getD i 0) ∧
      (s.init = false → exec .serialize s = failed 1 s) ∧
      (s.init = true → s.frame.valid = false → exec .serialize s = failed 21 s) ∧
      WordRuns 0x42 8 (fun _ => .serialize) s

/-- The law R267, which the spec derives from R262 to R265, R221, R226, R201 and R207: the round trip.
A frame held whose message is included and whose incompat bit 0 is 0, serialized and then parsed from
IN holding the bytes of OUT, comes back with RESULT = OUT_LEN, the same header, and every element as
before, but for the extended fields of a v1 frame, which read 0. -/
def Obligations.SerializeThenParseRoundTrip : Prop :=
  ∀ (s : State) (en : Entry),
    Inv s → s.frame.valid = true → s.catEntry s.frame.msgId = some en → en.included = true →
      s.frame.incompat.getLsbD 0 = false →
        ∃ t : State, exec .serialize s = .next t ∧ t.status = okStatus ∧
          ∀ inMem : Cells Byte,
            (∀ i < t.outLen.toNat, ({ t with inMem := inMem } : State).readIn i = byteAt t.out i) →
              ∃ u : State,
                exec (.parse t.outLen) { t with inMem := inMem } = .next u ∧ u.status = okStatus ∧
                  u.result = BitVec.ofNat 64 t.outLen.toNat ∧ u.frame.valid = true ∧
                  u.frame.ver = s.frame.ver ∧ u.frame.seq = s.frame.seq ∧
                  u.frame.sysId = s.frame.sysId ∧ u.frame.compId = s.frame.compId ∧
                  u.frame.msgId = s.frame.msgId ∧ u.frame.incompat = s.frame.incompat ∧
                  u.frame.compat = s.frame.compat ∧
                  ∀ (k e : Byte) (f : Field) (r : Word), en.select k e = some f →
                    exec (.fieldRead k e) s = .next { s with result := r, status := okStatus } →
                      exec (.fieldRead k e) u =
                        .next { u with
                          result := if s.frame.ver = .v1 ∧ f.extended = true then 0 else r
                          status := okStatus }

/-- Derived from R334 and R260: the commands that build, edit, read and emit a frame do not depend on
the filter bits. -/
def Obligations.EncodeIgnoresFilter : Prop :=
  ∀ (i : Instr) (s t : State) (bit : Nat → Bool),
    ((∃ id ver, i = .frameNew id ver) ∨ (∃ a b c d e, i = .setHeader a b c d e) ∨ i = .serialize ∨
        (∃ k e, i = .fieldRead k e) ∨ ∃ k e, i = .fieldWrite k e) →
      exec i s = .next t →
        exec i { s with cat := Cells.mapData (fun k e => { e with included := bit k }) s.cat } =
          .next { t with cat := Cells.mapData (fun k e => { e with included := bit k }) t.cat }

/-! ### Errors (`60_exceptions.md`) and what commands may write -/

/-- R305: codes 2, 3, 8 and 12, and codes from 22 on, are never written: STATUS after any word is
success, or OK = 0 with a code of R301 that some command raises; after a command, one of the codes its
row of R301 lists. -/
def Obligations.CommandsRaiseOnlyTheirCodes : Prop :=
  (∀ (i : Instr) (s t : State), exec i s = .next t →
    t.status = okStatus ∨ ∃ c ∈ codesOf i, t.status = errStatus c) ∧
    ∀ (w : Word) (s t : State), runWord w s = .next t →
      t.status = okStatus ∨
        ∃ c ∈ raisedCodes, c ≠ 0 ∧ c ∉ [2, 3, 8, 12] ∧ c.toNat < 22 ∧ t.status = errStatus c

/-- R300: from every state of a run each command ends in one next state, success or one error; and a
command that fails has changed nothing but STATUS, and for PARSE and PARSE_STREAM the frame registers
(cleared or untouched), and for PARSE_STREAM CONSUMED and EXAMINED. -/
def Obligations.FailureLeavesStateAlone : Prop :=
  (∀ (i : Instr) (s : State), Inv s → ∃ t, exec i s = .next t) ∧
    ∀ (i : Instr) (s t : State), exec i s = .next t → t.status.ok = false →
      (isParse i = false → t = { s with status := t.status }) ∧
        (∀ n, i = .parse n →
          t = { s with status := t.status, frame := t.frame } ∧
            (t.frame = s.frame ∨ t.frame = Frame.zero)) ∧
        ∀ n, i = .parseStream n →
          t = { s with
            status := t.status, frame := t.frame, consumed := t.consumed, examined := t.examined } ∧
            (t.frame = s.frame ∨ t.frame = Frame.zero)

/-- R39: RESULT changes only on success and only by the commands whose rule says so; the host reads it
at 0x018; it resets to 0. -/
def Obligations.ResultChangesOnlyOnSuccess : Prop :=
  (∀ (i : Instr) (s t : State), exec i s = .next t →
    (t.status.ok = false ∨ writesResult i = false) → t.result = s.result) ∧
    (∀ s : State, s.hostRead? .b64 0x018 = some s.result) ∧ State.reset.result = 0

/-- R46: OUT and OUT_LEN are written only by SERIALIZE, which leaves the serialized frame in the first
OUT_LEN bytes of OUT and zero after them; OUT_LEN is at most 267; the host reads OUT_LEN at 0x050,
zero-extended, and OUT[i] at 0x3000 + i; all zero at reset. -/
def Obligations.OutChangesOnlyOnSerialize : Prop :=
  (∀ (i : Instr) (s t : State), i ≠ .serialize → exec i s = .next t →
    t.out = s.out ∧ t.outLen = s.outLen) ∧
    (∀ s t : State, exec .serialize s = .next t → t.status = okStatus →
      t.outLen.toNat ≤ 267 ∧ (∀ i, t.outLen.toNat ≤ i → byteAt t.out i = 0) ∧
        ∃ e : Entry, s.catEntry s.frame.msgId = some e ∧
          slice t.out 0 t.outLen.toNat =
            frameBytes e s.frame (emittedLength s.params.v2Trim e s.frame)) ∧
    (∀ s : State, s.hostRead? .b64 0x050 = some (s.outLen.setWidth 64) ∧
      ∀ i < 280, s.hostRead? .b8 (BitVec.ofNat 17 (0x3000 + i)) =
        some ((byteAt s.out i).setWidth 64)) ∧
    State.reset.outLen = 0 ∧ ∀ i, byteAt State.reset.out i = 0

/-- Derived from R34, R47, R48 and R5, R36 to R40, R45 and R46: no command writes DATA, IN, IDLIST, SCH
or the parameters, nor takes anything from the port; INIT is never cleared; the catalog changes only by
CAT_INIT, CAT_INCLUDE and CAT_EXCLUDE, CONSUMED and EXAMINED only by PARSE_STREAM, the frame registers
only by the seven commands R40 names, RESULT only by those R39 names, CRC only by the CRC family, OUT and
OUT_LEN only by SERIALIZE. -/
def Obligations.CommandsLeaveInputsAlone : Prop :=
  ∀ (i : Instr) (s t : State), exec i s = .next t →
    t.params = s.params ∧ t.data = s.data ∧ t.inMem = s.inMem ∧ t.idList = s.idList ∧
      t.sch = s.sch ∧ t.port = s.port ∧ t.readData = s.readData ∧ t.epoch = s.epoch ∧
      (s.init = true → t.init = true) ∧
      ((∀ m, i ≠ .catInit m) → t.init = s.init) ∧
      ((∀ m, i ≠ .catInit m ∧ i ≠ .catInclude m ∧ i ≠ .catExclude m) → t.cat = s.cat) ∧
      ((∀ n, i ≠ .parseStream n) → t.consumed = s.consumed ∧ t.examined = s.examined) ∧
      (writesFrame i = false → t.frame = s.frame) ∧
      (writesResult i = false → t.result = s.result) ∧
      (isCrc i = false → t.crc = s.crc) ∧
      (i ≠ .serialize → t.out = s.out ∧ t.outLen = s.outLen)

/-- R37: while INIT = 0 every legal command other than the CRC family and CAT_INIT fails
NotInitialized; INIT is 1 once a CAT_INIT has succeeded and is never cleared except by reset;
CAT_STATE shows it in bit 0 and the number of ids in bits [56:32], every other bit 0; both are 0 at
reset. -/
def Obligations.NothingRunsBeforeInit : Prop :=
  (∀ (i : Instr) (s : State), s.init = false → i.wellFormed s.params = true → isCrc i = false →
    (∀ m, i ≠ .catInit m) →
    ∃ t, exec i s = .next t ∧ t.status = errStatus 1 ∧ t.init = false ∧ t.frame = s.frame ∧
      t.result = s.result) ∧
    (∀ s t : State, s.init = true → step s = .next t → (∀ rest, s.port ≠ .reset :: rest) →
      t.init = true) ∧
    (∀ (m : Count) (s t : State), exec (.catInit m) s = .next t → t.status = okStatus →
      t.init = true) ∧
    (∀ s : State, Inv s →
      ∃ r : Word, s.hostRead? .b64 0x058 = some r ∧
        r.toNat = s.init.toNat + s.cat.length * 2 ^ 32 ∧ s.cat.length ≤ s.params.maxMessages) ∧
    State.reset.init = false ∧ State.reset.cat = []

/-! ### The host's port (`10_state.md`, `20_memory.md`) -/

/-- R41, R42, R43: the words the host reads at FRAME_CTL, FRAME_HDR and FRAME_CKSUM, each field at its
bits and 0 in every reserved bit; 0 after reset; and INCOMPAT and COMPAT 0 while VER = 0, in every state
that meets the invariant. Beside them the same for STATUS (R35), CMD, which reads 0 (R33), DATA (R34),
CONSUMED and EXAMINED (R45) and OUT_LEN (R46); RESULT, CRC and CAT_STATE, the other three registers of
R32, are read in `ResultChangesOnlyOnSuccess`, `CrcRegisterIsPrivate` and `NothingRunsBeforeInit`. -/
def Obligations.HostReadsRegisterFields : Prop :=
  State.reset.hostRead? .b64 0x038 = some 0 ∧ State.reset.hostRead? .b64 0x040 = some 0 ∧
  State.reset.hostRead? .b64 0x048 = some 0 ∧
  (∀ s : State, Inv s → s.frame.ver = .v1 → s.frame.incompat = 0 ∧ s.frame.compat = 0) ∧
  ∀ s : State,
    s.hostRead? .b64 0x000 = some 0 ∧ s.hostRead? .b64 0x008 = some s.data ∧
      s.hostRead? .b64 0x028 = some (s.consumed.setWidth 64) ∧
      s.hostRead? .b64 0x030 = some (s.examined.setWidth 64) ∧
      s.hostRead? .b64 0x050 = some (s.outLen.setWidth 64) ∧
      (∃ r : Word, s.hostRead? .b64 0x010 = some r ∧
      r.toNat = s.status.ok.toNat + s.status.err.toNat * 2 ^ 8) ∧
      (∃ r : Word, s.hostRead? .b64 0x038 = some r ∧
        r.toNat = s.frame.valid.toNat + (match s.frame.ver with | .v1 => 0 | .v2 => 1) * 2 +
          s.frame.hasSig.toNat * 4 + s.frame.len.toNat * 2 ^ 8) ∧
      (∃ r : Word, s.hostRead? .b64 0x040 = some r ∧
        r.extractLsb' 0 8 = s.frame.seq ∧ r.extractLsb' 8 8 = s.frame.sysId ∧
          r.extractLsb' 16 8 = s.frame.compId ∧ r.extractLsb' 24 8 = s.frame.incompat ∧
          r.extractLsb' 32 8 = s.frame.compat ∧ r.extractLsb' 40 24 = s.frame.msgId) ∧
      ∃ r : Word, s.hostRead? .b64 0x048 = some r ∧ r.toNat = s.frame.cksum.toNat

/-- R33, R34, R45: CMD reads 0 and a write of a word to it starts the command of that word; DATA reads
back what the host wrote, no command writes it and none but FIELD_WRITE depends on it; CONSUMED and
EXAMINED are read zero-extended, are offsets into IN in every state that meets the invariant, and are
written only by PARSE_STREAM; all three are 0 at reset. -/
def Obligations.CommandDataAndStreamRegisters : Prop :=
  (∀ (s : State) (w : Word) (rest : List HostAccess),
    s.hostRead? .b64 0x000 = some 0 ∧
      (s.port = .write .b64 0x000 w :: rest →
        (∀ i : Instr, decode w = .ok i → step s = exec i { s with port := rest }) ∧
          ∀ e, decode w = .error e → step s = failed 17 { s with port := rest })) ∧
    (∀ (s : State) (v : Word) (rest : List HostAccess), s.port = .write .b64 0x008 v :: rest →
      ∃ t : State, step s = .next t ∧ t = { s with port := rest, data := v } ∧
        t.hostRead? .b64 0x008 = some v) ∧
    (∀ (i : Instr) (s t : State), exec i s = .next t →
      t.data = s.data ∧
        ((∀ k e, i ≠ .fieldWrite k e) →
          ∀ d : Word, exec i { s with data := d } = .next { t with data := d }) ∧
        ((∀ n, i ≠ .parseStream n) → t.consumed = s.consumed ∧ t.examined = s.examined)) ∧
    (∀ s : State,
      s.hostRead? .b64 0x028 = some (s.consumed.setWidth 64) ∧
        s.hostRead? .b64 0x030 = some (s.examined.setWidth 64) ∧
        (Inv s → s.consumed.toNat ≤ s.params.inCap ∧ s.examined.toNat ≤ s.params.inCap)) ∧
    State.reset.data = 0 ∧ State.reset.consumed = 0 ∧ State.reset.examined = 0

/-- R44: the byte windows SIG and PAYLOAD, and OUT, IN and IDLIST, as the host reads them; and PAYLOAD
is zero from LEN on after a successful parse. -/
def Obligations.HostReadsWindows : Prop :=
  (∀ (s t : State) (n : Count) (i : Instr), (i = .parse n ∨ i = .parseStream n) →
    exec i s = .next t → t.status = okStatus →
      ∀ j, t.frame.len.toNat ≤ j → byteAt t.frame.payload j = 0) ∧
  ∀ s : State, s.params.legal = true →
    (∀ i < 13, s.hostRead? .b8 (BitVec.ofNat 17 (0x100 + i)) = some ((byteAt s.frame.sig i).setWidth 64)) ∧
      (∀ i < 255, s.hostRead? .b8 (BitVec.ofNat 17 (0x200 + i)) =
        some ((byteAt s.frame.payload i).setWidth 64)) ∧
      (∀ off, 0x10D ≤ off → off ≤ 0x1FF → s.hostRead? .b8 (BitVec.ofNat 17 off) = some 0) ∧
      s.hostRead? .b8 0x2FF = some 0 ∧
      (∀ i < 280, s.hostRead? .b8 (BitVec.ofNat 17 (0x3000 + i)) = some ((byteAt s.out i).setWidth 64)) ∧
      (∀ j < s.params.idlCap, s.hostRead? .b32 (BitVec.ofNat 17 (0x4000 + 4 * j)) =
        some ((s.readId j).setWidth 64)) ∧
      ∀ i < s.params.inCap, s.hostRead? .b8 (BitVec.ofNat 17 (0x10000 + i)) =
        some ((s.readIn i).setWidth 64)

/-- R87: host writes to DATA, IN, IDLIST and SCH only store the value; a read has no effect but its
answer (that the answer goes to `readData` is the model's own, log entry 3). -/
def Obligations.HostWritesStore : Prop :=
  ∀ (s : State) (v : Word) (rest : List HostAccess), s.params.legal = true →
    (s.port = .write .b64 0x008 v :: rest → step s = .next { s with port := rest, data := v }) ∧
      (∀ a < s.params.inCap, s.port = .write .b8 (BitVec.ofNat 17 (0x10000 + a)) v :: rest →
        ∃ t, step s = .next t ∧ t = { s with port := rest, inMem := t.inMem } ∧
          ∀ i, t.readIn i = if i = a then v.extractLsb' 0 8 else s.readIn i) ∧
      (∀ a < s.params.idlCap, s.port = .write .b32 (BitVec.ofNat 17 (0x4000 + 4 * a)) v :: rest →
        ∃ t, step s = .next t ∧ t = { s with port := rest, idList := t.idList } ∧
          ∀ j, t.readId j = if j = a then v.extractLsb' 0 24 else s.readId j) ∧
      (∀ table, s.port = .stageSchemas table :: rest →
        step s = .next { s with port := rest, sch := table }) ∧
      ∀ (w : Width) (off : Offset) (r : Word), s.port = .read w off :: rest →
        s.hostRead? w off = some r → step s = .next { s with port := rest, readData := r }

/-- Derived from R49, R32 and R86: an aligned read of an offset no row names gives 0; a write to such an
offset, or to a register whose access is R, changes no state; an access of another width or alignment
than R32 gives, at any offset in the case of 16 bits, is refused. That a reserved offset, to which R32
gives no width, admits 8, 32 and 64 bits alike is the model's choice (log entry 6). -/
def Obligations.ReservedOffsetsAreInert : Prop :=
  ∀ (s : State) (w : Width) (off : Offset) (v : Word) (rest : List HostAccess),
    (ReservedOffset s.params off.toNat → w ≠ .b16 → off.toNat % w.bytes = 0 →
      s.hostRead? w off = some 0 ∧
        (s.port = .write w off v :: rest → step s = .next { s with port := rest })) ∧
      (w = .b64 → off.toNat % 8 = 0 → 0x010 ≤ off.toNat → off.toNat ≤ 0x058 →
        s.port = .write w off v :: rest → step s = .next { s with port := rest }) ∧
      (w = .b8 →
        (0x100 ≤ off.toNat ∧ off.toNat ≤ 0x10C ∨ 0x200 ≤ off.toNat ∧ off.toNat ≤ 0x2FE ∨
          0x3000 ≤ off.toNat ∧ off.toNat ≤ 0x3117) →
        s.port = .write w off v :: rest → step s = .next { s with port := rest }) ∧
      ((w = .b16 ∨ off.toNat % w.bytes ≠ 0 ∨ (off.toNat < 0x60 ∧ w ≠ .b64) ∨
          (0x100 ≤ off.toNat ∧ off.toNat ≤ 0x10C ∧ w ≠ .b8) ∨
          (0x200 ≤ off.toNat ∧ off.toNat ≤ 0x2FE ∧ w ≠ .b8) ∨
          (0x3000 ≤ off.toNat ∧ off.toNat ≤ 0x3117 ∧ w ≠ .b8) ∨
          (0x4000 ≤ off.toNat ∧ off.toNat < 0x4000 + 4 * s.params.idlCap ∧
            off.toNat < 0x10000 ∧ w ≠ .b32) ∨
          (0x10000 ≤ off.toNat ∧ off.toNat < 0x10000 + s.params.inCap ∧
            ¬ (off.toNat < 0x4000 + 4 * s.params.idlCap) ∧ w ≠ .b8)) →
        (s.port = .read w off :: rest ∨ s.port = .write w off v :: rest) →
        step s = .refused .hostAccessForm)

/-! ### Reset (`70_reset_and_hazards.md`) and the whole machine -/

/-- R52: what reset leaves, from every state, in every piece of state the table names; IN and IDLIST
are unspecified again (the free values of the new reset). -/
def Obligations.ResetValues : Prop :=
  ∀ (s : State) (rest : List HostAccess), s.port = .reset :: rest →
    ∃ t, step s = .next t ∧ t.params = s.params ∧ t.port = rest ∧ t.data = 0 ∧ t.result = 0 ∧
      t.status = { ok := false, err := 0 } ∧ t.crc = 0xFFFF#16 ∧ t.consumed = 0 ∧ t.examined = 0 ∧
      t.outLen = 0 ∧ t.init = false ∧ t.cat = [] ∧ t.frame.valid = false ∧ t.frame.ver = .v1 ∧
      t.frame.hasSig = false ∧ t.frame.len = 0 ∧ t.frame.seq = 0 ∧ t.frame.sysId = 0 ∧
      t.frame.compId = 0 ∧ t.frame.msgId = 0 ∧ t.frame.incompat = 0 ∧ t.frame.compat = 0 ∧
      t.frame.cksum = 0 ∧ (∀ i, byteAt t.frame.sig i = 0) ∧ (∀ i, byteAt t.frame.payload i = 0) ∧
      (∀ i, byteAt t.out i = 0) ∧ t.sch = [] ∧
      (∀ i, t.readIn i = Config.inAtReset (s.epoch + 1) i) ∧
      ∀ j, t.readId j = Config.idListAtReset (s.epoch + 1) j

/-- Derived from R31 (log entry 3): with nothing at the port the machine waits, unchanged. -/
def Obligations.IdlePortChangesNothing : Prop :=
  ∀ s : State, s.port = [] → step s = .next s

/-- Derived: the invariant holds at reset. -/
def Obligations.InvariantAtReset : Prop := Inv State.reset

/-- Derived from R5, R35 to R37, R40, R45 to R47, R52, R164, R167 and R174: every step keeps the
invariant. -/
def Obligations.StepKeepsInvariant : Prop :=
  ∀ s t : State, Inv s → step s = .next t → Inv t

/-- Derived from R81, R300 and R311: from every state that meets the invariant no step faults, and
every command word ends in a next state. -/
def Obligations.NoCommandStopsTheBlock : Prop :=
  ∀ s : State, Inv s → SafeStep s ∧ ∀ w : Word, ∃ t, runWord w s = .next t

/-! ### The host's side -/

/-- Derived from R173 and R166, on the spec's examples: type strings resolve as the table says, and
CRC_EXTRA of HEARTBEAT and of ATTITUDE, from the field lists the test vectors give, are 50 and 39. -/
def Obligations.HostReferenceExamples : Prop :=
  resolveType "float[4]" = .ok (.f32, 4) ∧ resolveType "char[50]" = .ok (.char, 50) ∧
    resolveType "uint8_t_mavlink_version" = .ok (.u8, 0) ∧ resolveType "uint16_t" = .ok (.u16, 0) ∧
    resolveType "int8_t[0]" = .error .badType ∧ resolveType "string" = .error .badType ∧
    hostCrcExtra "HEARTBEAT"
        [⟨"uint8_t", "type", false⟩, ⟨"uint8_t", "autopilot", false⟩,
          ⟨"uint8_t", "base_mode", false⟩, ⟨"uint32_t", "custom_mode", false⟩,
          ⟨"uint8_t", "system_status", false⟩,
          ⟨"uint8_t_mavlink_version", "mavlink_version", false⟩] = 50 ∧
    hostCrcExtra "ATTITUDE"
        [⟨"uint32_t", "time_boot_ms", false⟩, ⟨"float", "roll", false⟩, ⟨"float", "pitch", false⟩,
          ⟨"float", "yaw", false⟩, ⟨"float", "rollspeed", false⟩, ⟨"float", "pitchspeed", false⟩,
          ⟨"float", "yawspeed", false⟩] = 39
end

