-- ==== Sys2Proof/Laws/State.lean ====
section
/-! SUPPORT. One lemma per field of `State` and per update of it: what the field holds after the update.
All true by `rfl` and in the simp set, so that no proof unfolds a record update. -/

namespace Sys2Proof.Machine

/-! ### setStatus -/

@[simp] theorem setStatus_params (e : Err) (s : State) : (setStatus e s).params = s.params :=
  rfl

@[simp] theorem setStatus_data (e : Err) (s : State) : (setStatus e s).data = s.data :=
  rfl

@[simp] theorem setStatus_status (e : Err) (s : State) : (setStatus e s).status = statusOf e :=
  rfl

@[simp] theorem setStatus_result (e : Err) (s : State) : (setStatus e s).result = s.result :=
  rfl

@[simp] theorem setStatus_crc (e : Err) (s : State) : (setStatus e s).crc = s.crc :=
  rfl

@[simp] theorem setStatus_consumed (e : Err) (s : State) :
    (setStatus e s).consumed = s.consumed :=
  rfl

@[simp] theorem setStatus_examined (e : Err) (s : State) :
    (setStatus e s).examined = s.examined :=
  rfl

@[simp] theorem setStatus_outLen (e : Err) (s : State) : (setStatus e s).outLen = s.outLen :=
  rfl

@[simp] theorem setStatus_out (e : Err) (s : State) : (setStatus e s).out = s.out :=
  rfl

@[simp] theorem setStatus_init (e : Err) (s : State) : (setStatus e s).init = s.init :=
  rfl

@[simp] theorem setStatus_cat (e : Err) (s : State) : (setStatus e s).cat = s.cat :=
  rfl

@[simp] theorem setStatus_frame (e : Err) (s : State) : (setStatus e s).frame = s.frame :=
  rfl

@[simp] theorem setStatus_inMem (e : Err) (s : State) : (setStatus e s).inMem = s.inMem :=
  rfl

@[simp] theorem setStatus_idList (e : Err) (s : State) : (setStatus e s).idList = s.idList :=
  rfl

@[simp] theorem setStatus_sch (e : Err) (s : State) : (setStatus e s).sch = s.sch :=
  rfl

@[simp] theorem setStatus_port (e : Err) (s : State) : (setStatus e s).port = s.port :=
  rfl

@[simp] theorem setStatus_readData (e : Err) (s : State) :
    (setStatus e s).readData = s.readData :=
  rfl

@[simp] theorem setStatus_epoch (e : Err) (s : State) : (setStatus e s).epoch = s.epoch :=
  rfl

/-! ### setResult -/

@[simp] theorem setResult_params (v : Word) (s : State) : (setResult v s).params = s.params :=
  rfl

@[simp] theorem setResult_data (v : Word) (s : State) : (setResult v s).data = s.data :=
  rfl

@[simp] theorem setResult_status (v : Word) (s : State) : (setResult v s).status = s.status :=
  rfl

@[simp] theorem setResult_result (v : Word) (s : State) : (setResult v s).result = v :=
  rfl

@[simp] theorem setResult_crc (v : Word) (s : State) : (setResult v s).crc = s.crc :=
  rfl

@[simp] theorem setResult_consumed (v : Word) (s : State) :
    (setResult v s).consumed = s.consumed :=
  rfl

@[simp] theorem setResult_examined (v : Word) (s : State) :
    (setResult v s).examined = s.examined :=
  rfl

@[simp] theorem setResult_outLen (v : Word) (s : State) : (setResult v s).outLen = s.outLen :=
  rfl

@[simp] theorem setResult_out (v : Word) (s : State) : (setResult v s).out = s.out :=
  rfl

@[simp] theorem setResult_init (v : Word) (s : State) : (setResult v s).init = s.init :=
  rfl

@[simp] theorem setResult_cat (v : Word) (s : State) : (setResult v s).cat = s.cat :=
  rfl

@[simp] theorem setResult_frame (v : Word) (s : State) : (setResult v s).frame = s.frame :=
  rfl

@[simp] theorem setResult_inMem (v : Word) (s : State) : (setResult v s).inMem = s.inMem :=
  rfl

@[simp] theorem setResult_idList (v : Word) (s : State) : (setResult v s).idList = s.idList :=
  rfl

@[simp] theorem setResult_sch (v : Word) (s : State) : (setResult v s).sch = s.sch :=
  rfl

@[simp] theorem setResult_port (v : Word) (s : State) : (setResult v s).port = s.port :=
  rfl

@[simp] theorem setResult_readData (v : Word) (s : State) :
    (setResult v s).readData = s.readData :=
  rfl

@[simp] theorem setResult_epoch (v : Word) (s : State) : (setResult v s).epoch = s.epoch :=
  rfl

/-! ### clearFrame -/

@[simp] theorem clearFrame_params (s : State) : (clearFrame s).params = s.params :=
  rfl

@[simp] theorem clearFrame_data (s : State) : (clearFrame s).data = s.data :=
  rfl

@[simp] theorem clearFrame_status (s : State) : (clearFrame s).status = s.status :=
  rfl

@[simp] theorem clearFrame_result (s : State) : (clearFrame s).result = s.result :=
  rfl

@[simp] theorem clearFrame_crc (s : State) : (clearFrame s).crc = s.crc :=
  rfl

@[simp] theorem clearFrame_consumed (s : State) : (clearFrame s).consumed = s.consumed :=
  rfl

@[simp] theorem clearFrame_examined (s : State) : (clearFrame s).examined = s.examined :=
  rfl

@[simp] theorem clearFrame_outLen (s : State) : (clearFrame s).outLen = s.outLen :=
  rfl

@[simp] theorem clearFrame_out (s : State) : (clearFrame s).out = s.out :=
  rfl

@[simp] theorem clearFrame_init (s : State) : (clearFrame s).init = s.init :=
  rfl

@[simp] theorem clearFrame_cat (s : State) : (clearFrame s).cat = s.cat :=
  rfl

@[simp] theorem clearFrame_frame (s : State) : (clearFrame s).frame = Frame.zero :=
  rfl

@[simp] theorem clearFrame_inMem (s : State) : (clearFrame s).inMem = s.inMem :=
  rfl

@[simp] theorem clearFrame_idList (s : State) : (clearFrame s).idList = s.idList :=
  rfl

@[simp] theorem clearFrame_sch (s : State) : (clearFrame s).sch = s.sch :=
  rfl

@[simp] theorem clearFrame_port (s : State) : (clearFrame s).port = s.port :=
  rfl

@[simp] theorem clearFrame_readData (s : State) : (clearFrame s).readData = s.readData :=
  rfl

@[simp] theorem clearFrame_epoch (s : State) : (clearFrame s).epoch = s.epoch :=
  rfl

/-! ### loadFrame -/

@[simp] theorem loadFrame_params (f : Frame) (s : State) : (loadFrame f s).params = s.params :=
  rfl

@[simp] theorem loadFrame_data (f : Frame) (s : State) : (loadFrame f s).data = s.data :=
  rfl

@[simp] theorem loadFrame_status (f : Frame) (s : State) : (loadFrame f s).status = s.status :=
  rfl

@[simp] theorem loadFrame_result (f : Frame) (s : State) : (loadFrame f s).result = s.result :=
  rfl

@[simp] theorem loadFrame_crc (f : Frame) (s : State) : (loadFrame f s).crc = s.crc :=
  rfl

@[simp] theorem loadFrame_consumed (f : Frame) (s : State) :
    (loadFrame f s).consumed = s.consumed :=
  rfl

@[simp] theorem loadFrame_examined (f : Frame) (s : State) :
    (loadFrame f s).examined = s.examined :=
  rfl

@[simp] theorem loadFrame_outLen (f : Frame) (s : State) : (loadFrame f s).outLen = s.outLen :=
  rfl

@[simp] theorem loadFrame_out (f : Frame) (s : State) : (loadFrame f s).out = s.out :=
  rfl

@[simp] theorem loadFrame_init (f : Frame) (s : State) : (loadFrame f s).init = s.init :=
  rfl

@[simp] theorem loadFrame_cat (f : Frame) (s : State) : (loadFrame f s).cat = s.cat :=
  rfl

@[simp] theorem loadFrame_frame (f : Frame) (s : State) : (loadFrame f s).frame = f :=
  rfl

@[simp] theorem loadFrame_inMem (f : Frame) (s : State) : (loadFrame f s).inMem = s.inMem :=
  rfl

@[simp] theorem loadFrame_idList (f : Frame) (s : State) : (loadFrame f s).idList = s.idList :=
  rfl

@[simp] theorem loadFrame_sch (f : Frame) (s : State) : (loadFrame f s).sch = s.sch :=
  rfl

@[simp] theorem loadFrame_port (f : Frame) (s : State) : (loadFrame f s).port = s.port :=
  rfl

@[simp] theorem loadFrame_readData (f : Frame) (s : State) :
    (loadFrame f s).readData = s.readData :=
  rfl

@[simp] theorem loadFrame_epoch (f : Frame) (s : State) : (loadFrame f s).epoch = s.epoch :=
  rfl

/-! ### setStream -/

@[simp] theorem setStream_params (c x : Nat) (s : State) :
    (setStream c x s).params = s.params :=
  rfl

@[simp] theorem setStream_data (c x : Nat) (s : State) : (setStream c x s).data = s.data :=
  rfl

@[simp] theorem setStream_status (c x : Nat) (s : State) :
    (setStream c x s).status = s.status :=
  rfl

@[simp] theorem setStream_result (c x : Nat) (s : State) :
    (setStream c x s).result = s.result :=
  rfl

@[simp] theorem setStream_crc (c x : Nat) (s : State) : (setStream c x s).crc = s.crc :=
  rfl

@[simp] theorem setStream_consumed (c x : Nat) (s : State) :
    (setStream c x s).consumed = BitVec.ofNat 16 c :=
  rfl

@[simp] theorem setStream_examined (c x : Nat) (s : State) :
    (setStream c x s).examined = BitVec.ofNat 16 x :=
  rfl

@[simp] theorem setStream_outLen (c x : Nat) (s : State) :
    (setStream c x s).outLen = s.outLen :=
  rfl

@[simp] theorem setStream_out (c x : Nat) (s : State) : (setStream c x s).out = s.out :=
  rfl

@[simp] theorem setStream_init (c x : Nat) (s : State) : (setStream c x s).init = s.init :=
  rfl

@[simp] theorem setStream_cat (c x : Nat) (s : State) : (setStream c x s).cat = s.cat :=
  rfl

@[simp] theorem setStream_frame (c x : Nat) (s : State) : (setStream c x s).frame = s.frame :=
  rfl

@[simp] theorem setStream_inMem (c x : Nat) (s : State) : (setStream c x s).inMem = s.inMem :=
  rfl

@[simp] theorem setStream_idList (c x : Nat) (s : State) :
    (setStream c x s).idList = s.idList :=
  rfl

@[simp] theorem setStream_sch (c x : Nat) (s : State) : (setStream c x s).sch = s.sch :=
  rfl

@[simp] theorem setStream_port (c x : Nat) (s : State) : (setStream c x s).port = s.port :=
  rfl

@[simp] theorem setStream_readData (c x : Nat) (s : State) :
    (setStream c x s).readData = s.readData :=
  rfl

@[simp] theorem setStream_epoch (c x : Nat) (s : State) : (setStream c x s).epoch = s.epoch :=
  rfl

/-! ### writeIn -/

@[simp] theorem writeIn_params (i : Nat) (b : Byte) (s : State) :
    (s.writeIn i b).params = s.params :=
  rfl

@[simp] theorem writeIn_data (i : Nat) (b : Byte) (s : State) : (s.writeIn i b).data = s.data :=
  rfl

@[simp] theorem writeIn_status (i : Nat) (b : Byte) (s : State) :
    (s.writeIn i b).status = s.status :=
  rfl

@[simp] theorem writeIn_result (i : Nat) (b : Byte) (s : State) :
    (s.writeIn i b).result = s.result :=
  rfl

@[simp] theorem writeIn_crc (i : Nat) (b : Byte) (s : State) : (s.writeIn i b).crc = s.crc :=
  rfl

@[simp] theorem writeIn_consumed (i : Nat) (b : Byte) (s : State) :
    (s.writeIn i b).consumed = s.consumed :=
  rfl

@[simp] theorem writeIn_examined (i : Nat) (b : Byte) (s : State) :
    (s.writeIn i b).examined = s.examined :=
  rfl

@[simp] theorem writeIn_outLen (i : Nat) (b : Byte) (s : State) :
    (s.writeIn i b).outLen = s.outLen :=
  rfl

@[simp] theorem writeIn_out (i : Nat) (b : Byte) (s : State) : (s.writeIn i b).out = s.out :=
  rfl

@[simp] theorem writeIn_init (i : Nat) (b : Byte) (s : State) : (s.writeIn i b).init = s.init :=
  rfl

@[simp] theorem writeIn_cat (i : Nat) (b : Byte) (s : State) : (s.writeIn i b).cat = s.cat :=
  rfl

@[simp] theorem writeIn_frame (i : Nat) (b : Byte) (s : State) :
    (s.writeIn i b).frame = s.frame :=
  rfl

@[simp] theorem writeIn_inMem (i : Nat) (b : Byte) (s : State) :
    (s.writeIn i b).inMem = Cells.write i b s.inMem :=
  rfl

@[simp] theorem writeIn_idList (i : Nat) (b : Byte) (s : State) :
    (s.writeIn i b).idList = s.idList :=
  rfl

@[simp] theorem writeIn_sch (i : Nat) (b : Byte) (s : State) : (s.writeIn i b).sch = s.sch :=
  rfl

@[simp] theorem writeIn_port (i : Nat) (b : Byte) (s : State) : (s.writeIn i b).port = s.port :=
  rfl

@[simp] theorem writeIn_readData (i : Nat) (b : Byte) (s : State) :
    (s.writeIn i b).readData = s.readData :=
  rfl

@[simp] theorem writeIn_epoch (i : Nat) (b : Byte) (s : State) :
    (s.writeIn i b).epoch = s.epoch :=
  rfl

/-! ### writeId -/

@[simp] theorem writeId_params (j : Nat) (x : MsgId) (s : State) :
    (s.writeId j x).params = s.params :=
  rfl

@[simp] theorem writeId_data (j : Nat) (x : MsgId) (s : State) :
    (s.writeId j x).data = s.data :=
  rfl

@[simp] theorem writeId_status (j : Nat) (x : MsgId) (s : State) :
    (s.writeId j x).status = s.status :=
  rfl

@[simp] theorem writeId_result (j : Nat) (x : MsgId) (s : State) :
    (s.writeId j x).result = s.result :=
  rfl

@[simp] theorem writeId_crc (j : Nat) (x : MsgId) (s : State) : (s.writeId j x).crc = s.crc :=
  rfl

@[simp] theorem writeId_consumed (j : Nat) (x : MsgId) (s : State) :
    (s.writeId j x).consumed = s.consumed :=
  rfl

@[simp] theorem writeId_examined (j : Nat) (x : MsgId) (s : State) :
    (s.writeId j x).examined = s.examined :=
  rfl

@[simp] theorem writeId_outLen (j : Nat) (x : MsgId) (s : State) :
    (s.writeId j x).outLen = s.outLen :=
  rfl

@[simp] theorem writeId_out (j : Nat) (x : MsgId) (s : State) : (s.writeId j x).out = s.out :=
  rfl

@[simp] theorem writeId_init (j : Nat) (x : MsgId) (s : State) :
    (s.writeId j x).init = s.init :=
  rfl

@[simp] theorem writeId_cat (j : Nat) (x : MsgId) (s : State) : (s.writeId j x).cat = s.cat :=
  rfl

@[simp] theorem writeId_frame (j : Nat) (x : MsgId) (s : State) :
    (s.writeId j x).frame = s.frame :=
  rfl

@[simp] theorem writeId_inMem (j : Nat) (x : MsgId) (s : State) :
    (s.writeId j x).inMem = s.inMem :=
  rfl

@[simp] theorem writeId_idList (j : Nat) (x : MsgId) (s : State) :
    (s.writeId j x).idList = Cells.write j x s.idList :=
  rfl

@[simp] theorem writeId_sch (j : Nat) (x : MsgId) (s : State) : (s.writeId j x).sch = s.sch :=
  rfl

@[simp] theorem writeId_port (j : Nat) (x : MsgId) (s : State) :
    (s.writeId j x).port = s.port :=
  rfl

@[simp] theorem writeId_readData (j : Nat) (x : MsgId) (s : State) :
    (s.writeId j x).readData = s.readData :=
  rfl

@[simp] theorem writeId_epoch (j : Nat) (x : MsgId) (s : State) :
    (s.writeId j x).epoch = s.epoch :=
  rfl

/-! ### writeElement -/

@[simp] theorem writeElement_params (g : Field) (e : Nat) (v : Word) (s : State) :
    (writeElement g e v s).params = s.params :=
  rfl

@[simp] theorem writeElement_data (g : Field) (e : Nat) (v : Word) (s : State) :
    (writeElement g e v s).data = s.data :=
  rfl

@[simp] theorem writeElement_status (g : Field) (e : Nat) (v : Word) (s : State) :
    (writeElement g e v s).status = s.status :=
  rfl

@[simp] theorem writeElement_result (g : Field) (e : Nat) (v : Word) (s : State) :
    (writeElement g e v s).result = s.result :=
  rfl

@[simp] theorem writeElement_crc (g : Field) (e : Nat) (v : Word) (s : State) :
    (writeElement g e v s).crc = s.crc :=
  rfl

@[simp] theorem writeElement_consumed (g : Field) (e : Nat) (v : Word) (s : State) :
    (writeElement g e v s).consumed = s.consumed :=
  rfl

@[simp] theorem writeElement_examined (g : Field) (e : Nat) (v : Word) (s : State) :
    (writeElement g e v s).examined = s.examined :=
  rfl

@[simp] theorem writeElement_outLen (g : Field) (e : Nat) (v : Word) (s : State) :
    (writeElement g e v s).outLen = s.outLen :=
  rfl

@[simp] theorem writeElement_out (g : Field) (e : Nat) (v : Word) (s : State) :
    (writeElement g e v s).out = s.out :=
  rfl

@[simp] theorem writeElement_init (g : Field) (e : Nat) (v : Word) (s : State) :
    (writeElement g e v s).init = s.init :=
  rfl

@[simp] theorem writeElement_cat (g : Field) (e : Nat) (v : Word) (s : State) :
    (writeElement g e v s).cat = s.cat :=
  rfl

@[simp] theorem writeElement_inMem (g : Field) (e : Nat) (v : Word) (s : State) :
    (writeElement g e v s).inMem = s.inMem :=
  rfl

@[simp] theorem writeElement_idList (g : Field) (e : Nat) (v : Word) (s : State) :
    (writeElement g e v s).idList = s.idList :=
  rfl

@[simp] theorem writeElement_sch (g : Field) (e : Nat) (v : Word) (s : State) :
    (writeElement g e v s).sch = s.sch :=
  rfl

@[simp] theorem writeElement_port (g : Field) (e : Nat) (v : Word) (s : State) :
    (writeElement g e v s).port = s.port :=
  rfl

@[simp] theorem writeElement_readData (g : Field) (e : Nat) (v : Word) (s : State) :
    (writeElement g e v s).readData = s.readData :=
  rfl

@[simp] theorem writeElement_epoch (g : Field) (e : Nat) (v : Word) (s : State) :
    (writeElement g e v s).epoch = s.epoch :=
  rfl

/-! ### withFetchWord -/

@[simp] theorem withFetchWord_params (nbits w : Nat) (s : State) :
    (s.withFetchWord nbits w).params = s.params :=
  rfl

@[simp] theorem withFetchWord_data (nbits w : Nat) (s : State) :
    (s.withFetchWord nbits w).data = s.data :=
  rfl

@[simp] theorem withFetchWord_status (nbits w : Nat) (s : State) :
    (s.withFetchWord nbits w).status = s.status :=
  rfl

@[simp] theorem withFetchWord_result (nbits w : Nat) (s : State) :
    (s.withFetchWord nbits w).result = s.result :=
  rfl

@[simp] theorem withFetchWord_crc (nbits w : Nat) (s : State) :
    (s.withFetchWord nbits w).crc = s.crc :=
  rfl

@[simp] theorem withFetchWord_consumed (nbits w : Nat) (s : State) :
    (s.withFetchWord nbits w).consumed = s.consumed :=
  rfl

@[simp] theorem withFetchWord_examined (nbits w : Nat) (s : State) :
    (s.withFetchWord nbits w).examined = s.examined :=
  rfl

@[simp] theorem withFetchWord_outLen (nbits w : Nat) (s : State) :
    (s.withFetchWord nbits w).outLen = s.outLen :=
  rfl

@[simp] theorem withFetchWord_out (nbits w : Nat) (s : State) :
    (s.withFetchWord nbits w).out = s.out :=
  rfl

@[simp] theorem withFetchWord_init (nbits w : Nat) (s : State) :
    (s.withFetchWord nbits w).init = s.init :=
  rfl

@[simp] theorem withFetchWord_cat (nbits w : Nat) (s : State) :
    (s.withFetchWord nbits w).cat = s.cat :=
  rfl

@[simp] theorem withFetchWord_frame (nbits w : Nat) (s : State) :
    (s.withFetchWord nbits w).frame = s.frame :=
  rfl

@[simp] theorem withFetchWord_inMem (nbits w : Nat) (s : State) :
    (s.withFetchWord nbits w).inMem = s.inMem :=
  rfl

@[simp] theorem withFetchWord_idList (nbits w : Nat) (s : State) :
    (s.withFetchWord nbits w).idList = s.idList :=
  rfl

@[simp] theorem withFetchWord_sch (nbits w : Nat) (s : State) :
    (s.withFetchWord nbits w).sch = s.sch :=
  rfl

@[simp] theorem withFetchWord_readData (nbits w : Nat) (s : State) :
    (s.withFetchWord nbits w).readData = s.readData :=
  rfl

@[simp] theorem withFetchWord_epoch (nbits w : Nat) (s : State) :
    (s.withFetchWord nbits w).epoch = s.epoch :=
  rfl

/-! ### platformReset -/

@[simp] theorem platformReset_params (s : State) : (platformReset s).params = s.params :=
  rfl

@[simp] theorem platformReset_port (s : State) : (platformReset s).port = s.port :=
  rfl

@[simp] theorem platformReset_readData (s : State) : (platformReset s).readData = s.readData :=
  rfl

/-- The frame registers that FIELD_WRITE leaves: PAYLOAD alone is written (R206). -/
@[simp] theorem writeElement_frame (g : Field) (e : Nat) (v : Word) (s : State) :
    (writeElement g e v s).frame =
      { s.frame with
        payload :=
          memWrite s.frame.payload (elementAddress g e) g.size (v.toNat % 2 ^ (8 * g.size)) } :=
  rfl

@[simp] theorem withFetchWord_port (nbits w : Nat) (s : State) :
    (s.withFetchWord nbits w).port =
      .write .b64 0 (BitVec.ofNat 64 (w % 2 ^ nbits)) :: s.port :=
  rfl

@[simp] theorem platformReset_frame (s : State) : (platformReset s).frame = Frame.zero :=
  rfl

@[simp] theorem platformReset_epoch (s : State) : (platformReset s).epoch = s.epoch + 1 :=
  rfl

end Sys2Proof.Machine
end

