-- ==== Sys2Proof/Laws/Ops.lean ====
section
/-! SUPPORT. What the shared operations do, said once each: the sparse memories and their canonical
form, byte order, the byte windows, and the guards of `60_exceptions.md` rule R303. Proofs about
commands cite these instead of unfolding the operations. -/

namespace Sys2Proof.Machine

/-! ### Sparse memories -/

section Cells

variable {α : Type}

@[simp] theorem read?_nil (k : Nat) : Cells.read? ([] : Cells α) k = none :=
  rfl

theorem read?_cons (j : Nat) (x : α) (m : Cells α) (k : Nat) :
    Cells.read? ((j, x) :: m) k = if j = k then some x else Cells.read? m k :=
  rfl

/-- A read after a write to the same key gives the data written; at every other key it gives what it
gave before. -/
theorem read?_write (k : Nat) (x : α) (m : Cells α) (i : Nat) :
    Cells.read? (Cells.write k x m) i = if k = i then some x else Cells.read? m i := by
  induction m with
  | nil => simp [Cells.write, read?_cons]
  | cons c m ih =>
    obtain ⟨j, y⟩ := c
    simp only [Cells.write]
    split
    · simp [read?_cons]
    · split
      · subst_vars
        simp only [read?_cons]
        split <;> rfl
      · simp only [read?_cons, ih]
        split <;> split <;> first | rfl | omega

/-- Changing all data keeps the keys. -/
theorem read?_mapData (f : Nat → α → α) (m : Cells α) (k : Nat) :
    Cells.read? (Cells.mapData f m) k = (Cells.read? m k).map (f k) := by
  induction m with
  | nil => rfl
  | cons c m ih =>
    obtain ⟨j, y⟩ := c
    simp only [Cells.mapData, List.map_cons, read?_cons] at ih ⊢
    rw [ih]
    split
    · subst_vars; rfl
    · rfl

/-- The canonical form as a relation between any two entries. -/
theorem rising_iff (m : Cells α) :
    Cells.rising m = true ↔ (m.map (fun c => c.1)).Pairwise (fun a b => a < b) := by
  induction m with
  | nil => simp [Cells.rising]
  | cons c m ih =>
    obtain ⟨j, y⟩ := c
    cases m with
    | nil => simp [Cells.rising]
    | cons d m =>
      obtain ⟨k, z⟩ := d
      simp only [Cells.rising, Bool.and_eq_true, decide_eq_true_eq, ih, List.map_cons,
        List.pairwise_cons]
      constructor
      · rintro ⟨hjk, h1, h2⟩
        refine ⟨?_, h1, h2⟩
        intro a ha
        rcases List.mem_cons.mp ha with rfl | ha
        · exact hjk
        · exact lt_trans hjk (h1 a ha)
      · rintro ⟨h0, h1, h2⟩
        exact ⟨h0 k (by simp), h1, h2⟩

/-- The keys after a write: the old ones and the key written. -/
theorem mem_keys_write (k : Nat) (x : α) (m : Cells α) (a : Nat) :
    a ∈ (Cells.write k x m).map (fun c => c.1) ↔ a = k ∨ a ∈ m.map (fun c => c.1) := by
  induction m with
  | nil => simp [Cells.write]
  | cons c m ih =>
    obtain ⟨j, y⟩ := c
    simp only [Cells.write]
    split
    · simp
    · split
      · subst_vars; simp
      · simp only [List.map_cons, List.mem_cons, ih]
        tauto

/-- A write keeps the keys strictly rising. -/
theorem rising_write (k : Nat) (x : α) (m : Cells α) (h : Cells.rising m = true) :
    Cells.rising (Cells.write k x m) = true := by
  rw [rising_iff] at h ⊢
  induction m with
  | nil => simp [Cells.write]
  | cons c m ih =>
    obtain ⟨j, y⟩ := c
    simp only [List.map_cons, List.pairwise_cons] at h
    simp only [Cells.write]
    split
    · rename_i hk
      simp only [List.map_cons, List.pairwise_cons, List.mem_cons]
      refine ⟨?_, h⟩
      rintro a (rfl | ha)
      · exact hk
      · exact lt_trans hk (h.1 a ha)
    · split
      · subst_vars
        simpa using h
      · simp only [List.map_cons, List.pairwise_cons]
        refine ⟨?_, ih h.2⟩
        intro a ha
        rcases (mem_keys_write k x m a).mp ha with rfl | ha
        · omega
        · exact h.1 a ha

/-- Changing all data keeps the keys strictly rising. -/
theorem rising_mapData (f : Nat → α → α) (m : Cells α) (h : Cells.rising m = true) :
    Cells.rising (Cells.mapData f m) = true := by
  rw [rising_iff] at h ⊢
  have hk : (Cells.mapData f m).map (fun c => c.1) = m.map (fun c => c.1) := by
    simp [Cells.mapData]
  rwa [hk]

/-- The canonical form of a memory, spelled out. -/
theorem wf_iff (cap : Nat) (m : Cells α) :
    Memory.wf cap m = true ↔ Cells.rising m = true ∧ ∀ a ∈ m.map (fun c => c.1), a < cap := by
  simp [Memory.wf]

/-- EVERY MEMORY OPERATION KEEPS THE CANONICAL FORM: a write inside the memory. -/
theorem wf_write {cap k : Nat} (x : α) {m : Cells α} (hk : k < cap)
    (h : Memory.wf cap m = true) : Memory.wf cap (Cells.write k x m) = true := by
  rw [wf_iff] at h ⊢
  refine ⟨rising_write k x m h.1, ?_⟩
  intro a ha
  rcases (mem_keys_write k x m a).mp ha with rfl | ha
  · exact hk
  · exact h.2 a ha

/-- EVERY MEMORY OPERATION KEEPS THE CANONICAL FORM: a change of all data. -/
theorem wf_mapData {cap : Nat} (f : Nat → α → α) {m : Cells α} (h : Memory.wf cap m = true) :
    Memory.wf cap (Cells.mapData f m) = true := by
  rw [wf_iff] at h ⊢
  refine ⟨rising_mapData f m h.1, ?_⟩
  have hk : (Cells.mapData f m).map (fun c => c.1) = m.map (fun c => c.1) := by
    simp [Cells.mapData]
  rw [hk]
  exact h.2

/-- In the canonical form a key stands at most once: what an entry of the list holds is what a read of
its key gives. -/
theorem read?_of_mem {m : Cells α} (h : Cells.rising m = true) {k : Nat} {x : α}
    (hm : (k, x) ∈ m) : Cells.read? m k = some x := by
  rw [rising_iff] at h
  induction m with
  | nil => simp at hm
  | cons c m ih =>
    obtain ⟨j, y⟩ := c
    simp only [List.map_cons, List.pairwise_cons] at h
    rcases List.mem_cons.mp hm with heq | hm
    · cases heq
      simp [read?_cons]
    · have hj : j < k := h.1 k (List.mem_map.mpr ⟨(k, x), hm, rfl⟩)
      rw [read?_cons, if_neg (by omega)]
      exact ih h.2 hm

/-- What a read gives stands in the list. -/
theorem mem_of_read? {m : Cells α} {k : Nat} {x : α} (h : Cells.read? m k = some x) :
    (k, x) ∈ m := by
  induction m with
  | nil => simp at h
  | cons c m ih =>
    obtain ⟨j, y⟩ := c
    rw [read?_cons] at h
    split at h
    · cases h; subst_vars; simp
    · exact List.mem_cons_of_mem _ (ih h)

end Cells

/-! ### The memories of the machine -/

/-- Both memories are in their canonical form: IN within IN_CAP, IDLIST within IDL_CAP. -/
def MemoriesWf (s : State) : Prop :=
  Memory.wf s.params.inCap s.inMem = true ∧ Memory.wf s.params.idlCap s.idList = true

/-- The memories of the reset state have the canonical form. -/
theorem memoriesWf_reset : MemoriesWf State.reset := by
  simp [MemoriesWf, Memory.wf, State.reset, Cells.rising]

/-- A place of IN or IDLIST lies inside its memory, as `placeOf` finds it. -/
theorem placeOf_input {p : Params} {off i : Nat} (h : placeOf p off = .input i) : i < p.inCap := by
  unfold placeOf at h
  repeat' split at h
  all_goals first
    | simp only [reduceCtorEq] at h
    | (simp only [Place.input.injEq] at h; omega)

theorem placeOf_idList {p : Params} {off j : Nat} (h : placeOf p off = .idList j) :
    j < p.idlCap := by
  unfold placeOf at h
  repeat' split at h
  all_goals first
    | simp only [reduceCtorEq] at h
    | (simp only [Place.idList.injEq] at h; omega)

/-- EVERY MEMORY OPERATION KEEPS THE CANONICAL FORM: a host write at any offset. -/
theorem memoriesWf_writePlace {s : State} (v : Word) (off : Nat) (h : MemoriesWf s) :
    MemoriesWf (s.writePlace v (placeOf s.params off)) := by
  generalize hp : placeOf s.params off = place
  cases place with
  | reg r => cases r <;> exact h
  | input i => exact ⟨wf_write _ (placeOf_input hp) h.1, h.2⟩
  | idList j => exact ⟨h.1, wf_write _ (placeOf_idList hp) h.2⟩
  | sig i => exact h
  | payload i => exact h
  | out i => exact h
  | unmapped => exact h

/-- EVERY MEMORY OPERATION KEEPS THE CANONICAL FORM: reset. -/
theorem memoriesWf_platformReset (s : State) : MemoriesWf (platformReset s) := by
  simp [MemoriesWf, Memory.wf, platformReset, State.reset, Cells.rising]

/-- `IN[i]` after a host write to `IN[a]`. -/
theorem readIn_writeIn (s : State) (a : Nat) (b : Byte) (i : Nat) :
    (s.writeIn a b).readIn i = if a = i then b else s.readIn i := by
  simp only [State.readIn, writeIn_inMem, writeIn_epoch, read?_write]
  split <;> rfl

/-- `IDLIST[j]` after a host write to `IDLIST[a]`. -/
theorem readId_writeId (s : State) (a : Nat) (x : MsgId) (j : Nat) :
    (s.writeId a x).readId j = if a = j then x else s.readId j := by
  simp only [State.readId, writeId_idList, writeId_epoch, read?_write]
  split <;> rfl

/-! ### Byte order -/

@[simp] theorem le_nil : le [] = 0 :=
  rfl

@[simp] theorem le_cons (b : Byte) (bs : List Byte) : le (b :: bs) = b.toNat + 256 * le bs :=
  rfl

@[simp] theorem bytesLe_length (n v : Nat) : (bytesLe n v).length = n := by
  induction n generalizing v with
  | zero => rfl
  | succ n ih => simp [bytesLe, ih]

/-- Little-endian bytes read back give the value modulo 2^(8n) (R10). -/
theorem le_bytesLe (n v : Nat) : le (bytesLe n v) = v % 2 ^ (8 * n) := by
  induction n generalizing v with
  | zero => simp [bytesLe, Nat.mod_one]
  | succ n ih =>
    have h : 2 ^ (8 * (n + 1)) = 256 * 2 ^ (8 * n) := by
      rw [show 8 * (n + 1) = 8 + 8 * n by ring, pow_add]; norm_num
    rw [h, Nat.mod_mul]
    simp [bytesLe, ih]

/-- A little-endian number of k bytes is below 2^(8k). -/
theorem le_lt (bs : List Byte) : le bs < 2 ^ (8 * bs.length) := by
  induction bs with
  | nil => simp
  | cons b bs ih =>
    have h : 2 ^ (8 * (bs.length + 1)) = 256 * 2 ^ (8 * bs.length) := by
      rw [show 8 * (bs.length + 1) = 8 + 8 * bs.length by ring, pow_add]; norm_num
    have hb := b.isLt
    simp only [le_cons, List.length_cons]
    omega

/-- Byte i of the little-endian bytes of v is bits [8i+7:8i] of v. -/
theorem bytesLe_getD (n v i : Nat) (h : i < n) :
    (bytesLe n v).getD i 0 = BitVec.ofNat 8 (v / 256 ^ i) := by
  induction n generalizing v i with
  | zero => omega
  | succ n ih =>
    cases i with
    | zero => simp [bytesLe]
    | succ i =>
      have := ih (v / 256) i (by omega)
      simp only [bytesLe, List.getD_cons_succ, this, Nat.div_div_eq_div_mul, pow_succ]
      rw [Nat.mul_comm]

/-! ### Byte windows -/

/-- Byte i of a window given byte by byte. -/
theorem byteAt_tabulate (n : Nat) (f : Nat → Byte) (i : Nat) :
    byteAt (Bytes.tabulate n f) i = if i < n then f i else 0 := by
  by_cases h : i < n
  · simp [byteAt, Bytes.tabulate, h]
  · simp [byteAt, h]

/-- Byte i of a window filled from a list: the list's byte, and zero after it. -/
theorem byteAt_ofList (n : Nat) (l : List Byte) (i : Nat) :
    byteAt (Bytes.ofList n l) i = if i < n then l.getD i 0 else 0 :=
  byteAt_tabulate n _ i

/-- Beyond its end a window reads 0. -/
theorem byteAt_beyond {n : Nat} (x : Vector Byte n) {i : Nat} (h : n ≤ i) : byteAt x i = 0 := by
  simp [byteAt, h]

/-- Two windows with the same bytes are equal. -/
theorem window_ext {n : Nat} {x y : Vector Byte n} (h : ∀ i < n, byteAt x i = byteAt y i) :
    x = y := by
  apply Vector.ext
  intro i hi
  have := h i hi
  simpa [byteAt, hi] using this

/-- A window of zeros reads 0 everywhere. -/
@[simp] theorem byteAt_zeros (n i : Nat) : byteAt (Vector.replicate n 0#8) i = 0#8 := by
  by_cases h : i < n
  · simp [byteAt, h]
  · exact byteAt_beyond _ (by omega)

/-- MemWrite, byte by byte: the k bytes from a are the little-endian bytes of v, every other byte is as
before (R12, R202). -/
theorem byteAt_memWrite {n : Nat} (x : Vector Byte n) (a k v i : Nat) :
    byteAt (memWrite x a k v) i =
      if i < n ∧ a ≤ i ∧ i < a + k then BitVec.ofNat 8 (v / 256 ^ (i - a)) else byteAt x i := by
  rw [memWrite, byteAt_tabulate]
  by_cases hn : i < n
  · by_cases ha : a ≤ i ∧ i < a + k
    · rw [if_pos hn, if_pos ha, if_pos ⟨hn, ha⟩, bytesLe_getD k v (i - a) (by omega)]
    · simp [hn, ha]
  · simp [hn, byteAt_beyond x (show n ≤ i by omega)]

@[simp] theorem slice_length {n : Nat} (x : Vector Byte n) (a b : Nat) :
    (slice x a b).length = b - a := by
  simp [slice]

/-- A slice, byte by byte. -/
theorem slice_getD {n : Nat} (x : Vector Byte n) (a b j : Nat) (h : j < b - a) :
    (slice x a b).getD j 0 = byteAt x (a + j) := by
  simp [slice, List.getD_eq_getElem?_getD, h]

/-- Two windows that agree on `[a, b)` have the same slice there. -/
theorem slice_congr {n m : Nat} {x : Vector Byte n} {y : Vector Byte m} {a b : Nat}
    (h : ∀ i, a ≤ i → i < b → byteAt x i = byteAt y i) : slice x a b = slice y a b := by
  unfold slice
  apply List.map_congr_left
  intro j hj
  have := List.mem_range.mp hj
  exact h _ (by omega) (by omega)

/-- Windows that agree on the element's bytes hold the same number there. -/
theorem memRead_congr {n m : Nat} {x : Vector Byte n} {y : Vector Byte m} {a k : Nat}
    (h : ∀ i, a ≤ i → i < a + k → byteAt x i = byteAt y i) : memRead x a k = memRead y a k := by
  unfold memRead
  rw [slice_congr h]

/-! ### Prefixes of IN and IDLIST -/

@[simp] theorem inPrefix_length (s : State) (n : Nat) : (s.inPrefix n).length = n := by
  simp [State.inPrefix]

theorem inPrefix_getD (s : State) (n i : Nat) (h : i < n) : (s.inPrefix n).getD i 0 = s.readIn i := by
  simp [State.inPrefix, List.getD_eq_getElem?_getD, h]

@[simp] theorem idPrefix_length (s : State) (m : Nat) : (s.idPrefix m).length = m := by
  simp [State.idPrefix]

theorem mem_idPrefix (s : State) (m : Nat) (x : MsgId) :
    x ∈ s.idPrefix m ↔ ∃ j < m, s.readId j = x := by
  simp [State.idPrefix]

/-! ### How a command ends, and its guards (R302, R303) -/

theorem raise_eq (e : Err) (s : State) : raise e s = .next { s with status := statusOf e } :=
  rfl

theorem succeed_eq (s : State) : succeed s = .next { s with status := { ok := true, err := 0 } } :=
  rfl

theorem withInCount_le {n : Count} {s : State} (run : List Byte → Out)
    (h : n.toNat ≤ s.params.inCap) : withInCount n s run = run (s.inPrefix n.toNat) := by
  simp [withInCount, Params.inCountOk, h]

theorem withInCount_gt {n : Count} {s : State} (run : List Byte → Out)
    (h : s.params.inCap < n.toNat) : withInCount n s run = raise .illegalCommand s := by
  simp [withInCount, Params.inCountOk, h]

theorem withIdCount_le {m : Count} {s : State} (run : List MsgId → Out)
    (h : m.toNat ≤ s.params.idlCap) : withIdCount m s run = run (s.idPrefix m.toNat) := by
  simp [withIdCount, Params.idlCountOk, h]

theorem withIdCount_gt {m : Count} {s : State} (run : List MsgId → Out)
    (h : s.params.idlCap < m.toNat) : withIdCount m s run = raise .illegalCommand s := by
  simp [withIdCount, Params.idlCountOk, h]

/-- Everything a counted command over IN can do. -/
theorem withInCount_cases (n : Count) (s : State) (run : List Byte → Out) :
    (n.toNat ≤ s.params.inCap ∧ withInCount n s run = run (s.inPrefix n.toNat)) ∨
      (s.params.inCap < n.toNat ∧ withInCount n s run = raise .illegalCommand s) := by
  rcases Nat.lt_or_ge s.params.inCap n.toNat with h | h
  · exact .inr ⟨h, withInCount_gt run h⟩
  · exact .inl ⟨h, withInCount_le run h⟩

/-- Everything a counted command over IDLIST can do. -/
theorem withIdCount_cases (m : Count) (s : State) (run : List MsgId → Out) :
    (m.toNat ≤ s.params.idlCap ∧ withIdCount m s run = run (s.idPrefix m.toNat)) ∨
      (s.params.idlCap < m.toNat ∧ withIdCount m s run = raise .illegalCommand s) := by
  rcases Nat.lt_or_ge s.params.idlCap m.toNat with h | h
  · exact .inr ⟨h, withIdCount_gt run h⟩
  · exact .inl ⟨h, withIdCount_le run h⟩

/-- Everything a command that needs the catalog can do. -/
theorem whenInit_cases (s : State) (run : Out) :
    (s.init = true ∧ whenInit s run = run) ∨
      (s.init = false ∧ whenInit s run = raise .notInitialized s) := by
  cases h : s.init
  · exact .inr ⟨rfl, by simp [whenInit, h]⟩
  · exact .inl ⟨rfl, by simp [whenInit, h]⟩

/-- Everything a command that needs a frame can do. -/
theorem whenFrame_cases (s : State) (run : Out) :
    (s.init = true ∧ s.frame.valid = true ∧ whenFrame s run = run) ∨
      (s.init = false ∧ whenFrame s run = raise .notInitialized s) ∨
      (s.init = true ∧ s.frame.valid = false ∧ whenFrame s run = raise .noFrame s) := by
  cases h : s.init <;> cases hv : s.frame.valid <;> simp [whenFrame, whenInit, h, hv]

/-- Everything a command on the entry of the frame held can do. -/
theorem withFrameEntry_cases (s : State) (run : Entry → Out) :
    (∃ e, s.init = true ∧ s.frame.valid = true ∧ s.catEntry s.frame.msgId = some e ∧
        withFrameEntry s run = run e) ∨
      (s.init = true ∧ s.frame.valid = true ∧ s.catEntry s.frame.msgId = none ∧
        withFrameEntry s run = .fault .frameWithoutSchema) ∨
      (s.init = false ∧ withFrameEntry s run = raise .notInitialized s) ∨
      (s.init = true ∧ s.frame.valid = false ∧ withFrameEntry s run = raise .noFrame s) := by
  cases h : s.init <;> cases hv : s.frame.valid <;> cases he : s.catEntry s.frame.msgId <;>
    simp [withFrameEntry, whenFrame, whenInit, h, hv, he]

/-! ### The port -/

/-- The host's write of a word to CMD, at the head of the port, is the command the step runs. -/
theorem fetch_withFetchWord (s : State) (w : Word) :
    fetch (s.withFetchWord 64 w.toNat) = .command w s := by
  have hw : BitVec.ofNat 64 (w.toNat % 2 ^ 64) = w := by
    apply BitVec.eq_of_toNat_eq
    simp [Nat.mod_eq_of_lt w.isLt]
  unfold fetch State.withFetchWord
  rw [hw]
  rfl

/-- What the next access leaves besides its own effect: it is gone from the port. -/
theorem fetch_cons {s : State} {a : HostAccess} {rest : List HostAccess} (h : s.port = a :: rest) :
    fetch s = serve a { s with port := rest } := by
  simp [fetch, h]

/-- What an access R32 admits is: aligned, of its place's width, or of one of R32's three widths where
the place is reserved (R49, log entry 6). -/
theorem accessOk_iff (p : Params) (w : Width) (off : Nat) :
    accessOk p w off = true ↔
      off % w.bytes = 0 ∧
        match (placeOf p off).width? with
        | some w' => w = w'
        | none => w ≠ .b16 := by
  unfold accessOk
  cases (placeOf p off).width? <;> simp

/-- No place admits 16 bits (R32, R49). -/
@[simp] theorem accessOk_b16 (p : Params) (off : Nat) : accessOk p .b16 off = false := by
  unfold accessOk
  cases placeOf p off <;> simp [Place.width?]

/-- `FieldValue(k)` of a frame held (R207). -/
theorem fieldValue?_eq {s : State} {en : Entry} {f : Field} {k : Byte} (hv : s.frame.valid = true)
    (he : s.catEntry s.frame.msgId = some en) (hf : en.fields[k.toNat]? = some f) :
    s.fieldValue? k =
      some
        { kind := f.kind
          arrayLength := f.arrayLength
          elements := (List.range f.elements).map (rawElement s.frame.payload f) } := by
  simp [State.fieldValue?, hv, he, hf]

/-- The byte of an arrayLength that fits a byte has its value (R166). -/
theorem arrayLengthByte_toNat {n : Nat} (h : n < 256) : (arrayLengthByte n).toNat = n := by
  rw [arrayLengthByte, if_pos h, BitVec.toNat_ofNat, Nat.mod_eq_of_lt h]

end Sys2Proof.Machine
end

