-- ==== Sys2Proof/Laws/Frames.lean ====
section
/-! SUPPORT. What the candidate procedure and the serializer's helpers do, said once each
(`43_parser.md`, `44_serializer.md`), in the terms of `Safety.lean`. -/

namespace Sys2Proof.Machine

/-! ### Markers and headers -/

/-- Which byte is a marker of which version (R220). -/
theorem markerVersion?_iff (x : Byte) (v : Version) :
    markerVersion? x = some v ↔ (v = .v1 ∧ x = 0xFE#8) ∨ (v = .v2 ∧ x = 0xFD#8) := by
  unfold markerVersion?
  by_cases h1 : x = stxOf .v1
  · rw [if_pos h1]
    subst h1
    cases v <;> simp [stxOf]
  · rw [if_neg h1]
    by_cases h2 : x = stxOf .v2
    · rw [if_pos h2]
      subst h2
      cases v <;> simp [stxOf]
    · rw [if_neg h2]
      simp only [stxOf] at h1 h2
      cases v <;> simp [h1, h2]

/-- A marker at an index, by `markerVersion?`. -/
theorem markerAt_iff (buf : List Byte) (i : Nat) (v : Version) :
    MarkerAt buf i v ↔ ∃ x, buf[i]? = some x ∧ markerVersion? x = some v := by
  unfold MarkerAt
  simp only [markerVersion?_iff]
  aesop

/-- The two tables of header lengths agree (R113). -/
theorem headerLength_eq (v : Version) : headerLength v = headerBytesOf v := by cases v <;> rfl

/-- LEN of a candidate is its second byte (R111, R112). -/
@[simp] theorem headerFrame_len (v : Version) (b : List Byte) :
    (headerFrame v b).len = b.getD 1 0 := by cases v <;> rfl

/-- VER of a candidate is its marker's. -/
@[simp] theorem headerFrame_ver (v : Version) (b : List Byte) : (headerFrame v b).ver = v := by
  cases v <;> rfl

/-- A candidate's frame is to be VALID. -/
@[simp] theorem headerFrame_valid (v : Version) (b : List Byte) :
    (headerFrame v b).valid = true := by cases v <;> rfl

/-- A header gives no signature. -/
@[simp] theorem headerFrame_hasSig (v : Version) (b : List Byte) :
    (headerFrame v b).hasSig = false := by cases v <;> rfl

/-- A header gives no signature bytes. -/
@[simp] theorem headerFrame_sig (v : Version) (b : List Byte) :
    (headerFrame v b).sig = Vector.replicate 13 0 := by cases v <;> rfl

/-- MSGID of a candidate (R111, R112). -/
theorem headerFrame_msgId (v : Version) (b : List Byte) :
    (headerFrame v b).msgId.toNat = candidateId v b := by
  cases v
  · simp only [headerFrame, candidateId]
    have := (b.getD 5 0).isLt
    simp only [BitVec.toNat_ofNat]
    omega
  · simp only [headerFrame, candidateId, le_cons, le_nil]
    have := (b.getD 7 0).isLt
    have := (b.getD 8 0).isLt
    have := (b.getD 9 0).isLt
    simp only [BitVec.toNat_ofNat]
    omega

/-- When a candidate is signed (R115). -/
theorem headerFrame_signed (v : Version) (b : List Byte) :
    ((headerFrame v b).ver = .v2 ∧ signedBit (headerFrame v b).incompat = true) ↔
      candidateSigned v b = true := by
  cases v
  · simp [headerFrame, candidateSigned, Frame.zero]
  · simp [headerFrame, candidateSigned, signedBit, BitVec.getLsbD, Nat.testBit_zero]

/-! ### Checksums -/

/-- A byte of a portion. -/
theorem portion_getD (b : List Byte) (a k i : Nat) (h : i < k) :
    (portion b a k).getD i 0 = b.getD (a + i) 0 := by
  simp [portion, List.getD_eq_getElem?_getD, h, List.getElem?_drop]

/-- The checksum a candidate carries (R227). -/
theorem le_portion_checksum (v : Version) (b : List Byte) (h : candidateBytes v b ≤ b.length) :
    le (portion b (headerLength v + (b.getD 1 0).toNat) 2) = wireChecksum v b := by
  rw [headerLength_eq]
  unfold wireChecksum
  unfold candidateBytes at *
  generalize headerBytesOf v + (b.getD 1 0).toNat = q at *
  have hs : portion b q 2 = [b.getD q 0, b.getD (q + 1) 0] := by
    apply List.ext_getElem?
    intro i
    simp only [portion, List.getElem?_take, List.getElem?_drop]
    match i with
    | 0 => rw [if_pos (by omega)]; simp; rw [List.getElem?_eq_getElem (by omega)]; rfl
    | 1 => rw [if_pos (by omega)]; simp; rw [List.getElem?_eq_getElem (by omega)]; rfl
    | i + 2 => simp
  rw [hs]
  simp only [le_cons, le_nil]
  rw [show q + 2 - 2 = q by omega, show q + 2 - 1 = q + 1 by omega]
  omega

/-- The checksum on the wire has 16 bits. -/
theorem wireChecksum_lt (v : Version) (b : List Byte) : wireChecksum v b < 65536 := by
  unfold wireChecksum
  have := (b.getD (candidateBytes v b - 2) 0).isLt
  have := (b.getD (candidateBytes v b - 1) 0).isLt
  omega

/-- The test of step 7 (R228), in numbers. -/
theorem frameChecksum_eq_iff (x : Byte) (v : Version) (b : List Byte)
    (h : candidateBytes v b ≤ b.length) :
    frameChecksum x (portion b 1 (headerLength v + (b.getD 1 0).toNat - 1)) =
        BitVec.ofNat 16 (le (portion b (headerLength v + (b.getD 1 0).toNat) 2)) ↔
      computedChecksum x v b = wireChecksum v b := by
  rw [le_portion_checksum v b h]
  have e : candidateBytes v b - 3 = headerLength v + (b.getD 1 0).toNat - 1 := by
    rw [headerLength_eq]
    unfold candidateBytes
    omega
  unfold frameChecksum computedChecksum portion
  rw [e, ← BitVec.toNat_inj]
  simp only [BitVec.toNat_ofNat]
  rw [Nat.mod_eq_of_lt (wireChecksum_lt v b)]

/-! ### The candidate procedure -/

/-- Steps 1 and 2: bytes are missing (R222, R223). -/
theorem tryCandidate_short (cat : Cells Entry) (m : Mode) (v : Version) (b : List Byte)
    (h : b.length < candidateBytes v b) : tryCandidate cat m v b = m.lacking .frameTooShort := by
  unfold tryCandidate
  unfold candidateBytes at h
  rw [headerLength_eq]
  by_cases h2 : b.length < headerBytesOf v + 2
  · rw [if_pos h2]
  · rw [if_neg h2, if_pos h]

/-- Steps 1 and 2: all the bytes announced are there. -/
theorem tryCandidate_whole (cat : Cells Entry) (m : Mode) (v : Version) (b : List Byte)
    (h : candidateBytes v b ≤ b.length) : tryCandidate cat m v b = tryBody cat m v b := by
  unfold tryCandidate
  unfold candidateBytes at h
  rw [headerLength_eq, if_neg (by omega), if_neg (by omega)]

/-- The frame that steps 3 to 7 give (R221). -/
def bodyFrame (v : Version) (b : List Byte) : Frame :=
  { headerFrame v b with
    cksum := BitVec.ofNat 16 (wireChecksum v b)
    payload := Bytes.ofList 255 (portion b (headerLength v) (b.getD 1 0).toNat) }

/-- Steps 3 to 8 of the candidate procedure (R221). -/
theorem tryBody_eq (cat : Cells Entry) (m : Mode) (v : Version) (b : List Byte)
    (h : candidateBytes v b ≤ b.length) :
    tryBody cat m v b =
      match Cells.read? cat (candidateId v b) with
      | none => .fail .messageNotFound
      | some e =>
        if e.included = false then .fail .messageExcluded
        else if (e.limit v).toNat < (b.getD 1 0).toNat then .fail .payloadLengthInvalid
        else if computedChecksum e.crcExtra v b ≠ wireChecksum v b then .fail .badChecksum
        else if candidateSigned v b = true then
          if b.length < candidateBytes v b + 13 then m.lacking .signatureLengthInvalid
          else
            .ok
              { bodyFrame v b with
                hasSig := true
                sig := Bytes.ofList 13 (portion b (candidateBytes v b) 13) }
              (candidateBytes v b + 13)
        else .ok (bodyFrame v b) (candidateBytes v b) := by
  unfold tryBody
  simp only [headerFrame_msgId, headerFrame_len]
  cases Cells.read? cat (candidateId v b) with
  | none => rfl
  | some e =>
    by_cases hi : e.included = true
    · simp only [hi, not_true, if_false, Bool.true_eq_false]
      by_cases hl : (e.limit v).toNat < (b.getD 1 0).toNat
      · rw [if_pos hl, if_pos hl]
      · rw [if_neg hl, if_neg hl]
        by_cases hc : computedChecksum e.crcExtra v b = wireChecksum v b
        · have := (frameChecksum_eq_iff e.crcExtra v b h).mpr hc
          rw [if_neg (not_not.mpr this), if_neg (not_not.mpr hc)]
          unfold trySignature
          have hcb : headerLength v + (b.getD 1 0).toNat + 2 = candidateBytes v b := by
            rw [headerLength_eq]
            rfl
          rw [hcb, le_portion_checksum v b h]
          simp only [headerFrame_signed]
          by_cases hs : candidateSigned v b = true
          · rw [if_pos hs, if_pos hs]
            by_cases h13 : b.length < candidateBytes v b + 13
            · rw [if_pos h13, if_pos (by omega)]
            · rw [if_neg h13, if_neg (by omega)]
              cases v <;> rfl
          · rw [if_neg hs, if_neg hs]
            cases v <;> rfl
        · rw [if_pos (fun hh => hc ((frameChecksum_eq_iff e.crcExtra v b h).mp hh)), if_pos hc]
    · simp [hi]

/-- RESULT of a successful parse as a sum (R119). -/
theorem parseWord_eq (a b : Nat) (h : b < 65536) :
    parseWord a b = BitVec.ofNat 64 (a * 65536 + b) := by
  unfold parseWord
  congr 1
  have := Nat.shiftLeft_add_eq_or_of_lt (i := 16) (b := b) (by omega) a
  rw [← this, Nat.shiftLeft_eq]

/-! ### The serializer -/

/-- Trimming does not lengthen (R262). -/
theorem trimmed_le (p : Vector Byte 255) (m : Nat) : trimmed p m ≤ m := by
  induction m with
  | zero => simp [trimmed]
  | succ m ih =>
    cases m with
    | zero => simp [trimmed]
    | succ m =>
      simp only [trimmed]
      split <;> omega

/-- The emitted length is within the version's limit (R262). -/
theorem emittedLength_le (trim : Bool) (e : Entry) (f : Frame) :
    emittedLength trim e f ≤ (e.limit f.ver).toNat := by
  unfold emittedLength
  cases f.ver <;> simp only [Entry.limit]
  · exact le_refl _
  · split
    · exact trimmed_le _ _
    · exact le_refl _

/-- The length of a serialized frame (R265). -/
theorem frameBytes_length (e : Entry) (f : Frame) (ln : Nat) :
    (frameBytes e f ln).length = headerLength f.ver + ln + 2 := by
  unfold frameBytes headerBytes headerLength
  cases f.ver <;> simp <;> omega

end Sys2Proof.Machine
end

