-- ==== Sys2Proof/Laws/PerInstr.lean ====
section
/-! SUPPORT. Statements made per instruction. The family `TableRow` says of a command that its encoding
fits its row of `spec/opcode_table.json`: the bits under the row's mask are the row's match. -/

namespace Sys2Proof.Laws.TableRow

/-- The row's `mask` in the opcode table. -/
def mask : Instr → Word
  | .crcSeed => 0xFFFFFFFFFFFFFFFF#64
  | .crcLoad _ => 0xFFFFFFFFFF0000FF#64
  | .crcAcc _ => 0xFFFFFFFFFFFF00FF#64
  | .crcCalc _ => 0xFFFFFFFFFF0000FF#64
  | .catInit _ => 0xFFFFFFFFFF0000FF#64
  | .catInclude _ => 0xFFFFFFFFFF0000FF#64
  | .catExclude _ => 0xFFFFFFFFFF0000FF#64
  | .catLookup _ => 0xFFFFFFFF000000FF#64
  | .catField _ _ => 0xFFFFFF00000000FF#64
  | .parse _ => 0xFFFFFFFFFF0000FF#64
  | .parseStream _ => 0xFFFFFFFFFF0000FF#64
  | .fieldRead _ _ => 0xFFFFFFFFFF0000FF#64
  | .fieldWrite _ _ => 0xFFFFFFFFFF0000FF#64
  | .frameNew _ _ => 0xFFFFFFFE000000FF#64
  | .setHeader _ _ _ _ _ => 0xFFFF0000000000FF#64
  | .serialize => 0xFFFFFFFFFFFFFFFF#64

/-- The row's `match` in the opcode table. -/
def pattern : Instr → Word
  | .crcSeed => 0x0000000000000001#64
  | .crcLoad _ => 0x0000000000000002#64
  | .crcAcc _ => 0x0000000000000003#64
  | .crcCalc _ => 0x0000000000000004#64
  | .catInit _ => 0x0000000000000010#64
  | .catInclude _ => 0x0000000000000011#64
  | .catExclude _ => 0x0000000000000012#64
  | .catLookup _ => 0x0000000000000013#64
  | .catField _ _ => 0x0000000000000014#64
  | .parse _ => 0x0000000000000020#64
  | .parseStream _ => 0x0000000000000021#64
  | .fieldRead _ _ => 0x0000000000000030#64
  | .fieldWrite _ _ => 0x0000000000000031#64
  | .frameNew _ _ => 0x0000000000000040#64
  | .setHeader _ _ _ _ _ => 0x0000000000000041#64
  | .serialize => 0x0000000000000042#64

/-- The command's word fits its row. -/
def Statement (i : Instr) : Prop := encode i &&& mask i = pattern i

/-- A 64-bit word whose set bits from bit 8 on lie in `[8, hi)`, above an opcode byte: under a mask of
the opcode byte and the bits from `hi` on, only the opcode is left. -/
theorem masked (op payload hi : Nat) (m : Word) (hop : op < 256) (hhi : 8 ≤ hi ∧ hi ≤ 64)
    (hp : payload < 2 ^ (hi - 8)) (hm : ∀ j < 64, m.getLsbD j = (decide (j < 8) || decide (hi ≤ j))) :
    BitVec.ofNat 64 (op + payload * 2 ^ 8) &&& m = BitVec.ofNat 64 op := by
  have hop8 : op < 2 ^ 8 := hop
  apply BitVec.eq_of_getLsbD_eq
  intro j hj
  have hsum : op + payload * 2 ^ 8 = 2 ^ 8 * payload + op := by ring
  rw [BitVec.getLsbD_and, hm j hj, BitVec.getLsbD_ofNat, BitVec.getLsbD_ofNat, hsum,
    Nat.testBit_two_pow_mul_add payload hop8]
  by_cases h8 : j < 8
  · simp [h8]
  · have h1 : op.testBit j = false :=
      Nat.testBit_lt_two_pow (lt_of_lt_of_le hop8 (Nat.pow_le_pow_right (by omega) (by omega)))
    by_cases hh : hi ≤ j
    · have h2 : payload.testBit (j - 8) = false :=
        Nat.testBit_lt_two_pow (lt_of_lt_of_le hp (Nat.pow_le_pow_right (by omega) (by omega)))
      simp [h8, h1, h2]
    · simp [h8, h1, hh]

theorem crcSeed : Statement .crcSeed := by
  unfold Statement
  decide

theorem crcLoad (v : Crc16) : Statement (.crcLoad v) := by
  have hv := v.isLt
  have hw : encode (.crcLoad v) = BitVec.ofNat 64 (2 + (v.toNat) * 2 ^ 8) := by
    simp only [encode, fieldsWord, fieldsNat]
    refine congrArg (BitVec.ofNat 64) ?_
    ring
  unfold Statement
  rw [hw]
  exact masked 2 _ 24 _ (by omega) (by omega) (by omega) (by simp only [mask]; decide)

theorem crcAcc (b : Byte) : Statement (.crcAcc b) := by
  have hb := b.isLt
  have hw : encode (.crcAcc b) = BitVec.ofNat 64 (3 + (b.toNat) * 2 ^ 8) := by
    simp only [encode, fieldsWord, fieldsNat]
    refine congrArg (BitVec.ofNat 64) ?_
    ring
  unfold Statement
  rw [hw]
  exact masked 3 _ 16 _ (by omega) (by omega) (by omega) (by simp only [mask]; decide)

theorem crcCalc (n : Count) : Statement (.crcCalc n) := by
  have hn := n.isLt
  have hw : encode (.crcCalc n) = BitVec.ofNat 64 (4 + (n.toNat) * 2 ^ 8) := by
    simp only [encode, fieldsWord, fieldsNat]
    refine congrArg (BitVec.ofNat 64) ?_
    ring
  unfold Statement
  rw [hw]
  exact masked 4 _ 24 _ (by omega) (by omega) (by omega) (by simp only [mask]; decide)

theorem catInit (m : Count) : Statement (.catInit m) := by
  have hm := m.isLt
  have hw : encode (.catInit m) = BitVec.ofNat 64 (16 + (m.toNat) * 2 ^ 8) := by
    simp only [encode, fieldsWord, fieldsNat]
    refine congrArg (BitVec.ofNat 64) ?_
    ring
  unfold Statement
  rw [hw]
  exact masked 16 _ 24 _ (by omega) (by omega) (by omega) (by simp only [mask]; decide)

theorem catInclude (m : Count) : Statement (.catInclude m) := by
  have hm := m.isLt
  have hw : encode (.catInclude m) = BitVec.ofNat 64 (17 + (m.toNat) * 2 ^ 8) := by
    simp only [encode, fieldsWord, fieldsNat]
    refine congrArg (BitVec.ofNat 64) ?_
    ring
  unfold Statement
  rw [hw]
  exact masked 17 _ 24 _ (by omega) (by omega) (by omega) (by simp only [mask]; decide)

theorem catExclude (m : Count) : Statement (.catExclude m) := by
  have hm := m.isLt
  have hw : encode (.catExclude m) = BitVec.ofNat 64 (18 + (m.toNat) * 2 ^ 8) := by
    simp only [encode, fieldsWord, fieldsNat]
    refine congrArg (BitVec.ofNat 64) ?_
    ring
  unfold Statement
  rw [hw]
  exact masked 18 _ 24 _ (by omega) (by omega) (by omega) (by simp only [mask]; decide)

theorem catLookup (id : MsgId) : Statement (.catLookup id) := by
  have hid := id.isLt
  have hw : encode (.catLookup id) = BitVec.ofNat 64 (19 + (id.toNat) * 2 ^ 8) := by
    simp only [encode, fieldsWord, fieldsNat]
    refine congrArg (BitVec.ofNat 64) ?_
    ring
  unfold Statement
  rw [hw]
  exact masked 19 _ 32 _ (by omega) (by omega) (by omega) (by simp only [mask]; decide)

theorem catField (id : MsgId) (k : Byte) : Statement (.catField id k) := by
  have hid := id.isLt
  have hk := k.isLt
  have hw : encode (.catField id k) = BitVec.ofNat 64 (20 + (id.toNat + k.toNat * 2 ^ 24) * 2 ^ 8) := by
    simp only [encode, fieldsWord, fieldsNat]
    refine congrArg (BitVec.ofNat 64) ?_
    ring
  unfold Statement
  rw [hw]
  exact masked 20 _ 40 _ (by omega) (by omega) (by omega) (by simp only [mask]; decide)

theorem parse (n : Count) : Statement (.parse n) := by
  have hn := n.isLt
  have hw : encode (.parse n) = BitVec.ofNat 64 (32 + (n.toNat) * 2 ^ 8) := by
    simp only [encode, fieldsWord, fieldsNat]
    refine congrArg (BitVec.ofNat 64) ?_
    ring
  unfold Statement
  rw [hw]
  exact masked 32 _ 24 _ (by omega) (by omega) (by omega) (by simp only [mask]; decide)

theorem parseStream (n : Count) : Statement (.parseStream n) := by
  have hn := n.isLt
  have hw : encode (.parseStream n) = BitVec.ofNat 64 (33 + (n.toNat) * 2 ^ 8) := by
    simp only [encode, fieldsWord, fieldsNat]
    refine congrArg (BitVec.ofNat 64) ?_
    ring
  unfold Statement
  rw [hw]
  exact masked 33 _ 24 _ (by omega) (by omega) (by omega) (by simp only [mask]; decide)

theorem fieldRead (k e : Byte) : Statement (.fieldRead k e) := by
  have hk := k.isLt
  have he := e.isLt
  have hw : encode (.fieldRead k e) = BitVec.ofNat 64 (48 + (k.toNat + e.toNat * 2 ^ 8) * 2 ^ 8) := by
    simp only [encode, fieldsWord, fieldsNat]
    refine congrArg (BitVec.ofNat 64) ?_
    ring
  unfold Statement
  rw [hw]
  exact masked 48 _ 24 _ (by omega) (by omega) (by omega) (by simp only [mask]; decide)

theorem fieldWrite (k e : Byte) : Statement (.fieldWrite k e) := by
  have hk := k.isLt
  have he := e.isLt
  have hw : encode (.fieldWrite k e) = BitVec.ofNat 64 (49 + (k.toNat + e.toNat * 2 ^ 8) * 2 ^ 8) := by
    simp only [encode, fieldsWord, fieldsNat]
    refine congrArg (BitVec.ofNat 64) ?_
    ring
  unfold Statement
  rw [hw]
  exact masked 49 _ 24 _ (by omega) (by omega) (by omega) (by simp only [mask]; decide)

theorem frameNew (id : MsgId) (ver : Version) : Statement (.frameNew id ver) := by
  have hid := id.isLt
  have hver := ver.bit.isLt
  have hw : encode (.frameNew id ver) = BitVec.ofNat 64 (64 + (id.toNat + ver.bit.toNat * 2 ^ 24) * 2 ^ 8) := by
    simp only [encode, fieldsWord, fieldsNat]
    refine congrArg (BitVec.ofNat 64) ?_
    ring
  unfold Statement
  rw [hw]
  exact masked 64 _ 33 _ (by omega) (by omega) (by omega) (by simp only [mask]; decide)

theorem setHeader (seq sys comp incompat compat : Byte) : Statement (.setHeader seq sys comp incompat compat) := by
  have hseq := seq.isLt
  have hsys := sys.isLt
  have hcomp := comp.isLt
  have hincompat := incompat.isLt
  have hcompat := compat.isLt
  have hw : encode (.setHeader seq sys comp incompat compat) = BitVec.ofNat 64 (65 + (seq.toNat + sys.toNat * 2 ^ 8 + comp.toNat * 2 ^ 16 + incompat.toNat * 2 ^ 24 + compat.toNat * 2 ^ 32) * 2 ^ 8) := by
    simp only [encode, fieldsWord, fieldsNat]
    refine congrArg (BitVec.ofNat 64) ?_
    ring
  unfold Statement
  rw [hw]
  exact masked 65 _ 48 _ (by omega) (by omega) (by omega) (by simp only [mask]; decide)

theorem serialize : Statement .serialize := by
  unfold Statement
  decide

end Sys2Proof.Laws.TableRow
end

