-- ==== Sys2Proof/Laws/Schema.lean ====
section
/-! SUPPORT. What the layout and the compilation of a schema do, said once each (`41_schema.md`). -/

namespace Sys2Proof.Machine

/-! ### Laying out one message -/

/-- A declared field as `resolveField` answers it. -/
theorem resolveField_spec {i : Nat} {d : SchemaField} {f : Field} (h : resolveField i d = some f) :
    f.length = f.size * f.elements ∧ 1 ≤ f.length ∧ f.length = d.bytes ∧
      f.declIndex = BitVec.ofNat 8 i := by
  simp only [resolveField] at h
  split at h
  · cases h
  · rename_i k hk
    cases h
    refine ⟨rfl, ?_, by simp [SchemaField.bytes, hk], rfl⟩
    have : 1 ≤ k.size := by cases k <;> decide
    exact Nat.mul_pos (by omega) (by omega)

/-- What `resolveFields` answers: one field per declaration, as long as its declaration says, numbered
in declaration order. -/
theorem resolveFields_spec (ds : List SchemaField) : ∀ (i : Nat) (fs : List Field),
    resolveFields i ds = some fs →
      fs.length = ds.length ∧ totalLength fs = (ds.map SchemaField.bytes).sum ∧
        (∀ f ∈ fs, f.length = f.size * f.elements ∧ 1 ≤ f.length) ∧
        ∀ k f, fs[k]? = some f → f.declIndex = BitVec.ofNat 8 (i + k) := by
  induction ds with
  | nil =>
    intro i fs h
    simp [resolveFields] at h
    subst h
    simp [totalLength]
  | cons d ds ih =>
    intro i fs h
    simp only [resolveFields] at h
    split at h
    · rename_i f fs' h1 h2
      cases h
      obtain ⟨a, b, c, e⟩ := ih _ _ h2
      have hf := resolveField_spec h1
      refine ⟨by simp [a], ?_, ?_, ?_⟩
      · simp only [totalLength, List.map_cons, List.sum_cons] at b ⊢
        omega
      · intro g hg
        rcases List.mem_cons.mp hg with rfl | hg
        · exact ⟨hf.1, hf.2.1⟩
        · exact c g hg
      · intro k g hg
        cases k with
        | zero =>
          simp at hg
          subst hg
          simp [hf.2.2.2]
        | succ k =>
          simp at hg
          rw [e k g hg]
          congr 1
          omega
    · cases h

/-- Fields of at least one byte are no more than their total length (R164). -/
theorem length_le_totalLength (fs : List Field) (h : ∀ f ∈ fs, 1 ≤ f.length) :
    fs.length ≤ totalLength fs := by
  induction fs with
  | nil => simp
  | cons f fs ih =>
    have := h f (by simp)
    have := ih (fun g hg => h g (by simp [hg]))
    simp [totalLength] at *
    omega

/-- The total length does not depend on the order. -/
theorem totalLength_perm {xs ys : List Field} (h : xs.Perm ys) : totalLength xs = totalLength ys :=
  (h.map _).sum_eq

/-- The total length of a list in two parts. -/
theorem totalLength_append (xs ys : List Field) :
    totalLength (xs ++ ys) = totalLength xs + totalLength ys := by
  simp [totalLength]

/-- With base fields first, the base length is theirs (R163). -/
theorem baseLength_append (bs xs : List Field) (hb : ∀ f ∈ bs, f.extended = false)
    (hx : ∀ f ∈ xs, f.extended = true) : baseLength (bs ++ xs) = totalLength bs := by
  unfold baseLength
  rw [List.filter_append, List.filter_eq_self.mpr (by simpa using hb),
    List.filter_eq_nil_iff.mpr (by simpa using hx), List.append_nil]

/-- `assignOffsets` changes the offsets only, and each is the sum of the lengths before it (R163). -/
theorem assignOffsets_spec (fs : List Field) : ∀ a : Nat,
    (assignOffsets a fs).length = fs.length ∧
      totalLength (assignOffsets a fs) = totalLength fs ∧
      ∀ k f, (assignOffsets a fs)[k]? = some f →
        f.offset = a + totalLength ((assignOffsets a fs).take k) := by
  induction fs with
  | nil => intro a; simp [assignOffsets]
  | cons f fs ih =>
    intro a
    obtain ⟨h1, h2, h3⟩ := ih (a + f.length)
    refine ⟨by simp [assignOffsets, h1], ?_, ?_⟩
    · simp [assignOffsets, totalLength] at *
      omega
    · intro k g hg
      cases k with
      | zero =>
        simp [assignOffsets] at hg
        subst hg
        simp [totalLength]
      | succ k =>
        simp only [assignOffsets, List.getElem?_cons_succ] at hg
        have := h3 k g hg
        simp only [assignOffsets, List.take_succ_cons, totalLength, List.map_cons,
          List.sum_cons] at this ⊢
        omega

/-- `assignOffsets` over a list in two parts. -/
theorem assignOffsets_append (xs ys : List Field) (a : Nat) :
    assignOffsets a (xs ++ ys) = assignOffsets a xs ++ assignOffsets (a + totalLength xs) ys := by
  induction xs generalizing a with
  | nil => simp [assignOffsets, totalLength]
  | cons x xs ih => simp [assignOffsets, ih, totalLength, Nat.add_assoc]

/-- A field of an assigned list is a field of the list but for its offset. -/
theorem mem_assignOffsets (fs : List Field) (a : Nat) (g : Field) (h : g ∈ assignOffsets a fs) :
    ∃ f ∈ fs, ∃ o, g = { f with offset := o } := by
  induction fs generalizing a with
  | nil => simp [assignOffsets] at h
  | cons f fs ih =>
    rcases List.mem_cons.mp h with rfl | h
    · exact ⟨f, by simp, a, rfl⟩
    · obtain ⟨f', h1, o, h2⟩ := ih _ h
      exact ⟨f', by simp [h1], o, h2⟩

/-- Laying out keeps the total length. -/
theorem layOut_totalLength (c : Byte) (fs : List Field) :
    totalLength (layOut c fs).fields = totalLength fs := by
  unfold layOut
  simp only []
  rw [(assignOffsets_spec _ _).2.1]
  unfold orderFields
  rw [totalLength_append, totalLength_perm (List.perm_insertionSort _ _), ← totalLength_append]
  apply totalLength_perm
  exact List.perm_append_comm.trans (List.filter_append_perm (fun f : Field => f.extended) fs)

/-- The filter bit is no part of the layout. -/
theorem laidOut_included (e : Entry) (b : Bool) (h : e.LaidOut) :
    ({ e with included := b } : Entry).LaidOut :=
  ⟨h.1, h.2, h.3, h.4, h.5⟩

/-! ### Compiling the table -/

/-- A write to a sparse memory adds at most one entry. -/
theorem length_cellsWrite {α : Type} (k : Nat) (x : α) (m : Cells α) :
    (Cells.write k x m).length ≤ m.length + 1 := by
  induction m with
  | nil => simp [Cells.write]
  | cons c m ih =>
    obtain ⟨j, y⟩ := c
    simp only [Cells.write]
    repeat' split
    all_goals simp
    omega

/-- What a sparse memory lists after a write. -/
theorem mem_cellsWrite {α : Type} (k : Nat) (x : α) (m : Cells α) (c : Nat × α)
    (h : c ∈ Cells.write k x m) : c = (k, x) ∨ c ∈ m := by
  induction m with
  | nil =>
    simp [Cells.write] at h
    exact .inl h
  | cons d m ih =>
    obtain ⟨j, y⟩ := d
    simp only [Cells.write] at h
    split at h
    · exact List.mem_cons.mp h
    · split at h
      · rcases List.mem_cons.mp h with h | h
        · exact .inl h
        · exact .inr (by simp [h])
      · rcases List.mem_cons.mp h with h | h
        · exact .inr (by simp [h])
        · rcases ih h with h | h
          · exact .inl h
          · exact .inr (by simp [h])

/-- The catalog has at most one id per row. -/
theorem length_buildCatalog (ids : List MsgId) (rows : List (MsgId × Entry)) :
    (buildCatalog ids rows).length ≤ rows.length := by
  induction rows with
  | nil => simp [buildCatalog]
  | cons r rows ih =>
    simp only [buildCatalog]
    exact le_trans (length_cellsWrite _ _ _) (by simpa using ih)

/-- `buildCatalog` keeps the canonical form, and every entry it holds is one of the rows but for its
filter bit (R168). -/
theorem buildCatalog_spec (ids : List MsgId) (P : Entry → Prop) (rows : List (MsgId × Entry))
    (h : ∀ r ∈ rows, P r.2) :
    Memory.wf 16777216 (buildCatalog ids rows) = true ∧
      ∀ c ∈ buildCatalog ids rows, ∃ e, P e ∧ c.2 = { e with included := includes ids c.1 } := by
  induction rows with
  | nil => simp [buildCatalog, Memory.wf, Cells.rising]
  | cons r rows ih =>
    obtain ⟨h1, h2⟩ := ih (fun r hr => h r (by simp [hr]))
    simp only [buildCatalog]
    refine ⟨wf_write _ (by have := r.1.isLt; omega) h1, fun c hc => ?_⟩
    rcases mem_cellsWrite _ _ _ _ hc with rfl | hc
    · exact ⟨r.2, h r (by simp), rfl⟩
    · exact h2 c hc

/-- `layOutTable` lays out each entry of the table. -/
theorem layOutTable_spec (sch : List SchemaEntry) : ∀ rows, layOutTable sch = some rows →
    rows.length = sch.length ∧
      ∀ r ∈ rows, ∃ x ∈ sch, ∃ fs,
        resolveFields 0 x.fields = some fs ∧ r = (x.id, layOut x.crcExtra fs) := by
  induction sch with
  | nil =>
    intro rows h
    simp [layOutTable] at h
    subst h
    simp
  | cons x sch ih =>
    intro rows h
    simp only [layOutTable] at h
    split at h
    · rename_i fs es h1 h2
      cases h
      obtain ⟨a, b⟩ := ih _ h2
      refine ⟨by simp [a], fun r hr => ?_⟩
      rcases List.mem_cons.mp hr with rfl | hr
      · exact ⟨x, by simp, fs, h1, rfl⟩
      · obtain ⟨y, hy, z⟩ := b r hr
        exact ⟨y, by simp [hy], z⟩
    · cases h

/-- The reasons `compile` can answer (R168). -/
theorem compile_error {maxMessages : Nat} {sch : List SchemaEntry} {ids : List MsgId} {e : Err}
    (h : compile maxMessages sch ids = .error e) :
    e ∈ [Err.badType, .schemaInvalid, .duplicateMessageId, .unknownMessageId] := by
  unfold compile at h
  repeat' split at h
  all_goals cases h
  all_goals simp

end Sys2Proof.Machine
end

