-- ==== Sys2Proof/Tests/Slice0.lean ====
section
/-! SUPPORT. Tests: the well-formedness smoke test, one written-out word per command, one or two steps
per command with the values of `95_test_vectors.md`, the host's port, and for every obligation with
hypotheses a concrete state and operands that meet them (`witness_<obligation>`). -/

namespace Sys2Proof.Tests

-- One theorem at a time: many kernel evaluations at once each hold a stack of their own.
set_option Elab.async false

open Sys2Proof.Machine

/-! ### Well-formedness: each count check refuses a count above its capacity -/

/-- The parameters of the test vectors (`95_test_vectors.md`). -/
def vectorParams (trim : Bool) : Params := ⟨280, 16, 16, trim⟩

theorem test_illFormed_inCount :
    (Instr.crcCalc 281).wellFormed (vectorParams true) = false ∧
      (Instr.parse 281).wellFormed (vectorParams true) = false ∧
      (Instr.parseStream 281).wellFormed (vectorParams true) = false := by decide

theorem test_illFormed_idCount :
    (Instr.catInit 17).wellFormed (vectorParams true) = false ∧
      (Instr.catInclude 17).wellFormed (vectorParams true) = false ∧
      (Instr.catExclude 17).wellFormed (vectorParams true) = false := by decide

theorem test_wellFormed_atCapacity :
    (Instr.parse 280).wellFormed (vectorParams true) = true ∧
      (Instr.catInit 16).wellFormed (vectorParams true) = true := by decide

theorem test_params_bounds :
    (Params.mk 279 1 1 true).legal = false ∧ (Params.mk 280 1 1 true).legal = true ∧
      (Params.mk 65535 1024 16777216 true).legal = true ∧
      (Params.mk 65536 1024 16777216 true).legal = false ∧
      (Params.mk 280 0 1 true).legal = false ∧ (Params.mk 280 1025 1 true).legal = false ∧
      (Params.mk 280 1 0 true).legal = false ∧ (Params.mk 280 1 16777217 true).legal = false := by
  decide

/-! ### Decoding: the words of the spec, by hand from R101 and R102 -/

theorem test_decode_crcSeed : decode 0x0000000000000001#64 = .ok .crcSeed := by decide

theorem test_decode_crcLoad : decode 0x0000000000123402#64 = .ok (.crcLoad 0x1234) := by decide

theorem test_decode_crcAcc : decode 0x0000000000003103#64 = .ok (.crcAcc 0x31) := by decide

theorem test_decode_crcCalc : decode 0x0000000000000904#64 = .ok (.crcCalc 9) := by decide

theorem test_decode_catInit : decode 0x0000000000000110#64 = .ok (.catInit 1) := by decide

theorem test_decode_catInclude : decode 0x0000000000000111#64 = .ok (.catInclude 1) := by decide

theorem test_decode_catExclude : decode 0x0000000000000212#64 = .ok (.catExclude 2) := by decide

theorem test_decode_catLookup : decode 0x0000000001234513#64 = .ok (.catLookup 0x012345) := by decide

theorem test_decode_catField : decode 0x0000000601234514#64 = .ok (.catField 0x012345 6) := by decide

theorem test_decode_parse : decode 0x0000000000003D20#64 = .ok (.parse 61) := by decide

theorem test_decode_parseStream : decode 0x0000000000001421#64 = .ok (.parseStream 20) := by decide

theorem test_decode_fieldRead : decode 0x0000000000030430#64 = .ok (.fieldRead 4 3) := by decide

theorem test_decode_fieldWrite : decode 0x0000000000010631#64 = .ok (.fieldWrite 6 1) := by decide

theorem test_decode_frameNew :
    decode 0x0000000101234540#64 = .ok (.frameNew 0x012345 .v2) ∧
      decode 0x0000000001234540#64 = .ok (.frameNew 0x012345 .v1) := by decide

theorem test_decode_setHeader :
    decode 0x00000101BEFF0541#64 = .ok (.setHeader 5 255 190 1 1) := by decide

theorem test_decode_serialize : decode 0x0000000000000042#64 = .ok .serialize := by decide

/-- The bounds of each range of opcode bytes R103 (a) lists are rejected. -/
theorem test_decode_illegalOpcodes :
    ([0x00, 0x05, 0x0F, 0x15, 0x1F, 0x22, 0x2F, 0x32, 0x3F, 0x43, 0xFF] : List Nat).all
      (fun b => decide (decode (BitVec.ofNat 64 b) = Except.error Illegal.unknownOpcode)) = true := by
  decide +kernel

/-- The reserved bits of the vectors V-X5, V-X6, V-X10 and V-C12. -/
theorem test_decode_reservedBits :
    decode 0x0000000300001E40#64 = .error .reservedBit ∧
      decode 0x0000000000010001#64 = .error .reservedBit ∧
      decode 0x0100000000001520#64 = .error .reservedBit ∧
      decode 0x0000000000013103#64 = .error .reservedBit := by decide

/-- The assembler lines of R105. -/
theorem test_lines :
    (Instr.frameNew 30 .v2).line = "FRAME_NEW 30, v2" ∧ (Instr.crcSeed).line = "CRC_SEED" ∧
      (Instr.setHeader 5 255 190 1 1).line = "SET_HEADER 5, 255, 190, 1, 1" := by decide +kernel

/-! ### One step on the states of the test vectors -/

/-- HEARTBEAT, ATTITUDE and TEST_LAYOUT of the schema table V-T1. -/
def heartbeat : SchemaEntry :=
  ⟨0, 50, [⟨1, 0, false⟩, ⟨1, 0, false⟩, ⟨1, 0, false⟩, ⟨5, 0, false⟩, ⟨1, 0, false⟩, ⟨1, 0, false⟩]⟩

@[inherit_doc heartbeat]
def attitude : SchemaEntry := ⟨30, 39, ⟨5, 0, false⟩ :: List.replicate 6 ⟨8, 0, false⟩⟩

@[inherit_doc heartbeat]
def testLayout : SchemaEntry :=
  ⟨0x012345, 125,
    [⟨1, 0, false⟩, ⟨2, 0, false⟩, ⟨8, 2, false⟩, ⟨10, 3, false⟩, ⟨7, 0, false⟩, ⟨3, 0, true⟩,
      ⟨0, 2, true⟩]⟩

/-- Reset, with the vectors' parameters and `sch` staged. -/
def staged (trim : Bool) (sch : List SchemaEntry) : State :=
  { State.reset with params := vectorParams trim, sch := sch }

/-- The next state of an outcome, or the reset state where there is none. -/
def nextOf (o : Out) : State :=
  match o with
  | .next t => t
  | .fault _ => State.reset
  | .refused _ => State.reset

/-- The state after a command. -/
def ran (i : Instr) (s : State) : State := nextOf (exec i s)

/-- Bytes listed from address `a` on. -/
def listed (a : Nat) : List Byte → Cells Byte
  | [] => []
  | b :: bs => (a, b) :: listed (a + 1) bs

/-- `s` with IN holding `bytes` from 0 on and IDLIST holding `ids`. -/
def withInputs (bytes : List Byte) (ids : Cells MsgId) (s : State) : State :=
  { s with inMem := listed 0 bytes, idList := ids }

/-- V-T1 staged and compiled by `CAT_INIT 0`. -/
def ready (trim : Bool) : State := ran (.catInit 0) (staged trim [heartbeat, attitude, testLayout])

/-- V-S1. -/
def s1 : List Byte :=
  [0xFD, 0x09, 0, 0, 0, 1, 1, 0, 0, 0, 0, 0, 0, 0, 8, 0, 0, 0, 3, 0xE9, 0x80]

/-- STATUS, RESULT and CRC of a state. -/
def seen (s : State) : Bool × Nat × Nat × Nat := (s.status.ok, s.status.err.toNat, s.result.toNat, s.crc.toNat)

/-- V-C1. -/
theorem test_crcSeed :
    seen (nextOf (runWord 1 { State.reset with crc := 0x1234 })) = (true, 0, 0xFFFF, 0xFFFF) := by
  decide +kernel

/-- V-C2. -/
theorem test_crcLoad :
    seen (nextOf (runWord 0x123402 State.reset)) = (true, 0, 0x1234, 0x1234) := by decide +kernel

/-- V-C8. -/
theorem test_crcAcc :
    seen (nextOf (runWord 0x1203 { State.reset with crc := 0x3456 })) = (true, 0, 0x0414, 0x0414) := by
  decide +kernel

/-- V-C12: nothing but STATUS changes. -/
theorem test_crcAcc_illegal :
    runWord 0x13103 { State.reset with crc := 0xABCD, result := 7 } =
      .next { State.reset with crc := 0xABCD, result := 7, status := errStatus 17 } := rfl

/-- V-C10: the old CRC is ignored. -/
theorem test_crcCalc :
    seen (nextOf (runWord 0x0304
        (withInputs [0x31, 0x32, 0x33] [] { staged true [] with crc := 0x1234 }))) =
      (true, 0, 0x634B, 0x634B) := by decide +kernel

/-- V-C13. -/
theorem test_crcCalc_illegal :
    seen (nextOf (runWord 0x11904 (staged true []))) = (false, 17, 0, 0xFFFF) := by decide +kernel

/-- V-K11: the ids mapped, and their filter bits. -/
theorem test_catInit :
    let t := ran (.catInit 1) (withInputs [] [(0, 30)] (staged true [heartbeat, attitude, testLayout]))
    t.cat.map (fun c => (c.1, c.2.included)) = [(0, true), (30, true), (74565, false)] ∧
      t.init = true := by decide +kernel

/-- V-K12 to V-K15: the errors in their order of test. -/
theorem test_catInit_errors :
    (ran (.catInit 1) (withInputs [] [(0, 30)] (staged true [heartbeat]))).status = errStatus 15 ∧
      (ran (.catInit 0) (staged true [heartbeat, heartbeat])).status = errStatus 5 ∧
      (ran (.catInit 0) (staged true [⟨5, 0, [⟨11, 0, false⟩]⟩])).status = errStatus 4 ∧
      (ran (.catInit 0) (staged true [⟨5, 0, [⟨7, 32, false⟩]⟩])).status = errStatus 20 := by
  decide +kernel

/-- P4, lines 12 to 14. -/
theorem test_catInclude :
    (ran (.catInclude 1) (withInputs [] [(0, 30)] (ready true))).cat.map
        (fun c => (c.1, c.2.included)) = [(0, true), (30, true), (74565, false)] := by decide +kernel

/-- P4, line 10. -/
theorem test_catInclude_unknown :
    (ran (.catInclude 1) (withInputs [] [(0, 5)] (ready true))).status = errStatus 15 := by
  decide +kernel

/-- P4, line 2, with id 0 in the list as well. -/
theorem test_catExclude :
    (ran (.catExclude 2) (withInputs [] [(0, 0), (1, 30)] (ready true))).cat.map
        (fun c => (c.1, c.2.included)) = [(0, true), (30, false), (74565, true)] := by decide +kernel

/-- P4, line 15. -/
theorem test_catExclude_unknown :
    (ran (.catExclude 2) (withInputs [] [(0, 0), (1, 5)] (ready true))).status = errStatus 15 := by
  decide +kernel

/-- V-K20 to V-K22. -/
theorem test_catLookup :
    (ran (.catLookup 0) (ready true)).result = 0x0106090932 ∧
      (ran (.catLookup 30) (ready true)).result = 0x01071C1C27 ∧
      (ran (.catLookup 0x012345) (ready true)).result = 0x01071A167D := by decide +kernel

/-- V-K24, V-K25. -/
theorem test_catField :
    (ran (.catField 0x012345 4) (ready true)).result = 0x03000313030A ∧
      (ran (.catField 0x012345 6) (ready true)).result = 0x060102180200 := by decide +kernel

/-- V-K26. -/
theorem test_catField_beyond :
    (ran (.catField 0x012345 7) (ready true)).status = errStatus 18 := by decide +kernel

/-- V-S1. -/
theorem test_parse :
    let t := ran (.parse 21) (withInputs s1 [] (ready true))
    (seen t, t.frame.len, t.frame.sysId, t.frame.msgId, t.frame.cksum, byteAt t.frame.payload 8) =
      ((true, 0, 0x15, 0xFFFF), 9, 1, 0, 0x80E9, 3) := by decide +kernel

/-- V-S2: BadChecksum, RESULT unchanged, the frame registers cleared. -/
theorem test_parse_badChecksum :
    let t := ran (.parse 21) (withInputs (s1.take 19 ++ [0, 0]) [] { ready true with result := 7 })
    (seen t, t.frame.valid, t.frame.len, t.frame.sysId, t.frame.cksum, byteAt t.frame.payload 8) =
      ((false, 13, 7, 0xFFFF), false, 0, 0, 0, 0) := by decide +kernel

/-- V-S6 in streaming mode. -/
theorem test_parseStream :
    let t := ran (.parseStream 29)
      (withInputs ([0x00, 0xFE, 0x03, 0x55, 0x10, 0x20, 0x01, 0x42] ++ s1) [] (ready true))
    (seen t, t.consumed, t.examined) = ((true, 0, 0x8001D, 0xFFFF), 29, 29) := by decide +kernel

/-- V-F14. -/
theorem test_parseStream_needMore :
    let t := ran (.parseStream 20)
      (withInputs ([0x00, 0xFE, 0x03, 0x55, 0x10, 0x20, 0x01, 0x42] ++ s1.take 12) [] (ready true))
    (seen t, t.consumed, t.examined) = ((false, 16, 0, 0xFFFF), 8, 20) := by decide +kernel

/-- A new TEST_LAYOUT frame of V-P5, with DATA. -/
def newLayout (data : Word) : State := { ran (.frameNew 0x012345 .v2) (ready true) with data := data }

/-- V-P5: the element g[1] is signed. -/
theorem test_fieldRead :
    (ran (.fieldRead 6 1) (ran (.fieldWrite 6 1) (newLayout 0x80))).result = 0xFFFFFFFFFFFFFF80 := by
  decide +kernel

/-- V-P7 to V-P10. -/
theorem test_fieldRead_errors :
    (ran (.fieldRead 7 0) (newLayout 0)).status = errStatus 18 ∧
      (ran (.fieldRead 0 1) (newLayout 0)).status = errStatus 18 ∧
      (ran (.fieldRead 4 3) (newLayout 0)).status = errStatus 18 ∧
      (ran (.fieldRead 0 0) (ready true)).status = errStatus 21 := by decide +kernel

/-- R207, and no value while VALID = 0 (log entry 17). -/
theorem test_fieldValue :
    ((newLayout 0).fieldValue? 1).map FieldValue.elements = some [0, 0] ∧
      (ready true).fieldValue? 0 = none := by decide +kernel

/-- V-P6 (a u8 element takes the low byte) and line 5 of P2 (least significant byte first). -/
theorem test_fieldWrite :
    slice (ran (.fieldWrite 3 0) (newLayout 0xFFFFFFFFFFFFFF06)).frame.payload 17 20 = [0, 6, 0] ∧
      slice (ran (.fieldWrite 1 1) (newLayout 12345678)).frame.payload 11 17 =
        [0, 0x4E, 0x61, 0xBC, 0x00, 0] := by decide +kernel

/-- R260's example. -/
theorem test_frameNew :
    let t := ran (.frameNew 30 .v2) (ready true)
    (t.frame.valid, t.frame.ver, t.frame.msgId, t.frame.len) = (true, .v2, 30, 28) := by
  decide +kernel

/-- V-E9, V-E10. -/
theorem test_frameNew_errors :
    (ran (.frameNew 0x012345 .v1) (ready true)).status = errStatus 19 ∧
      (ran (.frameNew 99 .v2) (ready true)).status = errStatus 9 := by decide +kernel

/-- P6, line 3: a v1 frame keeps INCOMPAT and COMPAT 0. -/
theorem test_setHeader :
    let f := (ran (.setHeader 5 255 190 1 1) (ran (.frameNew 0 .v1) (ready true))).frame
    (f.seq, f.sysId, f.compId, f.incompat, f.compat) = (5, 255, 190, 0, 0) := by decide +kernel

/-- V-E12. -/
theorem test_setHeader_noFrame :
    (ran (.setHeader 1 2 3 0 0) (ready true)).status = errStatus 21 := by decide +kernel

/-- V-E5: trimmed to one byte. -/
theorem test_serialize_trimmed :
    let t := ran .serialize (ran (.frameNew 30 .v2) (ready true))
    (slice t.out 0 14, t.outLen, t.result, t.frame.len) =
      ([0xFD, 0x01, 0, 0, 0, 0, 0, 0x1E, 0, 0, 0, 0xFF, 0x25, 0], 13, 13, 1) := by decide +kernel

/-- V-E8: not trimmed. -/
theorem test_serialize_full :
    let s := { ran (.frameNew 0 .v2) (ready false) with data := 6 }
    let t := ran .serialize (ran (.fieldWrite 1 0) s)
    slice t.out 0 22 =
      [0xFD, 9, 0, 0, 0, 0, 0, 0, 0, 0, 0, 0, 0, 0, 6, 0, 0, 0, 0, 0xE3, 0xA5, 0] := by
  decide +kernel

/-! ### The host's port -/

/-- What one host access leaves. -/
def served (a : HostAccess) (s : State) : State := nextOf (step { s with port := [a] })

/-- R49: another width is refused, 16 bits at a reserved offset too; an offset no row names reads 0; a write to a read-only register is
ignored. -/
theorem test_port_forms :
    ([HostAccess.read .b32 0x010, .read .b16 0x110, .write .b16 0x3FFE 7].all (fun a =>
        match step { staged true [] with port := [a] } with
        | .refused r => decide (r = .hostAccessForm)
        | .next _ => false
        | .fault _ => false)) = true ∧
      (served (.read .b8 0x2FF) (staged true [])).readData = 0 ∧
      (served (.write .b64 0x018 7) (staged true [])).result = 0 := by decide +kernel

/-- R47: bits [31:24] of an IDLIST entry are not stored; R37: CAT_STATE. -/
theorem test_port_values :
    (served (.read .b32 0x4008) (served (.write .b32 0x4008 0xAB012345) (staged true []))).readData =
        0x012345 ∧
      (served (.read .b64 0x058) (ready true)).readData = 0x300000001 := by decide +kernel

/-- A write keeps the addresses rising and replaces what stood there (R89). -/
theorem test_memory_write :
    (served (.write .b8 0x10001 9) (served (.write .b8 0x10001 5)
        (served (.write .b8 0x10004 7) (staged true [])))).inMem = [(1, 9), (4, 7)] := by
  decide +kernel

/-- R330: reset clears the catalog and the block's registers. -/
theorem test_reset :
    let t := served .reset (withInputs s1 [] { ready true with crc := 5 })
    (t.crc, t.init, t.cat.length, t.inMem.length, t.sch.length, t.epoch) = (0xFFFF, false, 0, 0, 0, 1) := by
  decide +kernel

/-! ### Witnesses: states and operands that meet the hypotheses of the obligations -/

/-- A message of three fields, laid out by hand: u16 (declared second), u8 (first), and the extended
i8[2]; base 3, max 5. -/
def tinyFields : List Field :=
  [⟨.u16, 0, false, 1, 2, 0⟩, ⟨.u8, 0, false, 0, 1, 2⟩, ⟨.i8, 2, true, 2, 2, 3⟩]

/-- The entry of that message, included or not. -/
def tiny (included : Bool) : Entry := ⟨50, tinyFields, 3, 5, included⟩

/-- INIT = 1 with two messages: id 0 included, id 300 excluded; the least legal parameters. -/
def tinyState (f : Frame) : State :=
  { State.reset with
    params := ⟨280, 1, 2, true⟩, init := true, cat := [(0, tiny true), (300, tiny false)], frame := f }

/-- A v1 frame of message 0 and a v2 frame of message 300, as FRAME_NEW leaves them. -/
def frame1 : Frame := { Frame.zero with valid := true, len := 3 }

@[inherit_doc frame1]
def frame2 : Frame := { Frame.zero with valid := true, ver := .v2, msgId := 300, len := 5 }

theorem tiny_laidOut (b : Bool) : (tiny b).LaidOut where
  lengths := by
    intro f hf
    simp only [tiny, tinyFields, List.mem_cons, List.not_mem_nil, or_false] at hf
    rcases hf with rfl | rfl | rfl <;> rfl
  split := by
    refine ⟨tinyFields.take 2, tinyFields.drop 2, rfl, by decide, by decide, ?_, ?_⟩ <;>
      simp [tinyFields, BaseBefore, Field.size, Kind.size]
  offsets := by
    intro k f h
    rcases k with _ | _ | _ | k <;> simp only [tiny, tinyFields, List.getElem?_cons_zero,
      List.getElem?_cons_succ, List.getElem?_nil, Option.some.injEq, reduceCtorEq] at h <;>
      subst h <;> rfl
  base := rfl
  max := rfl

theorem tiny_inv (f : Frame) (h0 : f.valid = false → f = Frame.zero)
    (h1 : f.valid = true → ∃ e, (tinyState f).catEntry f.msgId = some e ∧ f.Fits e) :
    Inv (tinyState f) where
  params := rfl
  inMem := rfl
  idList := rfl
  cat := rfl
  catSize := Nat.le_refl 2
  catEmpty := by intro h; cases h
  entries := by
    intro c hc
    simp only [tinyState, List.mem_cons, List.not_mem_nil, or_false] at hc
    rcases hc with rfl | rfl <;> exact tiny_laidOut _
  heartbeat := by intro e h; cases h; rfl
  noFrame := h0
  frame := fun h => ⟨rfl, h1 h⟩
  out := by intro i _; exact byteAt_zeros 280 i
  outLen := Nat.zero_le _
  stream := ⟨Nat.le_refl _, Nat.zero_le _⟩
  status := ⟨by show (0 : Byte) ∈ raisedCodes; decide, fun _ => rfl⟩

theorem frame_fits (f : Frame) (b : Bool) (hl : f.len.toNat ≤ 3) (hf : f.incompat = 0)
    (hc : f.compat = 0) (hs : f.hasSig = false) (hi : f.msgId.toNat ≤ 255)
    (hg : f.sig = Vector.replicate 13 0#8) (hp : f.payload = Vector.replicate 255 0#8) :
    f.Fits (tiny b) where
  len := by cases h : f.ver <;> simp only [Entry.limit, tiny] <;> exact le_trans hl (by decide)
  v1 := fun _ => ⟨hf, hc, hs, hi⟩
  sig := fun _ => hg
  payload := by intro i _; rw [hp]; exact byteAt_zeros 255 i

/-- The invariant holds with no frame, with a v1 frame and with a v2 frame held. -/
theorem inv_ready : Inv (tinyState Frame.zero) :=
  tiny_inv _ (fun _ => rfl) (fun h => Bool.noConfusion h)

theorem inv_frame1 : Inv (tinyState frame1) :=
  tiny_inv _ (fun h => Bool.noConfusion h)
    (fun _ => ⟨tiny true, rfl, frame_fits _ _ (by decide) rfl rfl rfl (by decide) rfl rfl⟩)

theorem inv_frame2 : Inv (tinyState frame2) :=
  tiny_inv _ (fun h => Bool.noConfusion h)
    (fun _ =>
      ⟨tiny false, rfl,
        { len := by decide
          v1 := fun h => Version.noConfusion h
          sig := fun _ => rfl
          payload := fun i _ => byteAt_zeros 255 i }⟩)

/-- The frame bytes of an all-zero message 0 with one payload byte (v2) and with three (v1), and a frame
of the excluded message 300. -/
def bytes2 : List Byte := frameBytes (tiny true) { Frame.zero with ver := .v2 } 1

@[inherit_doc bytes2]
def bytes1 : List Byte := frameBytes (tiny true) Frame.zero 3

@[inherit_doc bytes2]
def bytes300 : List Byte := frameBytes (tiny false) { Frame.zero with ver := .v2, msgId := 300 } 1

/-- The state with no frame held and IN holding `bytes`. -/
def tinyIn (bytes : List Byte) : State := withInputs bytes [] (tinyState Frame.zero)

theorem witness_DecodedWordIsItsEncoding : decode 0x0000000000003103#64 = .ok (.crcAcc 0x31) := by
  decide

/-- Both bounds of R103 (c), with the capacities 280 and 1: a count at the capacity is legal, the next
is not; and an unknown opcode. -/
theorem witness_IllegalWordOnlySetsStatus :
    IllegalWord (tinyState Frame.zero).params 0x43 ∧
      IllegalWord (tinyState Frame.zero).params 0x11904 ∧
      IllegalWord (tinyState Frame.zero).params 0x0210 ∧
      ¬ IllegalWord (tinyState Frame.zero).params 0x11804 ∧
      ¬ IllegalWord (tinyState Frame.zero).params 0x0110 := by
  have high (w used : Nat) (hw : w < 2 ^ used) (j : Nat) (hj : used ≤ j) :
      (BitVec.ofNat 64 w).getLsbD j = false := by
    rw [BitVec.getLsbD_ofNat]
    have h2 : w < 2 ^ j := lt_of_lt_of_le hw (Nat.pow_le_pow_right (by decide) hj)
    simp [Nat.testBit_lt_two_pow h2]
  have counted : ∀ row ∈ commandRows,
      row.1.toNat ≠ 0x43 ∧ (row.1.toNat = 0x04 → row.2.2 = .inputBytes) ∧
        (row.1.toNat = 0x10 → row.2.2 = .idEntries) := by decide
  refine ⟨?_, ?_, ?_, ?_, ?_⟩
  · rintro row hr ⟨h1, _⟩
    exact (counted row hr).1 h1.symm
  · rintro row hr ⟨h1, _, h3⟩
    exact absurd (h3 280 (by rw [(counted row hr).2.1 h1.symm]; rfl)) (by decide)
  · rintro row hr ⟨h1, _, h3⟩
    exact absurd (h3 1 (by rw [(counted row hr).2.2 h1.symm]; rfl)) (by decide)
  · intro h
    refine h (0x04#8, 24, .inputBytes) (by decide) ⟨by decide, high 0x11804 24 (by decide), ?_⟩
    intro cap hc
    cases hc
    decide
  · intro h
    refine h (0x10#8, 24, .idEntries) (by decide) ⟨by decide, high 0x0110 24 (by decide), ?_⟩
    intro cap hc
    cases hc
    decide

theorem witness_StepRunsDecodedCommand :
    let s := { tinyState Frame.zero with port := [.write .b64 0 0x11804, .reset] }
    s.port = .write .b64 0 0x11804 :: [.reset] ∧ decode 0x11804 = .ok (.crcCalc 280) ∧
      (Instr.crcCalc 280).wellFormed s.params = true := by decide

/-- Per opcode and first reserved bit: a word of all operand bits, and the word with only the first
reserved bit set (the two cases of `WordRuns`). -/
theorem witness_WordRuns :
    ([(0x01, 8), (0x02, 24), (0x03, 16), (0x04, 24), (0x10, 24), (0x11, 24), (0x12, 24), (0x13, 32),
        (0x14, 40), (0x20, 24), (0x21, 24), (0x30, 24), (0x31, 24), (0x40, 33), (0x41, 48),
        (0x42, 8)] : List (Nat × Nat)).all (fun (op, used) =>
      let most : Word := BitVec.ofNat 64 (2 ^ used - 256 + op)
      let least : Word := BitVec.ofNat 64 (2 ^ used + op)
      most.toNat % 256 == op && decide (most.toNat < 2 ^ used) && least.toNat % 256 == op &&
        decide (2 ^ used ≤ least.toNat)) = true := by decide +kernel

theorem witness_CrcCalcFoldsInput :
    (280#16).toNat ≤ (tinyState Frame.zero).params.inCap ∧
      (tinyState Frame.zero).params.inCap < (281#16).toNat := by decide

theorem witness_CrcPathsAgree : (280#16).toNat ≤ (tinyState Frame.zero).params.inCap := by decide

theorem witness_CrcRegisterIsPrivate :
    isCrc (.frameNew 0 .v1) = false ∧ ∃ t, exec (.frameNew 0 .v1) (tinyState Frame.zero) = .next t :=
  ⟨rfl, _, rfl⟩

/-- 255 bytes of fields, the most R164 admits. -/
theorem witness_LayoutLaws :
    (resolveFields 0 [⟨10, 251, true⟩, ⟨5, 0, false⟩]).isSome = true ∧
      (([⟨10, 251, true⟩, ⟨5, 0, false⟩] : List SchemaField).map SchemaField.bytes).sum = 255 := by
  decide

/-- Whether the premises of each clause of `CatInitCompilesTable` hold: kind, size, duplicate, unknown. -/
def catInitTests (s : State) (m : Count) : Bool × Bool × Bool × Bool :=
  (s.sch.any (fun r => r.fields.any (fun d => decide (10 < d.kind.toNat))),
    s.sch.any (fun r => decide (255 < (r.fields.map SchemaField.bytes).sum)) ||
      decide (s.params.maxMessages < s.sch.length),
    !decide (s.sch.map (fun r => r.id)).Nodup,
    (s.idPrefix m.toNat).any (fun x => s.sch.all (fun r => r.id != x)))

/-- The clauses of R168 at their bounds: all tests passed with a table of MAX_MESSAGES entries and a list
of IDL_CAP ids; one entry too many; 256 bytes; and each other failing test alone. -/
theorem witness_CatInitCompilesTable :
    let s (sch : List SchemaEntry) : State :=
      { tinyState Frame.zero with sch := sch, idList := [(0, 5)] }
    let a : SchemaEntry := ⟨5, 0, [⟨1, 255, false⟩]⟩
    let b : SchemaEntry := ⟨6, 0, []⟩
    (1#16).toNat ≤ (s []).params.idlCap ∧ (s []).params.idlCap < (2#16).toNat ∧
      catInitTests (s [a, b]) 1 = (false, false, false, false) ∧
      catInitTests (s [⟨5, 0, [⟨11, 0, false⟩]⟩]) 1 = (true, false, false, false) ∧
      catInitTests (s [a, b, ⟨7, 0, []⟩]) 1 = (false, true, false, false) ∧
      catInitTests (s [⟨5, 0, [⟨7, 32, false⟩]⟩]) 1 = (false, true, false, false) ∧
      catInitTests (s [a, a]) 1 = (false, false, true, false) ∧
      catInitTests (s [b]) 1 = (false, false, false, true) := by decide +kernel

/-- The state with no frame held and one id in IDLIST. -/
def listing (id : MsgId) (s : State) : State := { s with idList := [(0, id)] }

/-- The counts of both filter commands at IDL_CAP = 1 and above it, and the states before and after
initialization. -/
theorem witness_filterCounts (id : MsgId) :
    (1#16).toNat ≤ (listing id (tinyState Frame.zero)).params.idlCap ∧
      (listing id (tinyState Frame.zero)).params.idlCap < (2#16).toNat ∧
      (listing id (tinyState Frame.zero)).init = true ∧ State.reset.init = false ∧
      (0#16).toNat ≤ State.reset.params.idlCap :=
  ⟨Nat.le_refl 1, Nat.lt_succ_self 1, rfl, rfl, Nat.zero_le _⟩

/-- A list of one id. -/
theorem idPrefix_listing (id : MsgId) (s : State) : (listing id s).idPrefix 1 = [id] := rfl

theorem witness_CatIncludeSetsFilter :
    (∀ x ∈ (listing 300 (tinyState Frame.zero)).idPrefix 1,
        ((listing 300 (tinyState Frame.zero)).catEntry x).isSome = true) ∧
      ∃ x ∈ (listing 5 (tinyState Frame.zero)).idPrefix 1,
        (listing 5 (tinyState Frame.zero)).catEntry x = none := by
  refine ⟨fun x hx => ?_, 5, by rw [idPrefix_listing]; exact List.mem_singleton.mpr rfl, rfl⟩
  rw [idPrefix_listing, List.mem_singleton] at hx
  subst hx
  rfl

/-- With id 0 in the list, which is no unknown id even where the catalog lacks it. -/
theorem witness_CatExcludeClearsFilter :
    (∀ x ∈ (listing 0 { tinyState Frame.zero with cat := [] }).idPrefix 1,
        x ≠ 0 → ((listing 0 { tinyState Frame.zero with cat := [] }).catEntry x).isSome = true) ∧
      (∀ x ∈ (listing 300 (tinyState Frame.zero)).idPrefix 1,
        x ≠ 0 → ((listing 300 (tinyState Frame.zero)).catEntry x).isSome = true) ∧
      ∃ x ∈ (listing 5 (tinyState Frame.zero)).idPrefix 1,
        x ≠ 0 ∧ (listing 5 (tinyState Frame.zero)).catEntry x = none := by
  refine ⟨fun x hx h0 => ?_, fun x hx _ => ?_, 5,
    by rw [idPrefix_listing]; exact List.mem_singleton.mpr rfl, by decide, rfl⟩
  · rw [idPrefix_listing, List.mem_singleton] at hx
    exact absurd hx h0
  · rw [idPrefix_listing, List.mem_singleton] at hx
    subst hx
    rfl

theorem witness_ExcludedMessageIsRejected :
    let s : State := { tinyState Frame.zero with idList := [(0, 300)] }
    (ran (.catExclude 1) s).status = okStatus ∧ (300 : MsgId) ∈ s.idPrefix 1 ∧ (300 : MsgId) ≠ 0 ∧
      candidateBytes .v2 bytes300 ≤ bytes300.length ∧ candidateId .v2 bytes300 = (300 : MsgId).toNat := by
  decide +kernel

theorem witness_CatLookupReadsEntry :
    Inv (tinyState Frame.zero) ∧ (tinyState Frame.zero).init = true ∧
      (tinyState Frame.zero).catEntry 300 = some (tiny false) ∧ State.reset.init = false ∧
      (tinyState Frame.zero).catEntry 0xFFFFFF = none :=
  ⟨inv_ready, rfl, rfl, rfl, rfl⟩

/-- The last field, and the first selector beyond it. -/
theorem witness_CatFieldReadsField :
    Inv (tinyState Frame.zero) ∧ (tinyState Frame.zero).init = true ∧
      (tinyState Frame.zero).catEntry 0 = some (tiny true) ∧
      (tiny true).fields[(2#8).toNat]? = some ⟨.i8, 2, true, 2, 2, 3⟩ ∧ State.reset.init = false ∧
      (tinyState Frame.zero).catEntry 1 = none ∧ (tiny true).fields.length ≤ (3#8).toNat :=
  ⟨inv_ready, rfl, rfl, rfl, rfl, rfl, by decide⟩

/-- The last element of the last field of a v2 frame. -/
theorem witness_ElementStaysInsidePayload :
    Inv (tinyState frame2) ∧ (tinyState frame2).frame.valid = true ∧
      (tinyState frame2).catEntry frame2.msgId = some (tiny false) ∧
      (tiny false).fields[(2#8).toNat]? = some ⟨.i8, 2, true, 2, 2, 3⟩ ∧
      (1#8).toNat < max 1 (2#8).toNat :=
  ⟨inv_frame2, rfl, rfl, rfl, by decide⟩

/-- The failing clauses of FIELD_READ and FIELD_WRITE: no catalog, no frame, the first selector and the
first element out of range. -/
theorem witness_FieldReadWidensElement :
    (tinyState frame1).init = true ∧ (tinyState frame1).frame.valid = true ∧
      (tinyState frame1).catEntry frame1.msgId = some (tiny true) ∧
      (tiny true).fields[(2#8).toNat]? = some ⟨.i8, 2, true, 2, 2, 3⟩ ∧
      (1#8).toNat < max 1 (2#8).toNat ∧ State.reset.init = false ∧
      (tinyState Frame.zero).frame.valid = false ∧ (tiny true).fields.length ≤ (3#8).toNat ∧
      max 1 (2#8).toNat ≤ (2#8).toNat :=
  ⟨rfl, rfl, rfl, rfl, by decide, rfl, rfl, by decide, by decide⟩

theorem witness_FieldWriteStoresElement :
    Inv (tinyState frame2) ∧ (tinyState frame2).init = true ∧
      (tinyState frame2).frame.valid = true ∧
      (tinyState frame2).catEntry frame2.msgId = some (tiny false) ∧
      (tiny false).fields[(0#8).toNat]? = some ⟨.u16, 0, false, 1, 2, 0⟩ ∧
      (0#8).toNat < max 1 (0#8).toNat ∧ max 1 (0#8).toNat ≤ (1#8).toNat :=
  ⟨inv_frame2, rfl, rfl, rfl, rfl, by decide, by decide⟩

/-- A parsed v1 frame, whose extended field 2 is not on the wire. -/
theorem witness_FieldValueIsReadElementwise :
    Inv (tinyIn []) ∧ (nextOf (exec (.parse 11) (tinyIn bytes1))).status = okStatus ∧
      (nextOf (exec (.parse 11) (tinyIn bytes1))).frame.ver = .v1 ∧
      (nextOf (exec (.parse 11) (tinyIn bytes1))).catEntry 0 = some (tiny true) ∧
      (tiny true).fields[(2#8).toNat]? = some ⟨.i8, 2, true, 2, 2, 3⟩ :=
  ⟨inv_ready, by decide +kernel, by decide +kernel, by decide +kernel, rfl⟩

/-- A frame trimmed to one byte: field 1 lies at byte 2; both commands. -/
theorem witness_TruncatedElementReadsZero :
    let t := nextOf (exec (.parse 13) (tinyIn bytes2))
    let u := nextOf (exec (.parseStream 13) (tinyIn bytes2))
    t.status = okStatus ∧ u.status = okStatus ∧ t.frame.len = 1 ∧ u.frame.len = 1 ∧
      t.catEntry t.frame.msgId = some (tiny true) ∧
      (tiny true).fields[(1#8).toNat]? = some ⟨.u8, 0, false, 0, 1, 2⟩ ∧
      (0#8).toNat < max 1 (0#8).toNat ∧ t.frame.len.toNat ≤ 2 + (0#8).toNat * Kind.u8.size := by
  decide +kernel

theorem witness_WriteThenReadElement :
    Inv (tinyState frame2) ∧ (tinyState frame2).frame.valid = true ∧
      (tinyState frame2).catEntry frame2.msgId = some (tiny false) ∧
      (tiny false).select 2 0 = some ⟨.i8, 2, true, 2, 2, 3⟩ ∧
      (tiny false).select 2 1 = some ⟨.i8, 2, true, 2, 2, 3⟩ ∧
      ((2, 0) : Byte × Byte) ≠ (2, 1) :=
  ⟨inv_frame2, rfl, rfl, rfl, rfl, by decide⟩

/-- The steps of R221 one by one: 11 of 12 bytes, then the announced length missing one byte, an unknown
id, an excluded one, a length one above the limit, a bad checksum, and 12 of 13 signature bytes. -/
theorem witness_CandidateFailsInStepOrder :
    let cat := (tinyState Frame.zero).cat
    let signed : List Byte :=
      frameBytes (tiny true) { Frame.zero with ver := .v2, incompat := 1 } 1 ++ List.replicate 12 0
    (bytes2.take 11).length < headerBytesOf .v2 + 2 ∧
      (bytes2.take 12).length < candidateBytes .v2 (bytes2.take 12) ∧
      Cells.read? cat (candidateId .v1 [0xFE, 0, 0, 0, 0, 9, 0, 0]) = none ∧
      Cells.read? cat (candidateId .v2 bytes300) = some (tiny false) ∧
      Cells.read? cat (candidateId .v1 [0xFE, 4, 0, 0, 0, 0, 0, 0, 0, 0, 0, 0]) = some (tiny true) ∧
      (tiny true).base.toNat < (4#8).toNat ∧ bytes1.length = candidateBytes .v1 bytes1 ∧
      computedChecksum 50 .v1 (bytes1.take 10 ++ [0]) ≠ wireChecksum .v1 (bytes1.take 10 ++ [0]) ∧
      computedChecksum 50 .v2 signed = wireChecksum .v2 signed ∧
      candidateSigned .v2 signed = true ∧ signed.length < candidateBytes .v2 signed + 13 := by
  decide +kernel

/-- Each way a scan ends, at the least and at the greatest count. -/
theorem witness_ParseLoadsFrame :
    let scanOf (s : State) (n : Nat) := scan s.cat .discrete 0 (s.inPrefix n) none
    (tinyIn bytes1).params.legal = true ∧ (tinyIn bytes1).init = true ∧
      (match scanOf (tinyIn bytes1) 11 with
        | .found f a b => decide (f.len = 3 ∧ a = 0 ∧ b = 11)
        | .needMore _ => false
        | .exhausted _ => false) = true ∧
      scanOf (tinyIn []) 0 = .exhausted .startMarkerNotFound ∧
      scanOf (tinyIn (bytes1.take 10)) 10 = .exhausted .frameTooShort ∧
      State.reset.init = false ∧ (tinyIn []).params.inCap < (281#16).toNat := by decide +kernel

theorem witness_ParseStreamReportsProgress :
    let scanOf (s : State) (n : Nat) := scan s.cat .stream 0 (s.inPrefix n) none
    (tinyIn bytes1).params.legal = true ∧ (tinyIn bytes1).init = true ∧
      (match scanOf (tinyIn bytes2) 13 with
        | .found f a b => decide (f.len = 1 ∧ a = 0 ∧ b = 13)
        | .needMore _ => false
        | .exhausted _ => false) = true ∧
      scanOf (tinyIn (bytes2.take 12)) 12 = .needMore 0 ∧
      scanOf (tinyIn bytes300) 13 = .exhausted .messageExcluded ∧
      State.reset.init = false ∧ (tinyIn []).params.inCap < (281#16).toNat := by decide +kernel

/-- A marker at index 0 whose candidate fails (its id 9 is not mapped). -/
theorem witness_EveryFailedCandidateIsConsumed :
    let s := tinyIn [0xFE, 0, 0, 0, 0, 9, 0, 0]
    s.params.legal = true ∧ s.init = true ∧ (8#16).toNat ≤ s.params.inCap ∧
      (nextOf (exec (.parseStream 8) s)).status = errStatus 9 ∧
      MarkerAt (s.inPrefix 8) 0 .v1 ∧ AllFailBelow s.cat .stream (s.inPrefix 8) (0 + 1) := by
  refine ⟨by decide, rfl, by decide, by decide +kernel, .inl ⟨rfl, rfl⟩, ?_⟩
  intro i hi ver hm
  obtain rfl : i = 0 := by omega
  rcases hm with ⟨rfl, _⟩ | ⟨rfl, h⟩
  · exact ⟨.messageNotFound, by decide +kernel⟩
  · exact absurd h (by decide +kernel)

/-- (a) a frame and bytes after it; (b), (c) junk before it that holds no marker. -/
theorem witness_ScannerResynchronizes :
    let s := tinyIn (bytes1 ++ [0xFD])
    let u := tinyIn ([7] ++ bytes1)
    s.params.legal = true ∧ s.init = true ∧ (12#16).toNat ≤ s.params.inCap ∧
      s.inPrefix 12 = [] ++ bytes1 ++ [0xFD] ∧ u.inPrefix 12 = [7] ++ bytes1 ++ [] ∧
      MarkerAt bytes1 0 .v1 ∧
      (∀ mode ∈ [Mode.discrete, Mode.stream],
        (match tryCandidate s.cat mode .v1 bytes1 with
        | .ok _ k => decide (k = bytes1.length)
        | .fail _ => false
        | .needMore => false) = true) ∧
      ∀ i < [(7 : Byte)].length, ∀ v, ¬ MarkerAt ([7] ++ bytes1) i v := by
  refine ⟨by decide, rfl, by decide, by decide +kernel, by decide +kernel,
    .inl ⟨rfl, by decide +kernel⟩, by decide +kernel, ?_⟩
  intro i hi v hm
  obtain rfl : i = 0 := by simpa using hi
  rcases hm with ⟨_, h⟩ | ⟨_, h⟩ <;> exact absurd h (by decide +kernel)

/-- Two memories that agree on the first 11 bytes and differ on the twelfth. -/
theorem witness_InputBeyondCountIsNotRead :
    let s := tinyIn (bytes1 ++ [1])
    (∀ j < (11#16).toNat, ({ s with inMem := listed 0 (bytes1 ++ [2]) } : State).readIn j = s.readIn j) ∧
      ∃ t, exec (.parse 11) s = .next t := by
  exact ⟨by decide +kernel, _, rfl⟩

/-- v1 with the least id above 255, and with the greatest allowed. -/
theorem witness_FrameNewStartsFrame :
    let s : State :=
      { tinyState Frame.zero with cat := [(255, tiny true), (256, tiny true)] }
    s.init = true ∧ s.catEntry 255 = some (tiny true) ∧ (255 : MsgId).toNat ≤ 255 ∧
      s.catEntry 256 = some (tiny true) ∧ 255 < (256 : MsgId).toNat ∧ s.catEntry 257 = none ∧
      State.reset.init = false := by decide +kernel

theorem witness_SetHeaderWritesHeader :
    (tinyState frame1).init = true ∧ frame1.valid = true ∧ frame1.ver = .v1 ∧ frame2.valid = true ∧
      frame2.ver = .v2 ∧ State.reset.init = false ∧ (tinyState Frame.zero).frame.valid = false := by
  decide

theorem witness_EmittedLengthIsTrimmed :
    frame1.ver = .v1 ∧ frame2.ver = .v2 ∧ 0 < (tiny true).max.toNat ∧
      ({ tiny true with max := 0 } : Entry).max.toNat = 0 ∧
      emittedLength true (tiny true) frame2 ≤ 1 ∧ 1 < (tiny true).max.toNat := by decide +kernel

theorem witness_SerializeEmitsFrame :
    (tinyState frame1).init = true ∧ (tinyState frame1).frame.valid = true ∧
      (tinyState frame1).catEntry frame1.msgId = some (tiny true) ∧
      (tinyState frame2).catEntry frame2.msgId = some (tiny false) ∧ State.reset.init = false ∧
      (tinyState Frame.zero).frame.valid = false := ⟨rfl, rfl, rfl, rfl, rfl, rfl⟩

/-- The v1 frame of message 0: its OUT, copied to IN. -/
theorem witness_SerializeThenParseRoundTrip :
    Inv (tinyState frame1) ∧ frame1.valid = true ∧
      (tinyState frame1).catEntry frame1.msgId = some (tiny true) ∧ (tiny true).included = true ∧
      frame1.incompat.getLsbD 0 = false ∧
      let t := ran .serialize (tinyState frame1)
      ∀ i < t.outLen.toNat,
        ({ t with inMem := listed 0 (slice t.out 0 11) } : State).readIn i = byteAt t.out i :=
  ⟨inv_frame1, rfl, rfl, rfl, rfl, by decide +kernel⟩

theorem witness_EncodeIgnoresFilter :
    ∃ t, exec .serialize (tinyState frame2) = .next t := ⟨_, rfl⟩

theorem witness_CommandsRaiseOnlyTheirCodes :
    (∃ t, exec .serialize (tinyState Frame.zero) = .next t ∧ t.status = errStatus 21) ∧
      ∃ t, runWord 0x43 (tinyState Frame.zero) = .next t ∧ t.status = errStatus 17 :=
  ⟨⟨_, rfl, rfl⟩, _, rfl, rfl⟩

/-- A failing command of each of the three clauses. -/
theorem witness_FailureLeavesStateAlone :
    Inv (tinyState frame1) ∧
      (∃ t, exec (.frameNew 9 .v2) (tinyState frame1) = .next t ∧ t.status.ok = false) ∧
      isParse (.frameNew 9 .v2) = false ∧
      (∃ t, exec (.parse 0) (tinyState frame1) = .next t ∧ t.status.ok = false) ∧
      ∃ t, exec (.parseStream 0) (tinyState frame1) = .next t ∧ t.status.ok = false :=
  ⟨inv_frame1, ⟨_, rfl, rfl⟩, rfl, ⟨_, rfl, rfl⟩, _, rfl, rfl⟩

theorem witness_ResultChangesOnlyOnSuccess :
    (∃ t, exec (.fieldRead 3 0) (tinyState frame1) = .next t ∧ t.status.ok = false) ∧
      writesResult (.fieldWrite 0 0) = false ∧
      ∃ t, exec (.fieldWrite 0 0) (tinyState frame1) = .next t :=
  ⟨⟨_, rfl, rfl⟩, rfl, _, rfl⟩

theorem witness_OutChangesOnlyOnSerialize :
    (∃ t, exec (.parse 0) (tinyState frame1) = .next t) ∧
      ∃ t, exec .serialize (tinyState frame1) = .next t ∧ t.status = okStatus :=
  ⟨⟨_, rfl⟩, _, rfl, rfl⟩

/-- FIELD_READ meets the premises on the catalog, the stream, the frame and CRC, SET_HEADER that on
RESULT. -/
theorem witness_CommandsLeaveInputsAlone :
    (∃ t, exec (.setHeader 1 2 3 4 5) (tinyState frame1) = .next t) ∧
      (∃ t, exec (.fieldRead 0 0) (tinyState frame1) = .next t) ∧
      writesFrame (.fieldRead 0 0) = false ∧ isCrc (.fieldRead 0 0) = false ∧
      writesResult (.setHeader 1 2 3 4 5) = false ∧ (tinyState frame1).init = true :=
  ⟨⟨_, rfl⟩, ⟨_, rfl⟩, rfl, rfl, rfl, rfl⟩

/-- Before initialization; a step after it that is no reset; and a CAT_INIT that succeeds. -/
theorem witness_NothingRunsBeforeInit :
    State.reset.init = false ∧ (Instr.parse 0).wellFormed State.reset.params = true ∧
      isCrc (.parse 0) = false ∧
      (tinyState frame1).init = true ∧ (∃ t, step (tinyState frame1) = .next t) ∧
      (∀ rest, (tinyState frame1).port ≠ .reset :: rest) ∧
      (∃ t, exec (.catInit 0) (tinyState frame1) = .next t ∧ t.status = okStatus) ∧
      Inv (tinyState frame1) :=
  ⟨rfl, by decide +kernel, rfl, rfl, ⟨_, rfl⟩, fun _ h => List.noConfusion rfl (heq_of_eq h), ⟨_, rfl, rfl⟩, inv_frame1⟩

theorem witness_HostReadsRegisterFields : Inv (tinyState frame1) ∧ frame1.ver = .v1 :=
  ⟨inv_frame1, rfl⟩

/-- A word that decodes, one that does not, a write of DATA, and a command that is neither FIELD_WRITE
nor PARSE_STREAM. -/
theorem witness_CommandDataAndStreamRegisters :
    (({ tinyState frame1 with port := [.write .b64 0x000 0x42] } : State).port =
        .write .b64 0x000 0x42 :: []) ∧
      decode 0x42 = .ok .serialize ∧ decode 0x43 = .error .unknownOpcode ∧
      (({ tinyState frame1 with port := [.write .b64 0x008 7] } : State).port =
        .write .b64 0x008 7 :: []) ∧
      (∃ t, exec .serialize (tinyState frame1) = .next t) ∧ Inv (tinyState frame1) :=
  ⟨rfl, by decide, by decide, rfl, ⟨_, rfl⟩, inv_frame1⟩

theorem witness_HostReadsWindows :
    (nextOf (exec (.parse 13) (tinyIn bytes2))).status = okStatus ∧
      (nextOf (exec (.parseStream 13) (tinyIn bytes2))).status = okStatus ∧
      (tinyState frame1).params.legal = true := by decide +kernel

/-- The last byte of IN and the last entry of IDLIST. -/
theorem witness_HostWritesStore :
    let s (a : HostAccess) : State := { tinyState frame1 with port := [a, .reset] }
    let table : List SchemaEntry := [⟨5, 0, []⟩]
    (s .reset).params.legal = true ∧ 279 < (s .reset).params.inCap ∧ 0 < (s .reset).params.idlCap ∧
      (s (.write .b64 0x008 7)).port = .write .b64 0x008 7 :: [.reset] ∧
      (s (.write .b8 0x10117 7)).port = .write .b8 (BitVec.ofNat 17 (0x10000 + 279)) 7 :: [.reset] ∧
      (s (.write .b32 0x4000 7)).port = .write .b32 (BitVec.ofNat 17 (0x4000 + 4 * 0)) 7 :: [.reset] ∧
      (s (.stageSchemas table)).port = .stageSchemas table :: [.reset] ∧
      (s (.read .b64 0x018)).hostRead? .b64 0x018 = some 0 := by
  decide +kernel

/-- Reserved offsets next to the windows; the first and last read-only registers; the first and last
bytes of a window; and each kind of access R32 does not give. -/
theorem witness_ReservedOffsetsAreInert :
    let p : Params := ⟨280, 1, 2, true⟩
    (tinyState frame1).params = p ∧
      (∀ off ∈ [0x60, 0xFF, 0x10D, 0x1FF, 0x2FF, 0x2FFF, 0x3118, 0x4004, 0xFFFF, 0x10118, 0x1FFFF],
        ReservedOffset p off) ∧
      (0x010 : Offset).toNat % 8 = 0 ∧ (0x058 : Offset).toNat ≤ 0x058 ∧
      (0x100 : Offset).toNat = 0x100 ∧ (0x3117 : Offset).toNat = 0x3117 ∧
      (0x60 : Offset).toNat % Width.b32.bytes = 0 ∧ Width.b32 ≠ .b16 ∧
      (0x4002 : Offset).toNat % Width.b32.bytes ≠ 0 ∧ (0x05F : Offset).toNat < 0x60 ∧
      (0x4003 : Offset).toNat < 0x4000 + 4 * p.idlCap ∧
      (0x10117 : Offset).toNat < 0x10000 + p.inCap ∧
      ¬ (0x10117 : Offset).toNat < 0x4000 + 4 * p.idlCap := by
  refine ⟨rfl, ?_, by decide, by decide, by decide, by decide, by decide, by decide, by decide, by decide, by decide,
    by decide, by decide⟩
  intro off h
  simp only [List.mem_cons, List.not_mem_nil, or_false] at h
  rcases h with rfl | rfl | rfl | rfl | rfl | rfl | rfl | rfl | rfl | rfl | rfl <;>
    simp [ReservedOffset]

theorem witness_ResetValues :
    ({ tinyState frame1 with port := [.reset] } : State).port = .reset :: [] := rfl

theorem witness_IdlePortChangesNothing : (tinyState frame1).port = [] := rfl

/-- A step that changes the frame registers, from a state that meets the invariant. -/
theorem witness_StepKeepsInvariant :
    Inv (tinyState frame1) ∧ ∃ t, step (tinyState frame1) = .next t := ⟨inv_frame1, _, rfl⟩

theorem witness_NoCommandStopsTheBlock : Inv (tinyState frame2) := inv_frame2

end Sys2Proof.Tests
end

section
/-! PROOFS. What each command can do, said once: the relation `Effect` has one constructor per way a
command can end, and `exec_effect` says that every command that ends in a next state ends in one of
them. What a command leaves alone is then read off the constructors. -/

namespace Sys2Proof.Machine

/-! ### How a scan ends -/

/-- The reasons for which a candidate fails validation (R221 to R229): a lack of bytes is one
of them in discrete mode alone. -/
def CandidateReason (m : Mode) (r : Err) : Prop :=
  r ∈ [Err.messageNotFound, .messageExcluded, .payloadLengthInvalid, .badChecksum] ∨
    (m = .discrete ∧ r ∈ [Err.frameTooShort, .signatureLengthInvalid])

/-- The frame of a signed candidate: that of the unsigned one with its signature bytes (R229). -/
def signedFrame (v : Version) (b : List Byte) : Frame :=
  { bodyFrame v b with
    hasSig := true
    sig := Bytes.ofList 13 (portion b (candidateBytes v b) 13) }

/-- Everything that holds of a candidate that decodes to `f` from its first `size` bytes (R221). -/
def DecodesTo (cat : Cells Entry) (v : Version) (b : List Byte) (f : Frame) (size : Nat) : Prop :=
  size ≤ b.length ∧
    ∃ e, Cells.read? cat (candidateId v b) = some e ∧ e.included = true ∧
      (b.getD 1 0).toNat ≤ (e.limit v).toNat ∧
      computedChecksum e.crcExtra v b = wireChecksum v b ∧
      ((candidateSigned v b = false ∧ f = bodyFrame v b ∧ size = candidateBytes v b) ∨
        (candidateSigned v b = true ∧ f = signedFrame v b ∧ size = candidateBytes v b + 13))

/-- A lack of bytes is a failure in discrete mode and NeedMore in stream mode (R229). -/
theorem lacking_cases (m : Mode) {r : Err} (hr : r ∈ [Err.frameTooShort, .signatureLengthInvalid]) :
    (∃ r', m.lacking r = .fail r' ∧ CandidateReason m r') ∨
      (m.lacking r = .needMore ∧ m = .stream) := by
  cases m with
  | discrete => exact .inl ⟨r, rfl, .inr ⟨rfl, hr⟩⟩
  | stream => exact .inr ⟨rfl, rfl⟩

/-- EVERYTHING THE CANDIDATE PROCEDURE CAN ANSWER (R221). -/
theorem tryCandidate_cases (cat : Cells Entry) (m : Mode) (v : Version) (b : List Byte) :
    (∃ f size, tryCandidate cat m v b = .ok f size ∧ DecodesTo cat v b f size) ∨
      (∃ r, tryCandidate cat m v b = .fail r ∧ CandidateReason m r) ∨
      (tryCandidate cat m v b = .needMore ∧ m = .stream) := by
  rcases Nat.lt_or_ge b.length (candidateBytes v b) with hs | hb
  · rw [tryCandidate_short cat m v b hs]
    exact .inr (lacking_cases m (by simp))
  rw [tryCandidate_whole cat m v b hb, tryBody_eq cat m v b hb]
  cases he : Cells.read? cat (candidateId v b) with
  | none => exact .inr (.inl ⟨_, rfl, .inl (by simp)⟩)
  | some e =>
    dsimp only
    split_ifs with hi hl hc hsig h13
    · exact .inr (.inl ⟨_, rfl, .inl (by simp)⟩)
    · exact .inr (.inl ⟨_, rfl, .inl (by simp)⟩)
    · exact .inr (.inl ⟨_, rfl, .inl (by simp)⟩)
    · exact .inr (lacking_cases m (by simp))
    · exact .inl ⟨_, _, rfl, by omega, e, he, by simpa using hi, by omega, not_not.mp hc,
        .inr ⟨hsig, rfl, rfl⟩⟩
    · exact .inl ⟨_, _, rfl, hb, e, he, by simpa using hi, by omega, not_not.mp hc,
        .inl ⟨by simpa using hsig, rfl, rfl⟩⟩

section Candidate

variable {cat : Cells Entry} {m : Mode} {v : Version} {b : List Byte}

theorem tryCandidate_ok {f : Frame} {size : Nat} (h : tryCandidate cat m v b = .ok f size) :
    DecodesTo cat v b f size := by
  rcases tryCandidate_cases cat m v b with ⟨_, _, heq, hd⟩ | ⟨_, heq, -⟩ | ⟨heq, -⟩ <;>
    cases heq.symm.trans h
  exact hd

theorem tryCandidate_fail {r : Err} (h : tryCandidate cat m v b = .fail r) :
    CandidateReason m r := by
  rcases tryCandidate_cases cat m v b with ⟨_, _, heq, -⟩ | ⟨_, heq, hr⟩ | ⟨heq, -⟩ <;>
    cases heq.symm.trans h
  exact hr

/-- A candidate asks for more bytes in stream mode alone (R229). -/
theorem tryCandidate_needMore (h : tryCandidate cat m v b = .needMore) : m = .stream := by
  rcases tryCandidate_cases cat m v b with ⟨_, _, heq, -⟩ | ⟨_, heq, -⟩ | ⟨heq, hm⟩ <;>
    cases heq.symm.trans h
  exact hm

end Candidate

/-- A frame found is a candidate that decodes, at the index the scan reports (R230, R232). -/
theorem scan_found {cat : Cells Entry} {m : Mode} {b : List Byte} {i : Nat} {last : Option Err}
    {f : Frame} {start stop : Nat} (h : scan cat m i b last = .found f start stop) :
    ∃ j v size, j ≤ b.length ∧ tryCandidate cat m v (b.drop j) = .ok f size ∧
      start = i + j ∧ stop = i + j + size := by
  induction b generalizing i last with
  | nil => cases h
  | cons x rest ih =>
    have later {last'} (h' : scan cat m (i + 1) rest last' = .found f start stop) :
        ∃ j v size, j ≤ (x :: rest).length ∧
          tryCandidate cat m v ((x :: rest).drop j) = .ok f size ∧
          start = i + j ∧ stop = i + j + size := by
      obtain ⟨j, v, size, hj, ht, hstart, hstop⟩ := ih h'
      exact ⟨j + 1, v, size, by simpa using hj, ht, by omega, by omega⟩
    simp only [scan] at h
    split at h
    · exact later h
    next v hv =>
      split at h
      next ht =>
        cases h
        exact ⟨0, v, _, Nat.zero_le _, ht, rfl, rfl⟩
      · cases h
      · exact later h

/-- The candidate a scan waits for begins inside the bytes scanned, and the scan is a stream
(R232). -/
theorem scan_needMore {cat : Cells Entry} {m : Mode} {b : List Byte} {i : Nat} {last : Option Err}
    {k : Nat} (h : scan cat m i b last = .needMore k) : m = .stream ∧ k < i + b.length := by
  induction b generalizing i last with
  | nil => cases h
  | cons x rest ih =>
    have later {last'} (h' : scan cat m (i + 1) rest last' = .needMore k) :
        m = .stream ∧ k < i + (x :: rest).length := by
      obtain ⟨hm, hk⟩ := ih h'
      exact ⟨hm, by simp only [List.length_cons]; omega⟩
    simp only [scan] at h
    split at h
    · exact later h
    · split at h
      · cases h
      next ht =>
        cases h
        exact ⟨tryCandidate_needMore ht, by simp⟩
      · exact later h

/-- The reason of a scan without a frame is the one it began with, or that of a candidate (R231). -/
theorem scan_exhausted {cat : Cells Entry} {m : Mode} {b : List Byte} {i : Nat} {last : Option Err}
    {r : Err} (h : scan cat m i b last = .exhausted r) :
    r = last.getD .startMarkerNotFound ∨ CandidateReason m r := by
  induction b generalizing i last with
  | nil =>
    cases h
    exact .inl rfl
  | cons x rest ih =>
    simp only [scan] at h
    split at h
    · exact ih h
    · split at h
      · cases h
      · cases h
      next ht =>
        rcases ih h with rfl | hr
        · exact .inr (tryCandidate_fail ht)
        · exact .inr hr

theorem parse_reason_code {n : Count} {r : Err}
    (h : r = .startMarkerNotFound ∨ CandidateReason .discrete r) : r.code ∈ codesOf (.parse n) := by
  simp only [CandidateReason, List.mem_cons, List.not_mem_nil, or_false, true_and] at h
  rcases h with rfl | (rfl | rfl | rfl | rfl) | rfl | rfl <;> simp [codesOf, Err.code]

theorem parseStream_reason_code {n : Count} {r : Err}
    (h : r = .startMarkerNotFound ∨ CandidateReason .stream r) :
    r.code ∈ codesOf (.parseStream n) := by
  simp only [CandidateReason, List.mem_cons, List.not_mem_nil, or_false, reduceCtorEq,
    false_and] at h
  rcases h with rfl | rfl | rfl | rfl | rfl <;> simp [codesOf, Err.code]

/-! ### How a command ends -/

/-- How a command takes the state `s` to a next state, one constructor per way of ending. -/
inductive Effect (s : State) : Instr → State → Prop
  /-- An error that changes nothing but STATUS (R300). -/
  | fails {i : Instr} (e : Err) (hcode : e.code ∈ codesOf i) : Effect s i (setStatus e s)
  /-- The CRC family ends with a new CRC, which is RESULT too (R143 to R146). -/
  | crc {i : Instr} (c : Crc16) (hi : isCrc i = true) :
      Effect s i (setStatus .none (setResult (c.setWidth 64) { s with crc := c }))
  /-- CAT_LOOKUP, CAT_FIELD and FIELD_READ end with a new RESULT (R171, R172, R205). -/
  | reports {i : Instr} (v : Word) (hi : writesResult i = true) :
      Effect s i (setStatus .none (setResult v s))
  /-- CAT_INIT installs the table it compiled (R168). -/
  | catInit (m : Count) (cat : Cells Entry)
      (hcompile : compile s.params.maxMessages s.sch (s.idPrefix m.toNat) = .ok cat) :
      Effect s (.catInit m) (setStatus .none (clearFrame { s with cat := cat, init := true }))
  /-- CAT_INCLUDE sets every filter bit (R169). -/
  | catInclude (m : Count) (hinit : s.init = true) :
      Effect s (.catInclude m)
        (setStatus .none
          { s with
            cat :=
              Cells.mapData (fun k e => { e with included := includes (s.idPrefix m.toNat) k })
                s.cat })
  /-- CAT_EXCLUDE clears the filter bit of every id listed but 0 (R170). -/
  | catExclude (m : Count) (ids : List MsgId) (hinit : s.init = true)
      (hids : ids = (s.idPrefix m.toNat).filter (fun x => x != 0#24)) :
      Effect s (.catExclude m)
        (setStatus .none
          { s with
            cat :=
              Cells.mapData
                (fun k e =>
                  if ids.any (fun x => x.toNat == k) then { e with included := false } else e)
                s.cat })
  /-- PARSE loads the frame it found (R230, R234). -/
  | parseFound (n : Count) (f : Frame) (start stop : Nat) (hinit : s.init = true)
      (hscan : scan s.cat .discrete 0 (s.inPrefix n.toNat) none = .found f start stop) :
      Effect s (.parse n)
        (setStatus .none (setResult (parseWord start stop) (loadFrame f (clearFrame s))))
  /-- PARSE finds no frame and clears the frame registers (R230, R235). -/
  | parseExhausted (n : Count) (r : Err) (hcode : r.code ∈ codesOf (.parse n)) :
      Effect s (.parse n) (setStatus r (clearFrame s))
  /-- PARSE_STREAM loads the frame it found (R232, R234). -/
  | streamFound (n : Count) (f : Frame) (start stop : Nat) (hn : n.toNat ≤ s.params.inCap)
      (hinit : s.init = true)
      (hscan : scan s.cat .stream 0 (s.inPrefix n.toNat) none = .found f start stop) :
      Effect s (.parseStream n)
        (setStatus .none
          (setStream stop stop (setResult (parseWord start stop) (loadFrame f (clearFrame s)))))
  /-- PARSE_STREAM stops at a candidate that needs more bytes (R232). -/
  | streamNeedMore (n : Count) (k : Nat) (hn : n.toNat ≤ s.params.inCap) (hk : k < n.toNat) :
      Effect s (.parseStream n) (setStatus .needMore (setStream k n.toNat (clearFrame s)))
  /-- PARSE_STREAM finds no frame in the bytes it was given (R232). -/
  | streamExhausted (n : Count) (r : Err) (hn : n.toNat ≤ s.params.inCap)
      (hcode : r.code ∈ codesOf (.parseStream n)) :
      Effect s (.parseStream n) (setStatus r (setStream n.toNat n.toNat (clearFrame s)))
  /-- PARSE_STREAM before CAT_INIT: it reports no progress (R232, D40). -/
  | streamUninit (n : Count) (hinit : s.init = false) :
      Effect s (.parseStream n) (setStatus .notInitialized (setStream 0 0 s))
  /-- FIELD_WRITE stores one element of the frame held (R206). -/
  | fieldWrite (k e : Byte) (en : Entry) (f : Field) (hvalid : s.frame.valid = true)
      (hcat : s.catEntry s.frame.msgId = some en) (hselect : en.select k e = some f) :
      Effect s (.fieldWrite k e) (setStatus .none (writeElement f e.toNat s.data s))
  /-- FRAME_NEW starts an empty frame of a message in the catalog (R260). -/
  | frameNew (id : MsgId) (ver : Version) (en : Entry) (hinit : s.init = true)
      (hcat : s.catEntry id = some en) (hid : ver = .v1 → id.toNat ≤ 255) :
      Effect s (.frameNew id ver)
        (setStatus .none
          (loadFrame { Frame.zero with valid := true, ver := ver, msgId := id, len := en.limit ver }
            (clearFrame s)))
  /-- SET_HEADER on a v1 frame ignores the flags (R261). -/
  | setHeaderV1 (seq sys comp incompat compat : Byte) (hvalid : s.frame.valid = true)
      (hver : s.frame.ver = .v1) :
      Effect s (.setHeader seq sys comp incompat compat)
        (setStatus .none
          { s with frame := { s.frame with seq := seq, sysId := sys, compId := comp } })
  /-- SET_HEADER on a v2 frame (R261). -/
  | setHeaderV2 (seq sys comp incompat compat : Byte) (hvalid : s.frame.valid = true)
      (hver : s.frame.ver = .v2) :
      Effect s (.setHeader seq sys comp incompat compat)
        (setStatus .none
          { s with
            frame :=
              { s.frame with
                seq := seq, sysId := sys, compId := comp, incompat := incompat
                compat := compat } })
  /-- SERIALIZE emits the frame held: its bytes, its length, and LEN and CKSUM as emitted (R265). -/
  | serialize (en : Entry) (ln : Nat) (bytes : List Byte) (hvalid : s.frame.valid = true)
      (hcat : s.catEntry s.frame.msgId = some en)
      (hln : ln = emittedLength s.params.v2Trim en s.frame)
      (hbytes : bytes = frameBytes en s.frame ln) :
      Effect s .serialize
        (setStatus .none
          (setResult (BitVec.ofNat 64 bytes.length)
            { s with
              out := Bytes.ofList 280 bytes
              outLen := BitVec.ofNat 16 bytes.length
              frame :=
                { s.frame with
                  len := BitVec.ofNat 8 ln, cksum := emittedChecksum en s.frame ln } }))

/-! ### The guards, and the effect of what stands behind them -/

section Guards

variable {s t : State} {i : Instr}

theorem effect_of_raise {e : Err} (h : raise e s = .next t)
    (hcode : e.code ∈ codesOf i := by simp [codesOf, Err.code]) : Effect s i t := by
  cases h
  exact .fails e hcode

theorem effect_of_withInCount {n : Count} {run : List Byte → Out}
    (h : withInCount n s run = .next t)
    (hrun : n.toNat ≤ s.params.inCap → run (s.inPrefix n.toNat) = .next t → Effect s i t)
    (hcode : Err.illegalCommand.code ∈ codesOf i := by simp [codesOf, Err.code]) :
    Effect s i t := by
  rcases withInCount_cases n s run with ⟨hn, heq⟩ | ⟨-, heq⟩ <;> rw [heq] at h
  · exact hrun hn h
  · exact effect_of_raise h hcode

theorem effect_of_withIdCount {m : Count} {run : List MsgId → Out}
    (h : withIdCount m s run = .next t)
    (hrun : run (s.idPrefix m.toNat) = .next t → Effect s i t)
    (hcode : Err.illegalCommand.code ∈ codesOf i := by simp [codesOf, Err.code]) :
    Effect s i t := by
  rcases withIdCount_cases m s run with ⟨-, heq⟩ | ⟨-, heq⟩ <;> rw [heq] at h
  · exact hrun h
  · exact effect_of_raise h hcode

theorem effect_of_whenInit {run : Out} (h : whenInit s run = .next t)
    (hrun : s.init = true → run = .next t → Effect s i t)
    (hcode : Err.notInitialized.code ∈ codesOf i := by simp [codesOf, Err.code]) :
    Effect s i t := by
  rcases whenInit_cases s run with ⟨hi, heq⟩ | ⟨-, heq⟩ <;> rw [heq] at h
  · exact hrun hi h
  · exact effect_of_raise h hcode

theorem effect_of_whenFrame {run : Out} (h : whenFrame s run = .next t)
    (hrun : s.frame.valid = true → run = .next t → Effect s i t)
    (hinit : Err.notInitialized.code ∈ codesOf i := by simp [codesOf, Err.code])
    (hframe : Err.noFrame.code ∈ codesOf i := by simp [codesOf, Err.code]) :
    Effect s i t := by
  rcases whenFrame_cases s run with ⟨-, hv, heq⟩ | ⟨-, heq⟩ | ⟨-, -, heq⟩ <;> rw [heq] at h
  · exact hrun hv h
  · exact effect_of_raise h hinit
  · exact effect_of_raise h hframe

theorem effect_of_withFrameEntry {run : Entry → Out} (h : withFrameEntry s run = .next t)
    (hrun : ∀ en, s.frame.valid = true → s.catEntry s.frame.msgId = some en →
      run en = .next t → Effect s i t)
    (hinit : Err.notInitialized.code ∈ codesOf i := by simp [codesOf, Err.code])
    (hframe : Err.noFrame.code ∈ codesOf i := by simp [codesOf, Err.code]) :
    Effect s i t := by
  rcases withFrameEntry_cases s run with
    ⟨en, -, hv, hcat, heq⟩ | ⟨-, -, -, heq⟩ | ⟨-, heq⟩ | ⟨-, -, heq⟩ <;> rw [heq] at h
  · exact hrun en hv hcat h
  · cases h
  · exact effect_of_raise h hinit
  · exact effect_of_raise h hframe

end Guards

/-! ### The effect of each command -/

section Commands

variable {s t : State}

theorem finishCrc_effect {i : Instr} {c : Crc16} (hi : isCrc i = true)
    (h : finishCrc c s = .next t) : Effect s i t := by
  cases h
  exact .crc c hi

theorem execCrcCalc_effect {n : Count} (h : execCrcCalc n s = .next t) :
    Effect s (.crcCalc n) t :=
  effect_of_withInCount h fun _ hrun => finishCrc_effect rfl hrun

theorem compile_error_code {maxMessages : Nat} {sch : List SchemaEntry} {ids : List MsgId} {e : Err}
    {m : Count} (h : compile maxMessages sch ids = .error e) : e.code ∈ codesOf (.catInit m) := by
  have he := compile_error h
  simp only [List.mem_cons, List.not_mem_nil, or_false] at he
  rcases he with rfl | rfl | rfl | rfl <;> simp [codesOf, Err.code]

theorem execCatInit_effect {m : Count} (h : execCatInit m s = .next t) :
    Effect s (.catInit m) t := by
  refine effect_of_withIdCount h fun hrun => ?_
  split at hrun
  next hc => exact effect_of_raise hrun (compile_error_code hc)
  next cat hc =>
    cases hrun
    exact .catInit m cat hc

theorem execCatInclude_effect {m : Count} (h : execCatInclude m s = .next t) :
    Effect s (.catInclude m) t := by
  refine effect_of_withIdCount h fun h => effect_of_whenInit h fun hinit hrun => ?_
  split at hrun
  · exact effect_of_raise hrun
  · cases hrun
    exact .catInclude m hinit

theorem execCatExclude_effect {m : Count} (h : execCatExclude m s = .next t) :
    Effect s (.catExclude m) t := by
  refine effect_of_withIdCount h fun h => effect_of_whenInit h fun hinit hrun => ?_
  dsimp only at hrun
  split at hrun
  · exact effect_of_raise hrun
  · cases hrun
    exact .catExclude m _ hinit rfl

theorem execCatLookup_effect {id : MsgId} (h : execCatLookup id s = .next t) :
    Effect s (.catLookup id) t := by
  refine effect_of_whenInit h fun _ hrun => ?_
  split at hrun
  · exact effect_of_raise hrun
  · cases hrun
    exact .reports _ rfl

theorem execCatField_effect {id : MsgId} {k : Byte} (h : execCatField id k s = .next t) :
    Effect s (.catField id k) t := by
  refine effect_of_whenInit h fun _ hrun => ?_
  split at hrun
  · exact effect_of_raise hrun
  · split at hrun
    · exact effect_of_raise hrun
    · cases hrun
      exact .reports _ rfl

theorem execParse_effect {n : Count} (h : execParse n s = .next t) : Effect s (.parse n) t := by
  refine effect_of_withInCount h fun _ h => effect_of_whenInit h fun hinit hrun => ?_
  split at hrun
  next f start stop hscan =>
    cases hrun
    exact .parseFound n f start stop hinit hscan
  next hscan => cases (scan_needMore hscan).1
  next r hscan =>
    cases hrun
    exact .parseExhausted n r (parse_reason_code (scan_exhausted hscan))

theorem execParseStream_effect {n : Count} (h : execParseStream n s = .next t) :
    Effect s (.parseStream n) t := by
  refine effect_of_withInCount h fun hn hrun => ?_
  split at hrun
  next hinit =>
    split at hrun
    next f start stop hscan =>
      cases hrun
      exact .streamFound n f start stop hn hinit hscan
    next k hscan =>
      cases hrun
      exact .streamNeedMore n k hn (by simpa using (scan_needMore hscan).2)
    next r hscan =>
      cases hrun
      exact .streamExhausted n r hn (parseStream_reason_code (scan_exhausted hscan))
  next hinit =>
    cases hrun
    exact .streamUninit n (by simpa using hinit)

theorem execFieldRead_effect {k e : Byte} (h : execFieldRead k e s = .next t) :
    Effect s (.fieldRead k e) t := by
  refine effect_of_withFrameEntry h fun en _ _ hrun => ?_
  split at hrun
  · exact effect_of_raise hrun
  · cases hrun
    exact .reports _ rfl

theorem execFieldWrite_effect {k e : Byte} (h : execFieldWrite k e s = .next t) :
    Effect s (.fieldWrite k e) t := by
  refine effect_of_withFrameEntry h fun en hvalid hcat hrun => ?_
  split at hrun
  · exact effect_of_raise hrun
  next f hselect =>
    cases hrun
    exact .fieldWrite k e en f hvalid hcat hselect

theorem execFrameNew_effect {id : MsgId} {ver : Version} (h : execFrameNew id ver s = .next t) :
    Effect s (.frameNew id ver) t := by
  refine effect_of_whenInit h fun hinit hrun => ?_
  split at hrun
  · exact effect_of_raise hrun
  next en hcat =>
    split at hrun
    · exact effect_of_raise hrun
    next hid =>
      cases hrun
      exact .frameNew id ver en hinit hcat (fun hv => by simpa [hv] using hid)

theorem execSetHeader_effect {seq sys comp incompat compat : Byte}
    (h : execSetHeader seq sys comp incompat compat s = .next t) :
    Effect s (.setHeader seq sys comp incompat compat) t := by
  refine effect_of_whenFrame h fun hvalid hrun => ?_
  dsimp only at hrun
  split at hrun
  next hver =>
    cases hrun
    exact .setHeaderV1 _ _ _ _ _ hvalid hver
  next hver =>
    cases hrun
    exact .setHeaderV2 _ _ _ _ _ hvalid hver

theorem execSerialize_effect (h : execSerialize s = .next t) : Effect s .serialize t := by
  refine effect_of_withFrameEntry h fun en hvalid hcat hrun => ?_
  cases hrun
  exact .serialize en _ _ hvalid hcat rfl rfl

/-- EVERYTHING A COMMAND CAN DO: it ends in a next state by one of the constructors of `Effect`. -/
theorem exec_effect {i : Instr} (h : exec i s = .next t) : Effect s i t := by
  cases i with
  | crcSeed => exact finishCrc_effect rfl h
  | crcLoad v => exact finishCrc_effect rfl h
  | crcAcc b => exact finishCrc_effect rfl h
  | crcCalc n => exact execCrcCalc_effect h
  | catInit m => exact execCatInit_effect h
  | catInclude m => exact execCatInclude_effect h
  | catExclude m => exact execCatExclude_effect h
  | catLookup id => exact execCatLookup_effect h
  | catField id k => exact execCatField_effect h
  | parse n => exact execParse_effect h
  | parseStream n => exact execParseStream_effect h
  | fieldRead k e => exact execFieldRead_effect h
  | fieldWrite k e => exact execFieldWrite_effect h
  | frameNew id ver => exact execFrameNew_effect h
  | setHeader seq sys comp incompat compat => exact execSetHeader_effect h
  | serialize => exact execSerialize_effect h

end Commands

/-! ### What a command leaves alone -/

/-- The CRC family writes RESULT (R39). -/
theorem writesResult_of_isCrc {i : Instr} (hi : isCrc i = true) : writesResult i = true := by
  cases i with
  | crcSeed | crcLoad | crcAcc | crcCalc => rfl
  | _ => cases hi

namespace Effect

variable {s t : State} {i : Instr}

/-- No command writes what the host or the platform owns (R5, R34, R47, R48, R89). -/
theorem inputs_eq (h : Effect s i t) :
    t.params = s.params ∧ t.data = s.data ∧ t.inMem = s.inMem ∧ t.idList = s.idList ∧
      t.sch = s.sch ∧ t.port = s.port ∧ t.readData = s.readData ∧ t.epoch = s.epoch := by
  cases h <;> exact ⟨rfl, rfl, rfl, rfl, rfl, rfl, rfl, rfl⟩

theorem init_mono (h : Effect s i t) (hinit : s.init = true) : t.init = true := by
  cases h with
  | catInit => rfl
  | _ => exact hinit

theorem init_eq (h : Effect s i t) (hi : ∀ m, i ≠ .catInit m) : t.init = s.init := by
  cases h with
  | catInit m => exact absurd rfl (hi m)
  | _ => rfl

theorem cat_eq (h : Effect s i t)
    (hi : ∀ m, i ≠ .catInit m ∧ i ≠ .catInclude m ∧ i ≠ .catExclude m) : t.cat = s.cat := by
  cases h with
  | catInit m => exact absurd rfl (hi m).1
  | catInclude m => exact absurd rfl (hi m).2.1
  | catExclude m => exact absurd rfl (hi m).2.2
  | _ => rfl

theorem stream_eq (h : Effect s i t) (hi : ∀ n, i ≠ .parseStream n) :
    t.consumed = s.consumed ∧ t.examined = s.examined := by
  cases h with
  | streamFound n | streamNeedMore n | streamExhausted n | streamUninit n => exact absurd rfl (hi n)
  | _ => exact ⟨rfl, rfl⟩

theorem frame_eq (h : Effect s i t) (hi : writesFrame i = false) : t.frame = s.frame := by
  cases h with
  | fails | crc | reports | catInclude | catExclude => rfl
  | _ => cases hi

theorem result_eq (h : Effect s i t) (hi : writesResult i = false) : t.result = s.result := by
  cases h with
  | crc c hcrc => exact absurd hi (by simp [writesResult_of_isCrc hcrc])
  | reports v hw => exact absurd hi (by simp [hw])
  | parseFound | streamFound | serialize => cases hi
  | _ => rfl

theorem crc_eq (h : Effect s i t) (hi : isCrc i = false) : t.crc = s.crc := by
  cases h with
  | crc c hcrc => exact absurd hi (by simp [hcrc])
  | _ => rfl

theorem out_eq (h : Effect s i t) (hi : i ≠ .serialize) : t.out = s.out ∧ t.outLen = s.outLen := by
  cases h with
  | serialize => exact absurd rfl hi
  | _ => exact ⟨rfl, rfl⟩

end Effect

/-- Settles O48, register by register from the ways a command can end. -/
theorem commandsLeaveInputsAlone : Obligations.CommandsLeaveInputsAlone := by
  intro i s t h
  have heff := exec_effect h
  obtain ⟨hparams, hdata, hin, hid, hsch, hport, hread, hepoch⟩ := heff.inputs_eq
  exact ⟨hparams, hdata, hin, hid, hsch, hport, hread, hepoch, heff.init_mono, heff.init_eq,
    heff.cat_eq, heff.stream_eq, heff.frame_eq, heff.result_eq, heff.crc_eq, heff.out_eq⟩

end Sys2Proof.Machine
end

section
/-! PROOFS. The invariant. What it says of the catalog comes before the rest: a schema table that passes
CAT_INIT's tests is laid out as R161 to R164 say. Then what it says of frames, and that each operation on
the state keeps it. Last, that every command and every host access does. -/

namespace Sys2Proof.Machine

/-! ### Layout of one message -/

/-- A relation between fields that offsets do not matter to holds after `assignOffsets` where it
held before. -/
theorem pairwise_assignOffsets {R : Field → Field → Prop}
    (hR : ∀ f g o p, R f g → R { f with offset := o } { g with offset := p }) (fs : List Field)
    (a : Nat) (h : fs.Pairwise R) : (assignOffsets a fs).Pairwise R := by
  induction fs generalizing a with
  | nil => exact .nil
  | cons f fs ih =>
    rw [List.pairwise_cons] at h
    refine List.pairwise_cons.mpr ⟨fun g hg => ?_, ih _ h.2⟩
    obtain ⟨g', hg', o, rfl⟩ := mem_assignOffsets fs _ g hg
    exact hR f g' _ _ (h.1 g' hg')

/-- `insertionSort` inserts the element declared first, which goes before its equals (R162). -/
theorem pairwise_orderedInsert (x : Field) (fs : List Field)
    (hx : ∀ f ∈ fs, x.declIndex.toNat < f.declIndex.toNat) (h : fs.Pairwise BaseBefore) :
    (fs.orderedInsert (fun a b : Field => b.size ≤ a.size) x).Pairwise BaseBefore := by
  induction fs with
  | nil => simp
  | cons f fs ih =>
    have ⟨hf, hfs⟩ := List.pairwise_cons.mp h
    have hlater : ∀ g ∈ fs, g.size ≤ f.size := fun g hg => by
      have := hf g hg
      unfold BaseBefore at this
      omega
    rw [List.orderedInsert_cons]
    split
    next hle =>
      refine List.pairwise_cons.mpr ⟨fun g hg => ?_, h⟩
      have hdecl := hx g hg
      have hsize : g.size ≤ f.size := by
        rcases List.mem_cons.mp hg with rfl | hg
        · exact le_refl _
        · exact hlater g hg
      unfold BaseBefore
      omega
    next hlt =>
      refine List.pairwise_cons.mpr ⟨fun g hg => ?_, ih (fun g hg => hx g (by simp [hg])) hfs⟩
      rcases (List.mem_orderedInsert _).mp hg with rfl | hg
      · exact .inl (by omega)
      · exact hf g hg

/-- Sorting by descending size keeps the declaration order of equals (R162). -/
theorem pairwise_insertionSort (fs : List Field)
    (h : fs.Pairwise (fun a b => a.declIndex.toNat < b.declIndex.toNat)) :
    (fs.insertionSort (fun a b => b.size ≤ a.size)).Pairwise BaseBefore := by
  induction fs with
  | nil => exact .nil
  | cons f fs ih =>
    rw [List.pairwise_cons] at h
    exact pairwise_orderedInsert f _ (fun g hg => h.1 g ((List.mem_insertionSort _).mp hg)) (ih h.2)

/-- Fewer than 256 resolved fields are numbered upwards in declaration order. -/
theorem resolveFields_declIndex {ds : List SchemaField} {fs : List Field}
    (h : resolveFields 0 ds = some fs) (hlen : fs.length < 256) :
    fs.Pairwise (fun a b => a.declIndex.toNat < b.declIndex.toNat) := by
  obtain ⟨-, -, -, hindex⟩ := resolveFields_spec ds 0 fs h
  rw [List.pairwise_iff_getElem]
  intro j k hj hk hjk
  rw [hindex j _ (List.getElem?_eq_getElem hj), hindex k _ (List.getElem?_eq_getElem hk)]
  simp only [BitVec.toNat_ofNat]
  omega

theorem mem_orderFields {f : Field} {fs : List Field} : f ∈ orderFields fs ↔ f ∈ fs := by
  simp only [orderFields, List.mem_append, List.mem_insertionSort, List.mem_filter]
  cases f.extended <;> simp

theorem baseLength_le_totalLength (fs : List Field) : baseLength fs ≤ totalLength fs :=
  List.Sublist.sum_le_sum (List.filter_sublist.map _) (fun _ _ => Nat.zero_le _)

/-- THE LAYOUT (R161 to R164, R174): declared fields of at most 255 bytes in all are laid out as
`Entry.LaidOut` says. -/
theorem layOut_laidOut (crcExtra : Byte) {ds : List SchemaField} {fs : List Field}
    (h : resolveFields 0 ds = some fs) (hlen : totalLength fs ≤ 255) :
    (layOut crcExtra fs).LaidOut := by
  obtain ⟨-, -, hfields, -⟩ := resolveFields_spec ds 0 fs h
  have hdecl := resolveFields_declIndex h
    (by have := length_le_totalLength fs (fun f hf => (hfields f hf).2); omega)
  have htotal : totalLength (layOut crcExtra fs).fields ≤ 255 := by
    rwa [layOut_totalLength]
  have hbase := baseLength_le_totalLength (layOut crcExtra fs).fields
  constructor
  case lengths =>
    intro g hg
    obtain ⟨f, hf, o, rfl⟩ := mem_assignOffsets _ _ g hg
    exact (hfields f (mem_orderFields.mp hf)).1
  case split =>
    refine ⟨_, _, assignOffsets_append _ _ 0, fun g hg => ?_, fun g hg => ?_, ?_, ?_⟩
    · obtain ⟨f, hf, o, rfl⟩ := mem_assignOffsets _ _ g hg
      simpa using ((List.mem_filter.mp ((List.mem_insertionSort _).mp hf)).2)
    · obtain ⟨f, hf, o, rfl⟩ := mem_assignOffsets _ _ g hg
      exact (List.mem_filter.mp hf).2
    · exact pairwise_assignOffsets (fun _ _ _ _ h => h) _ _
        (pairwise_insertionSort _ (hdecl.filter _))
    · exact pairwise_assignOffsets (fun _ _ _ _ h => h) _ _ (hdecl.filter _)
  case offsets =>
    intro k g hg
    rw [(assignOffsets_spec _ 0).2.2 k g hg, Nat.zero_add]
    rfl
  case base => exact Nat.mod_eq_of_lt (Nat.lt_succ_of_le (hbase.trans htotal))
  case max => exact Nat.mod_eq_of_lt (Nat.lt_succ_of_le htotal)

/-! ### The catalog CAT_INIT installs -/

/-- What a table that passes every test of CAT_INIT is, and the catalog it becomes (R168). -/
theorem compile_ok {maxMessages : Nat} {sch : List SchemaEntry} {ids : List MsgId}
    {cat : Cells Entry} (h : compile maxMessages sch ids = .ok cat) :
    ∃ rows, layOutTable sch = some rows ∧ (∀ r ∈ rows, totalLength r.2.fields ≤ 255) ∧
      sch.length ≤ maxMessages ∧ cat = buildCatalog ids rows := by
  unfold compile at h
  split at h
  · cases h
  next rows hrows =>
    split_ifs at h with hinvalid
    cases h
    simp only [Bool.or_eq_true, List.any_eq_true, decide_eq_true_eq, not_or, not_exists, not_and,
      Nat.not_lt] at hinvalid
    exact ⟨rows, hrows, hinvalid.1, hinvalid.2, rfl⟩

/-- The catalog CAT_INIT installs: in its canonical form, of at most MAX_MESSAGES entries, each laid
out, with its filter bit by the list (R168). -/
theorem compile_ok_catalog {maxMessages : Nat} {sch : List SchemaEntry} {ids : List MsgId}
    {cat : Cells Entry} (h : compile maxMessages sch ids = .ok cat) :
    Memory.wf 16777216 cat = true ∧ cat.length ≤ maxMessages ∧
      ∀ c ∈ cat, c.2.LaidOut ∧ c.2.included = includes ids c.1 := by
  obtain ⟨rows, hrows, htotal, hsize, rfl⟩ := compile_ok h
  obtain ⟨hlength, htable⟩ := layOutTable_spec sch rows hrows
  have hlaid : ∀ r ∈ rows, r.2.LaidOut := fun r hr => by
    obtain ⟨x, -, fs, hfs, rfl⟩ := htable r hr
    exact layOut_laidOut x.crcExtra hfs (by simpa [layOut_totalLength] using htotal _ hr)
  obtain ⟨hwf, hentries⟩ := buildCatalog_spec ids Entry.LaidOut rows hlaid
  refine ⟨hwf, ?_, fun c hc => ?_⟩
  · have := length_buildCatalog ids rows
    omega
  · obtain ⟨e, he, heq⟩ := hentries c hc
    rw [heq]
    exact ⟨laidOut_included e _ he, rfl⟩

/-- CAT_EXCLUDE drops id 0 from its list (R170). -/
theorem any_zero_of_filter (ids : List MsgId) :
    (ids.filter (fun x => x != 0#24)).any (fun x => x.toNat == 0) = false := by
  rw [List.any_eq_false]
  intro x hx hzero
  have hne : x ≠ 0#24 := by simpa using (List.mem_filter.mp hx).2
  exact hne (BitVec.eq_of_toNat_eq (by simpa using hzero))

/-- What CAT_EXCLUDE does to one entry, as a change of its filter bit (R170). -/
theorem excluded_eq (ids : List MsgId) (k : Nat) (e : Entry) :
    (if ids.any (fun x => x.toNat == k) then { e with included := false } else e) =
      { e with included := !ids.any (fun x => x.toNat == k) && e.included } := by
  cases ids.any (fun x => x.toNat == k) <;> rfl

/-! ### Fields inside the payload -/

/-- A field of a laid-out entry ends within `max` (R163, R164). -/
theorem Entry.LaidOut.field_end_le_max {en : Entry} (h : en.LaidOut) {k : Nat} {f : Field}
    (hf : en.fields[k]? = some f) : f.offset + f.length ≤ en.max.toNat := by
  rw [h.offsets k f hf, h.max]
  obtain ⟨hk, rfl⟩ := List.getElem?_eq_some_iff.mp hf
  calc totalLength (en.fields.take k) + en.fields[k].length
      = totalLength (en.fields.take (k + 1)) := by
        rw [List.take_succ_eq_append_getElem hk, totalLength_append]
        rfl
    _ ≤ totalLength (en.fields.take (k + 1)) + totalLength (en.fields.drop (k + 1)) :=
        Nat.le_add_right ..
    _ = totalLength en.fields := by rw [← totalLength_append, List.take_append_drop]

theorem Entry.LaidOut.base_le_max {en : Entry} (h : en.LaidOut) : en.base.toNat ≤ en.max.toNat := by
  rw [h.base, h.max]
  exact baseLength_le_totalLength _

theorem Entry.LaidOut.limit_le_max {en : Entry} (h : en.LaidOut) (v : Version) :
    (en.limit v).toNat ≤ en.max.toNat := by
  cases v with
  | v1 => exact h.base_le_max
  | v2 => exact le_refl _

/-- A selected element ends within `max` (R200, R81). -/
theorem Entry.LaidOut.element_end_le_max {en : Entry} (h : en.LaidOut) {k e : Byte} {f : Field}
    (hselect : en.select k e = some f) : elementAddress f e.toNat + f.size ≤ en.max.toNat := by
  unfold Entry.select at hselect
  split at hselect
  · cases hselect
  next g hg =>
    split_ifs at hselect with he
    cases hselect
    have hlen := h.lengths f (List.mem_of_getElem? hg)
    calc elementAddress f e.toNat + f.size
        = f.offset + f.size * (e.toNat + 1) := by unfold elementAddress; ring
      _ ≤ f.offset + f.size * f.elements := by gcongr; omega
      _ ≤ en.max.toNat := hlen ▸ h.field_end_le_max hg

/-! ### Frames that fit their entry -/

/-- The filter bit does not matter to a frame. -/
theorem Frame.Fits.included {f : Frame} {en : Entry} (h : f.Fits en) (b : Bool) :
    f.Fits { en with included := b } := { h with }

/-- A v1 candidate has no flags and an id of one byte (R111, R224). -/
theorem bodyFrame_v1 (b : List Byte) :
    (bodyFrame .v1 b).incompat = 0 ∧ (bodyFrame .v1 b).compat = 0 ∧
      (bodyFrame .v1 b).hasSig = false ∧ (bodyFrame .v1 b).msgId.toNat ≤ 255 := by
  refine ⟨rfl, rfl, rfl, ?_⟩
  change (headerFrame .v1 b).msgId.toNat ≤ 255
  rw [headerFrame_msgId]
  exact Nat.le_of_lt_succ (b.getD 5 0).isLt

/-- The payload of a candidate is zero from its length on (R226, R234). -/
theorem byteAt_bodyFrame_payload (v : Version) (b : List Byte) {i : Nat}
    (hi : (b.getD 1 0).toNat ≤ i) : byteAt (bodyFrame v b).payload i = 0 := by
  have hlen : (portion b (headerLength v) (b.getD 1 0).toNat).length ≤ i :=
    le_trans (List.length_take_le _ _) hi
  rw [bodyFrame, byteAt_ofList, List.getD_eq_default _ _ hlen, ite_self]

theorem bodyFrame_fits {v : Version} {b : List Byte} {en : Entry} (h : en.LaidOut)
    (hlen : (b.getD 1 0).toNat ≤ (en.limit v).toNat) : (bodyFrame v b).Fits en where
  len := by simpa [bodyFrame] using hlen
  v1 := by
    cases v with
    | v1 => exact fun _ => bodyFrame_v1 b
    | v2 => exact nofun
  sig := fun _ => headerFrame_sig v b
  payload := fun i hi =>
    byteAt_bodyFrame_payload v b (le_trans hlen (le_trans (h.limit_le_max v) hi))

/-- Only a v2 frame is signed (R115), so the signature bytes are nothing R40 forbids. -/
theorem signedFrame_fits {v : Version} {b : List Byte} {en : Entry}
    (h : (bodyFrame v b).Fits en) (hsigned : candidateSigned v b = true) :
    (signedFrame v b).Fits en :=
  { h with
    v1 := by
      cases v with
      | v1 => cases hsigned
      | v2 => exact nofun
    sig := nofun }

/-- What a candidate decodes to is a frame of a catalog entry, which it fits (R234). -/
theorem tryCandidate_fits {cat : Cells Entry} {m : Mode} {v : Version} {b : List Byte} {f : Frame}
    {size : Nat} (hcat : ∀ c ∈ cat, c.2.LaidOut) (h : tryCandidate cat m v b = .ok f size) :
    f.valid = true ∧ ∃ en, Cells.read? cat f.msgId.toNat = some en ∧ f.Fits en := by
  obtain ⟨-, en, hread, -, hlen, -, hf⟩ := tryCandidate_ok h
  have hfits := bodyFrame_fits (hcat _ (mem_of_read? hread)) hlen
  rw [← headerFrame_msgId v b] at hread
  rcases hf with ⟨-, rfl, -⟩ | ⟨hsigned, rfl, -⟩
  · exact ⟨headerFrame_valid v b, en, hread, hfits⟩
  · exact ⟨headerFrame_valid v b, en, hread, signedFrame_fits hfits hsigned⟩

/-- A frame a scan finds is one of a catalog entry, which it fits, and ends within the bytes scanned
(R230, R232). -/
theorem scan_found_fits {cat : Cells Entry} {m : Mode} {b : List Byte} {f : Frame}
    {start stop : Nat} (hcat : ∀ c ∈ cat, c.2.LaidOut)
    (h : scan cat m 0 b none = .found f start stop) :
    stop ≤ b.length ∧ f.valid = true ∧
      ∃ en, Cells.read? cat f.msgId.toNat = some en ∧ f.Fits en := by
  obtain ⟨j, v, size, hj, htry, -, rfl⟩ := scan_found h
  refine ⟨?_, tryCandidate_fits hcat htry⟩
  have := (tryCandidate_ok htry).1
  simp only [List.length_drop] at this
  omega

/-! ### Every operation on the state keeps the invariant -/

/-- The codes of R301 that commands raise are codes STATUS may hold (R305). -/
theorem codesOf_subset_raisedCodes (i : Instr) : ∀ c ∈ codesOf i, c ∈ raisedCodes := by
  cases i <;> simp [codesOf, raisedCodes]

namespace Inv

variable {s : State}

theorem setStatus (h : Inv s) {e : Err} (hcode : e.code ∈ raisedCodes) :
    Inv (Machine.setStatus e s) :=
  { h with
    status := ⟨hcode, by
      cases e with
      | none => exact fun _ => rfl
      | _ => exact nofun⟩ }

theorem setStatus_none (h : Inv s) : Inv (Machine.setStatus .none s) :=
  h.setStatus (by simp [Err.code, raisedCodes])

theorem setStatus_codesOf (h : Inv s) {e : Err} {i : Instr} (hcode : e.code ∈ codesOf i) :
    Inv (Machine.setStatus e s) :=
  h.setStatus (codesOf_subset_raisedCodes i _ hcode)

theorem setResult (h : Inv s) (v : Word) : Inv (Machine.setResult v s) := { h with }

theorem setCrc (h : Inv s) (c : Crc16) : Inv { s with crc := c } := { h with }

theorem setStream (h : Inv s) {c x n : Nat} (hcx : c ≤ x) (hxn : x ≤ n) (hn : n ≤ s.params.inCap)
    (hbits : n < 65536) : Inv (Machine.setStream c x s) :=
  { h with
    stream := by
      simp only [setStream_consumed, setStream_examined, setStream_params, BitVec.toNat_ofNat]
      omega }

theorem clearFrame (h : Inv s) : Inv (Machine.clearFrame s) :=
  { h with
    noFrame := fun _ => rfl
    frame := nofun }

/-- A frame that fits its entry may be loaded (R40, R234). -/
theorem withFrame (h : Inv s) {f : Frame} {en : Entry} (hvalid : f.valid = true)
    (hinit : s.init = true) (hcat : s.catEntry f.msgId = some en) (hfits : f.Fits en) :
    Inv { s with frame := f } :=
  { h with
    noFrame := fun hf => absurd hf (by simp [hvalid])
    frame := fun _ => ⟨hinit, en, hcat, hfits⟩ }

/-- The frame held fits its entry (R40). -/
theorem fits (h : Inv s) {en : Entry} (hvalid : s.frame.valid = true)
    (hcat : s.catEntry s.frame.msgId = some en) : s.frame.Fits en := by
  obtain ⟨-, en', hcat', hfits⟩ := h.frame hvalid
  rw [hcat] at hcat'
  cases hcat'
  exact hfits

/-- The entries of the catalog are laid out (R174). -/
theorem laidOut (h : Inv s) {en : Entry} {id : MsgId} (hcat : s.catEntry id = some en) :
    en.LaidOut := h.entries _ (mem_of_read? hcat)

/-- The filter bits may change but for that of id 0, which stays 1 (R167). -/
theorem filter (h : Inv s) (g : Nat → Entry → Bool)
    (hzero : ∀ e, e.included = true → g 0 e = true) :
    Inv { s with cat := Cells.mapData (fun k e => { e with included := g k e }) s.cat } :=
  { h with
    cat := wf_mapData (fun k e => { e with included := g k e }) h.cat
    catSize := by simpa [Cells.mapData] using h.catSize
    catEmpty := fun hinit => by simp [h.catEmpty hinit, Cells.mapData]
    entries := fun c hc => by
      obtain ⟨d, hd, rfl⟩ := List.mem_map.mp hc
      exact laidOut_included _ _ (h.entries d hd)
    heartbeat := fun e he => by
      rw [read?_mapData] at he
      obtain ⟨e', he', rfl⟩ := Option.map_eq_some_iff.mp he
      exact hzero e' (h.heartbeat e' he')
    frame := fun hvalid => by
      obtain ⟨hinit, en, hcat, hfits⟩ := h.frame hvalid
      exact ⟨hinit, _, by simp only [State.catEntry, read?_mapData] at hcat ⊢; rw [hcat]; rfl,
        hfits.included _⟩ }

/-- The catalog of a table that CAT_INIT accepts, with the frame registers cleared (R168). -/
theorem install (h : Inv s) {ids : List MsgId} {cat : Cells Entry}
    (hcompile : compile s.params.maxMessages s.sch ids = .ok cat) :
    Inv (Machine.clearFrame { s with cat := cat, init := true }) := by
  obtain ⟨hwf, hsize, hentries⟩ := compile_ok_catalog hcompile
  exact
    { h with
      cat := hwf
      catSize := hsize
      catEmpty := nofun
      entries := fun c hc => (hentries c hc).1
      heartbeat := fun e he => by
        rw [(hentries _ (mem_of_read? he)).2]
        simp [includes]
      noFrame := fun _ => rfl
      frame := nofun }

/-- At most 267 bytes may be put in OUT (R46). -/
theorem emit (h : Inv s) {bytes : List Byte} (hlen : bytes.length ≤ 267) :
    Inv { s with out := Bytes.ofList 280 bytes, outLen := BitVec.ofNat 16 bytes.length } := by
  have hbits : (BitVec.ofNat 16 bytes.length).toNat = bytes.length :=
    Nat.mod_eq_of_lt (by omega)
  exact
    { h with
      out := fun i hi => by
        rw [hbits] at hi
        simp only [byteAt_ofList, List.getD_eq_default _ _ hi, ite_self]
      outLen := by simpa only [hbits] using hlen }

/-! ### Every command keeps the invariant -/

theorem fieldWrite (h : Inv s) {k e : Byte} {en : Entry} {f : Field}
    (hvalid : s.frame.valid = true) (hcat : s.catEntry s.frame.msgId = some en)
    (hselect : en.select k e = some f) (v : Word) : Inv (writeElement f e.toNat v s) := by
  have hfits := h.fits hvalid hcat
  have hend := (h.laidOut hcat).element_end_le_max hselect
  refine h.withFrame hvalid (h.frame hvalid).1 hcat { hfits with payload := fun i hi => ?_ }
  rw [byteAt_memWrite, if_neg (by omega)]
  exact hfits.payload i hi

theorem frameNew (h : Inv s) {id : MsgId} {ver : Version} {en : Entry} (hinit : s.init = true)
    (hcat : s.catEntry id = some en) (hid : ver = .v1 → id.toNat ≤ 255) :
    Inv (loadFrame { Frame.zero with valid := true, ver := ver, msgId := id, len := en.limit ver }
      (Machine.clearFrame s)) :=
  h.clearFrame.withFrame rfl hinit hcat
    { len := le_refl _
      v1 := fun hver => ⟨rfl, rfl, rfl, hid hver⟩
      sig := fun _ => rfl
      payload := fun i _ => byteAt_zeros 255 i }

theorem setHeaderV1 (h : Inv s) (hvalid : s.frame.valid = true) (seq sys comp : Byte) :
    Inv { s with frame := { s.frame with seq := seq, sysId := sys, compId := comp } } := by
  obtain ⟨hinit, en, hcat, hfits⟩ := h.frame hvalid
  exact h.withFrame hvalid hinit hcat { hfits with }

theorem setHeaderV2 (h : Inv s) (hvalid : s.frame.valid = true) (hver : s.frame.ver = .v2)
    (seq sys comp incompat compat : Byte) :
    Inv { s with
      frame :=
        { s.frame with
          seq := seq, sysId := sys, compId := comp, incompat := incompat, compat := compat } } := by
  obtain ⟨hinit, en, hcat, hfits⟩ := h.frame hvalid
  exact h.withFrame hvalid hinit hcat
    { hfits with v1 := fun hv1 => absurd hv1 (by simp [hver]) }

theorem serialize (h : Inv s) {en : Entry} {ln : Nat} {bytes : List Byte}
    (hvalid : s.frame.valid = true) (hcat : s.catEntry s.frame.msgId = some en)
    (hln : ln = emittedLength s.params.v2Trim en s.frame)
    (hbytes : bytes = frameBytes en s.frame ln)
    (ck : Crc16) :
    Inv { s with
      out := Bytes.ofList 280 bytes
      outLen := BitVec.ofNat 16 bytes.length
      frame := { s.frame with len := BitVec.ofNat 8 ln, cksum := ck } } := by
  have hlimit : ln ≤ (en.limit s.frame.ver).toNat := hln ▸ emittedLength_le ..
  have hbyte := (en.limit s.frame.ver).isLt
  have hheader : headerLength s.frame.ver ≤ 10 := by cases s.frame.ver <;> decide
  have hlength : bytes.length ≤ 267 := by
    rw [hbytes, frameBytes_length]
    omega
  refine (h.emit hlength).withFrame hvalid (h.frame hvalid).1 hcat
    { h.fits hvalid hcat with len := ?_ }
  simp only [BitVec.toNat_ofNat]
  omega

/-- A frame that a scan of the catalog found may be loaded (R230, R232). -/
theorem loadFound (h : Inv s) {m : Mode} {b : List Byte} {f : Frame} {start stop : Nat}
    (hinit : s.init = true) (hscan : scan s.cat m 0 b none = .found f start stop) :
    Inv (loadFrame f (Machine.clearFrame s)) := by
  obtain ⟨-, hvalid, en, hread, hfits⟩ := scan_found_fits h.entries hscan
  exact h.clearFrame.withFrame hvalid hinit hread hfits

/-- EVERY COMMAND KEEPS THE INVARIANT, by the ways it can end. -/
theorem effect (h : Inv s) {i : Instr} {t : State} (heff : Effect s i t) : Inv t := by
  cases heff with
  | fails e hcode => exact h.setStatus_codesOf hcode
  | crc c => exact ((h.setCrc c).setResult _).setStatus_none
  | reports v => exact (h.setResult v).setStatus_none
  | catInit m cat hcompile => exact (h.install hcompile).setStatus_none
  | catInclude m =>
    exact (h.filter (fun k _ => includes (s.idPrefix m.toNat) k)
      (fun _ _ => by simp [includes])).setStatus_none
  | catExclude m ids _ hids =>
    have hzero : ids.any (fun x => x.toNat == 0) = false := hids ▸ any_zero_of_filter _
    simp only [excluded_eq]
    exact (h.filter _ (fun e he => by rw [hzero, he]; rfl)).setStatus_none
  | parseFound n f start stop hinit hscan =>
    exact ((h.loadFound hinit hscan).setResult _).setStatus_none
  | parseExhausted n r hcode => exact h.clearFrame.setStatus_codesOf hcode
  | streamFound n f start stop hn hinit hscan =>
    have hstop : stop ≤ n.toNat := by simpa using (scan_found_fits h.entries hscan).1
    exact (((h.loadFound hinit hscan).setResult _).setStream le_rfl hstop hn n.isLt).setStatus_none
  | streamNeedMore n k hn hk =>
    exact (h.clearFrame.setStream hk.le le_rfl hn n.isLt).setStatus
      (by simp [Err.code, raisedCodes])
  | streamExhausted n r hn hcode =>
    exact (h.clearFrame.setStream le_rfl le_rfl hn n.isLt).setStatus_codesOf hcode
  | streamUninit n =>
    exact (h.setStream le_rfl le_rfl (Nat.zero_le _) (Nat.zero_lt_succ _)).setStatus
      (by simp [Err.code, raisedCodes])
  | fieldWrite k e en f hvalid hcat hselect =>
    exact (h.fieldWrite hvalid hcat hselect _).setStatus_none
  | frameNew id ver en hinit hcat hid => exact (h.frameNew hinit hcat hid).setStatus_none
  | setHeaderV1 seq sys comp _ _ hvalid => exact (h.setHeaderV1 hvalid ..).setStatus_none
  | setHeaderV2 seq sys comp _ _ hvalid hver => exact (h.setHeaderV2 hvalid hver ..).setStatus_none
  | serialize en ln bytes hvalid hcat hln hbytes =>
    exact ((h.serialize hvalid hcat hln hbytes _).setResult _).setStatus_none

end Inv

/-! ### Every host access keeps the invariant -/

theorem config_params_legal : Config.params.legal = true := by
  have := Config.inCapAbove.isLt
  have := Config.idlCapAbove.isLt
  have := Config.maxMessagesAbove.isLt
  unfold Params.legal Config.params
  simp only [Bool.and_eq_true, decide_eq_true_eq]
  omega

/-- What reset leaves meets the invariant, whatever the legal parameters, the port and the model's
own fields hold (R52, R330). -/
theorem inv_of_reset {p : Params} (hp : p.legal = true) (port : List HostAccess) (readData : Word)
    (epoch : Nat) :
    Inv { State.reset with params := p, port := port, readData := readData, epoch := epoch } where
  params := hp
  inMem := rfl
  idList := rfl
  cat := rfl
  catSize := Nat.zero_le _
  catEmpty := fun _ => rfl
  entries := nofun
  heartbeat := nofun
  noFrame := fun _ => rfl
  frame := nofun
  out := fun i _ => byteAt_zeros 280 i
  outLen := Nat.zero_le _
  stream := ⟨le_rfl, Nat.zero_le _⟩
  status := ⟨by simp [State.reset, raisedCodes], fun _ => rfl⟩

/-- What a host access that is no command leaves (R34, R47 to R49, R87, R330). -/
inductive Served (s : State) : State → Prop
  | write (v : Word) (off : Nat) : Served s (s.writePlace v (placeOf s.params off))
  | read (v : Word) : Served s { s with readData := v }
  | stage (table : List SchemaEntry) : Served s { s with sch := table }
  | reset : Served s (platformReset s)

/-- Everything a host access can be: served, a command word, which is no store (R33), or refused
(R49). -/
theorem serve_cases (a : HostAccess) (s : State) :
    (∃ t, Served s t ∧ serve a s = .served t) ∨ (∃ w, serve a s = .command w s) ∨
      serve a s = .refused := by
  cases a with
  | write w off v =>
    simp only [serve]
    split
    · split
      · exact .inr (.inl ⟨v, rfl⟩)
      · exact .inl ⟨_, .write v off.toNat, rfl⟩
    · exact .inr (.inr rfl)
  | read w off =>
    simp only [serve]
    split
    next v _ => exact .inl ⟨_, .read v, rfl⟩
    · exact .inr (.inr rfl)
  | stageSchemas table => exact .inl ⟨_, .stage table, rfl⟩
  | reset => exact .inl ⟨_, .reset, rfl⟩

/-- EVERYTHING A STEP CAN DO (R31, R103): wait, serve an access, or run the word written to CMD. -/
theorem step_cases {s t : State} (h : step s = .next t) :
    (s.port = [] ∧ t = s) ∨
      ∃ a rest, s.port = a :: rest ∧
        ((Served { s with port := rest } t ∧ serve a { s with port := rest } = .served t) ∨
          ∃ w, serve a { s with port := rest } = .command w { s with port := rest } ∧
            ((∃ i, decode w = .ok i ∧ exec i { s with port := rest } = .next t) ∨
              (∃ e, decode w = .error e) ∧
                t = setStatus .illegalCommand { s with port := rest })) := by
  cases hport : s.port with
  | nil =>
    simp only [step, fetch, hport] at h
    cases h
    exact .inl ⟨rfl, rfl⟩
  | cons a rest =>
    refine .inr ⟨a, rest, rfl, ?_⟩
    rcases serve_cases a { s with port := rest } with ⟨u, hu, hserve⟩ | ⟨w, hserve⟩ | hserve <;>
      simp only [step, fetch_cons hport, hserve] at h
    · cases h
      exact .inl ⟨hu, hserve⟩
    · refine .inr ⟨w, hserve, ?_⟩
      split at h
      next i hi => exact .inl ⟨i, hi, h⟩
      next e he =>
        cases h
        exact .inr ⟨⟨e, he⟩, rfl⟩
    · cases h

namespace Inv

variable {s : State}

/-- A host write stores in DATA, IN or IDLIST, inside the memory, or nowhere (R34, R47, R49). -/
theorem writePlace (h : Inv s) (v : Word) (off : Nat) :
    Inv (s.writePlace v (placeOf s.params off)) := by
  obtain ⟨hin, hid⟩ := memoriesWf_writePlace v off ⟨h.inMem, h.idList⟩
  generalize placeOf s.params off = place at hin hid ⊢
  cases place with
  | reg r => cases r <;> exact { h with }
  | idList j => exact { h with idList := hid }
  | input i => exact { h with inMem := hin }
  | _ => exact h

theorem served (h : Inv s) {t : State} (hserved : Served s t) : Inv t := by
  cases hserved with
  | write v off => exact h.writePlace v off
  | read v => exact { h with }
  | stage table => exact { h with }
  | reset => exact inv_of_reset h.params _ _ _

theorem takePort (h : Inv s) (rest : List HostAccess) : Inv { s with port := rest } := { h with }

end Inv

/-- Settles O58: a step waits, serves a host access, or runs a command, and each keeps the
invariant. -/
theorem stepKeepsInvariant : Obligations.StepKeepsInvariant := by
  intro s t h hstep
  rcases step_cases hstep with
    ⟨-, rfl⟩ | ⟨a, rest, -, ⟨hserved, -⟩ | ⟨w, -, ⟨i, -, hexec⟩ | ⟨-, rfl⟩⟩⟩
  · exact h
  · exact (h.takePort rest).served hserved
  · exact (h.takePort rest).effect (exec_effect hexec)
  · exact (h.takePort rest).setStatus (by simp [Err.code, raisedCodes])

/-- Settles O57: the parameters of the configuration are legal, and reset clears all the rest. -/
theorem invariantAtReset : Obligations.InvariantAtReset :=
  inv_of_reset config_params_legal [] 0 0

end Sys2Proof.Machine
end

section
/-! PROOFS. The host's port: the place of each offset of the register map R32, what the host reads
there, and the step that serves each kind of access. -/

namespace Sys2Proof.Machine

/-! ### The register map -/

section RegisterMap

variable {p : Params} {off : Nat}

/-- The twelve registers of R32; from the third on they are read-only. -/
theorem ofIndex?_of_lt {k : Nat} (hk : k < 12) :
    ∃ r, Reg.ofIndex? k = some r ∧ (2 ≤ k → r ≠ .cmd ∧ r ≠ .data) := by
  interval_cases k <;> exact ⟨_, rfl, by decide⟩

theorem placeOf_reg {r : Reg} (hr : Reg.ofIndex? (off / 8) = some r) : placeOf p off = .reg r := by
  have hindex : off / 8 < 12 := (List.getElem?_eq_some_iff.mp hr).1
  rw [placeOf, if_pos (by omega), hr]

theorem placeOf_sig {i : Nat} (hi : i < 13) (hoff : off = 0x100 + i) : placeOf p off = .sig i := by
  subst hoff
  rw [placeOf, if_neg (by omega), if_pos (by omega), Nat.add_sub_cancel_left]

theorem placeOf_payload {i : Nat} (hi : i < 255) (hoff : off = 0x200 + i) :
    placeOf p off = .payload i := by
  subst hoff
  rw [placeOf, if_neg (by omega), if_neg (by omega), if_pos (by omega), Nat.add_sub_cancel_left]

theorem placeOf_out {i : Nat} (hi : i < 280) (hoff : off = 0x3000 + i) :
    placeOf p off = .out i := by
  subst hoff
  rw [placeOf, if_neg (by omega), if_neg (by omega), if_neg (by omega), if_pos (by omega),
    Nat.add_sub_cancel_left]

/-- Each entry of IDLIST has four bytes (R47). -/
theorem placeOf_idEntry {j : Nat} (hj : j < p.idlCap) (hlo : 0x4000 + 4 * j ≤ off)
    (hhi : off < 0x4000 + 4 * j + 4) : placeOf p off = .idList j := by
  rw [placeOf, if_neg (by omega), if_neg (by omega), if_neg (by omega), if_neg (by omega),
    if_pos (by omega), show (off - 0x4000) / 4 = j by omega]

/-- IN stands after IDLIST, wherever IDLIST ends. -/
theorem placeOf_inByte {i : Nat} (hi : i < p.inCap) (hoff : off = 0x10000 + i)
    (hids : 0x4000 + 4 * p.idlCap ≤ off) : placeOf p off = .input i := by
  subst hoff
  rw [placeOf, if_neg (by omega), if_neg (by omega), if_neg (by omega), if_neg (by omega),
    if_neg (by omega), if_pos (by omega), Nat.add_sub_cancel_left]

theorem placeOf_reserved (h : ReservedOffset p off) : placeOf p off = .unmapped := by
  obtain ⟨hreg, hsig, hpayload, hout, hids, hin⟩ := h
  rw [placeOf, if_neg (by omega), if_neg (by omega), if_neg (by omega), if_neg (by omega),
    if_neg hids, if_neg hin]

end RegisterMap

/-- The bounds of R5. -/
theorem legal_bounds {p : Params} (h : p.legal = true) :
    280 ≤ p.inCap ∧ p.inCap ≤ 65535 ∧ 1 ≤ p.idlCap ∧ p.idlCap ≤ 1024 ∧ 1 ≤ p.maxMessages ∧
      p.maxMessages ≤ 16777216 := by
  simpa [Params.legal, and_assoc] using h

/-! ### The accesses that R32 admits -/

section Access

variable {p : Params} {w w' : Width} {off : Nat} {place : Place}

theorem accessOk_of_width (hplace : placeOf p off = place) (hwidth : place.width? = some w)
    (halign : off % w.bytes = 0) : accessOk p w off = true := by
  simp [accessOk, hplace, hwidth, halign]

/-- A reserved offset admits every width but 16 bits (log entry 6). -/
theorem accessOk_of_reserved (h : ReservedOffset p off) (hw : w ≠ .b16)
    (halign : off % w.bytes = 0) : accessOk p w off = true := by
  simp [accessOk, placeOf_reserved h, Place.width?, hw, halign]

theorem not_accessOk_of_width (hplace : placeOf p off = place) (hwidth : place.width? = some w')
    (hw : w ≠ w') : accessOk p w off = false := by
  simp [accessOk, hplace, hwidth, hw]

theorem not_accessOk_of_misaligned (halign : off % w.bytes ≠ 0) : accessOk p w off = false := by
  simp [accessOk, halign]

end Access

/-! ### What the host reads -/

section HostRead

variable {s : State} {w : Width} {off : Offset} {place : Place}

theorem hostRead?_of_accessOk (hok : accessOk s.params w off.toNat = true)
    (hplace : placeOf s.params off.toNat = place) :
    s.hostRead? w off = some (s.readPlace place) := by
  rw [State.hostRead?, if_pos hok, hplace]

/-- A register is read at its offset (R32). -/
theorem hostRead?_reg (s : State) (k : Nat) {r : Reg} (hr : Reg.ofIndex? k = some r)
    (hoff : off.toNat = 8 * k) : s.hostRead? .b64 off = some (s.readReg r) := by
  have hplace : placeOf s.params off.toNat = .reg r :=
    placeOf_reg (by rw [show off.toNat / 8 = k by omega]; exact hr)
  exact hostRead?_of_accessOk (accessOk_of_width hplace rfl (by simp [Width.bytes, hoff])) hplace

/-- A place of a byte or id window is read at its offset (R32). -/
theorem hostRead?_window {n : Nat} (hn : n < 131072) (hplace : placeOf s.params n = place)
    (hwidth : place.width? = some w) (halign : n % w.bytes = 0) :
    s.hostRead? w (BitVec.ofNat 17 n) = some (s.readPlace place) := by
  have hoff : (BitVec.ofNat 17 n).toNat = n := Nat.mod_eq_of_lt hn
  rw [← hoff] at hplace halign
  exact hostRead?_of_accessOk (accessOk_of_width hplace hwidth halign) hplace

/-- A reserved offset reads 0 (R49). -/
theorem hostRead?_reserved (h : ReservedOffset s.params off.toNat) (hw : w ≠ .b16)
    (halign : off.toNat % w.bytes = 0) : s.hostRead? w off = some 0 :=
  hostRead?_of_accessOk (accessOk_of_reserved h hw halign) (placeOf_reserved h)

end HostRead

/-! ### Words made of fields -/

/-- Fields that fit a word are its value. -/
theorem fieldsWord_toNat {fields : List (Nat × Nat)} (h : fieldsNat fields < 2 ^ 64) :
    (fieldsWord fields).toNat = fieldsNat fields := Nat.mod_eq_of_lt h

/-- STATUS as the host reads it (R35). -/
theorem status_word_toNat (t : Status) : t.word.toNat = t.ok.toNat + t.err.toNat * 2 ^ 8 := by
  have hok := t.ok.toNat_lt
  have herr := t.err.isLt
  rw [Status.word, fieldsWord_toNat] <;> simp only [fieldsNat] <;> omega

/-- FRAME_CTL as the host reads it (R41). -/
theorem ctlWord_toNat (f : Frame) :
    f.ctlWord.toNat =
      f.valid.toNat + f.ver.bit.toNat * 2 + f.hasSig.toNat * 4 + f.len.toNat * 2 ^ 8 := by
  have hvalid := f.valid.toNat_lt
  have hver := f.ver.bit.isLt
  have hsig := f.hasSig.toNat_lt
  have hlen := f.len.isLt
  rw [Frame.ctlWord, fieldsWord_toNat] <;> simp only [fieldsNat] <;> omega

/-- FRAME_HDR as the host reads it (R42). -/
theorem hdrWord_toNat (f : Frame) :
    f.hdrWord.toNat =
      f.seq.toNat + f.sysId.toNat * 2 ^ 8 + f.compId.toNat * 2 ^ 16 + f.incompat.toNat * 2 ^ 24 +
        f.compat.toNat * 2 ^ 32 + f.msgId.toNat * 2 ^ 40 := by
  have hseq := f.seq.isLt
  have hsys := f.sysId.isLt
  have hcomp := f.compId.isLt
  have hincompat := f.incompat.isLt
  have hcompat := f.compat.isLt
  have hid := f.msgId.isLt
  rw [Frame.hdrWord, fieldsWord_toNat] <;> simp only [fieldsNat] <;> omega

/-- Each field of FRAME_HDR stands at its bits (R42). -/
theorem hdrWord_fields (f : Frame) :
    f.hdrWord.extractLsb' 0 8 = f.seq ∧ f.hdrWord.extractLsb' 8 8 = f.sysId ∧
      f.hdrWord.extractLsb' 16 8 = f.compId ∧ f.hdrWord.extractLsb' 24 8 = f.incompat ∧
      f.hdrWord.extractLsb' 32 8 = f.compat ∧ f.hdrWord.extractLsb' 40 24 = f.msgId := by
  have hseq := f.seq.isLt
  have hsys := f.sysId.isLt
  have hcomp := f.compId.isLt
  have hincompat := f.incompat.isLt
  have hcompat := f.compat.isLt
  have hid := f.msgId.isLt
  have hword := hdrWord_toNat f
  generalize f.hdrWord = r at hword ⊢
  refine ⟨?_, ?_, ?_, ?_, ?_, ?_⟩ <;> apply BitVec.eq_of_toNat_eq <;>
    rw [BitVec.extractLsb'_toNat, Nat.shiftRight_eq_div_pow] <;> omega

/-- CAT_STATE as the host reads it: a catalog of the invariant has fewer than 2^25 ids (R37). -/
theorem catStateWord_toNat {s : State} (h : s.cat.length < 2 ^ 25) :
    s.catStateWord.toNat = s.init.toNat + s.cat.length * 2 ^ 32 := by
  have hinit := s.init.toNat_lt
  rw [State.catStateWord, Nat.mod_eq_of_lt h, fieldsWord_toNat] <;> simp only [fieldsNat] <;> omega

/-! ### The step that serves an access -/

/-- The places that a host write leaves as they are: "is ignored and changes no state" (R49). -/
def Place.ReadOnly : Place → Prop
  | .reg r => r ≠ .cmd ∧ r ≠ .data
  | .sig _ => True
  | .payload _ => True
  | .out _ => True
  | .idList _ => False
  | .input _ => False
  | .unmapped => True

/-- The offsets of the byte windows SIG, PAYLOAD and OUT (R32). -/
def InByteWindow (off : Nat) : Prop :=
  0x100 ≤ off ∧ off ≤ 0x10C ∨ 0x200 ≤ off ∧ off ≤ 0x2FE ∨ 0x3000 ≤ off ∧ off ≤ 0x3117

/-- The byte windows are read-only (R32). -/
theorem placeOf_byteWindow {p : Params} {off : Nat} (h : InByteWindow off) :
    ∃ place, placeOf p off = place ∧ place.width? = some .b8 ∧ place.ReadOnly := by
  rcases h with ⟨hlo, hhi⟩ | ⟨hlo, hhi⟩ | ⟨hlo, hhi⟩
  · exact ⟨_, placeOf_sig (i := off - 0x100) (by omega) (by omega), rfl, trivial⟩
  · exact ⟨_, placeOf_payload (i := off - 0x200) (by omega) (by omega), rfl, trivial⟩
  · exact ⟨_, placeOf_out (i := off - 0x3000) (by omega) (by omega), rfl, trivial⟩

theorem not_accessOk_byteWindow {p : Params} {w : Width} {off : Nat} (h : InByteWindow off)
    (hw : w ≠ .b8) : accessOk p w off = false := by
  obtain ⟨place, hplace, hwidth, -⟩ := placeOf_byteWindow (p := p) h
  exact not_accessOk_of_width hplace hwidth hw

theorem writePlace_readOnly {place : Place} (h : place.ReadOnly) (v : Word) (s : State) :
    s.writePlace v place = s := by
  cases place with
  | reg r =>
    obtain ⟨-, hdata⟩ := h
    cases r with
    | data => exact absurd rfl hdata
    | _ => rfl
  | idList | input => exact h.elim
  | _ => rfl

section Step

variable {s : State} {w : Width} {off : Offset} {v : Word} {rest : List HostAccess}

theorem step_write (hport : s.port = .write w off v :: rest)
    (hok : accessOk s.params w off.toNat = true) (hcmd : placeOf s.params off.toNat ≠ .reg .cmd) :
    step s =
      .next (({ s with port := rest } : State).writePlace v (placeOf s.params off.toNat)) := by
  have hserve : serve (.write w off v) { s with port := rest } =
      .served (({ s with port := rest } : State).writePlace v (placeOf s.params off.toNat)) := by
    simp only [serve, hok, if_true]
  simp only [step, fetch_cons hport, hserve]

theorem step_write_readOnly (hport : s.port = .write w off v :: rest)
    (hok : accessOk s.params w off.toNat = true) (hro : (placeOf s.params off.toNat).ReadOnly) :
    step s = .next { s with port := rest } := by
  rw [step_write hport hok, writePlace_readOnly hro]
  intro hcmd
  rw [hcmd] at hro
  exact hro.1 rfl

/-- A write of DATA is stored (R34). -/
theorem step_write_data (hport : s.port = .write .b64 0x008 v :: rest) :
    step s = .next { s with port := rest, data := v } :=
  step_write hport rfl nofun

theorem step_refused (hok : accessOk s.params w off.toNat = false)
    (hport : s.port = .read w off :: rest ∨ s.port = .write w off v :: rest) :
    step s = .refused .hostAccessForm := by
  rcases hport with hport | hport <;>
    simp [step, fetch_cons hport, serve, State.hostRead?, hok]

theorem step_reset (hport : s.port = .reset :: rest) :
    step s = .next (platformReset { s with port := rest }) := by
  simp only [step, fetch_cons hport, serve]

/-- A 64-bit write to CMD is served as a command (R31, R33). -/
theorem fetch_command (hport : s.port = .write .b64 0x000 v :: rest) :
    fetch s = .command v { s with port := rest } :=
  fetch_cons hport

theorem step_command {i : Instr} (hport : s.port = .write .b64 0x000 v :: rest)
    (hi : decode v = .ok i) : step s = exec i { s with port := rest } := by
  simp only [step, fetch_command hport, hi]

/-- A word that is no command only sets STATUS (R103). -/
theorem step_illegal {e : Illegal} (hport : s.port = .write .b64 0x000 v :: rest)
    (he : decode v = .error e) : step s = failed 17 { s with port := rest } := by
  simp only [step, fetch_command hport, he]
  rfl

end Step

/-- No host access but a reset clears INIT (R37). -/
theorem serve_init {a : HostAccess} {s t : State} (h : serve a s = .served t) (ha : a ≠ .reset) :
    t.init = s.init := by
  cases a with
  | write w off v =>
    simp only [serve] at h
    split at h
    · split at h
      · cases h
      · cases h
        generalize placeOf s.params off.toNat = place
        cases place with
        | reg r => cases r <;> rfl
        | _ => rfl
    · cases h
  | read w off =>
    simp only [serve] at h
    split at h <;> cases h
    rfl
  | stageSchemas table =>
    cases h
    rfl
  | reset => exact absurd rfl ha

end Sys2Proof.Machine
end

section
/-! PROOFS. What a command does not depend on. CRC, DATA and IN give an operand to a few commands
each; changed under any other command, they change nothing else of its outcome (R34, R38, R47). -/

namespace Sys2Proof.Machine

/-- An outcome with its next state changed by `g`. -/
def mapNext (g : State → State) : Out → Out
  | .next t => .next (g t)
  | .fault r => .fault r
  | .refused r => .refused r

/-- Two branches that correspond make outcomes that correspond. -/
theorem ite_eq_mapNext {g : State → State} {c c' : Prop} [Decidable c] [Decidable c']
    {yes no yes' no' : Out} (hc : c' ↔ c) (hyes : yes' = mapNext g yes) (hno : no' = mapNext g no) :
    (if c' then yes' else no') = mapNext g (if c then yes else no) := by
  by_cases h : c
  · rw [if_pos h, if_pos (hc.mpr h), hyes]
  · rw [if_neg h, if_neg (mt hc.mp h), hno]

/-- `s` with CRC, DATA and the contents of IN changed. -/
def State.mapOperands (fc : Crc16 → Crc16) (fd : Word → Word) (fm : Cells Byte → Cells Byte)
    (s : State) : State :=
  { s with crc := fc s.crc, data := fd s.data, inMem := fm s.inMem }

/-! ### What the change leaves as it was -/

section MapOperands

variable (fc : Crc16 → Crc16) (fd : Word → Word) (fm : Cells Byte → Cells Byte) (s : State)

@[simp] theorem mapOperands_params : (s.mapOperands fc fd fm).params = s.params := rfl

@[simp] theorem mapOperands_cat : (s.mapOperands fc fd fm).cat = s.cat := rfl

@[simp] theorem mapOperands_frame : (s.mapOperands fc fd fm).frame = s.frame := rfl

@[simp] theorem mapOperands_sch : (s.mapOperands fc fd fm).sch = s.sch := rfl

@[simp] theorem mapOperands_catEntry (id : MsgId) :
    (s.mapOperands fc fd fm).catEntry id = s.catEntry id := rfl

end MapOperands

/-! ### The guards read none of the three -/

section Guards

variable {s : State} {fc : Crc16 → Crc16} {fd : Word → Word} {fm : Cells Byte → Cells Byte}

theorem withInCount_mapOperands {n : Count} {run run' : List Byte → Out}
    (hin : (s.mapOperands fc fd fm).inPrefix n.toNat = s.inPrefix n.toNat)
    (hrun : ∀ bytes, run' bytes = mapNext (State.mapOperands fc fd fm) (run bytes)) :
    withInCount n (s.mapOperands fc fd fm) run' =
      mapNext (State.mapOperands fc fd fm) (withInCount n s run) := by
  rw [withInCount, hin]
  exact ite_eq_mapNext Iff.rfl (hrun _) rfl

theorem withIdCount_mapOperands {m : Count} {run run' : List MsgId → Out}
    (hrun : ∀ ids, run' ids = mapNext (State.mapOperands fc fd fm) (run ids)) :
    withIdCount m (s.mapOperands fc fd fm) run' =
      mapNext (State.mapOperands fc fd fm) (withIdCount m s run) :=
  ite_eq_mapNext Iff.rfl (hrun _) rfl

theorem whenInit_mapOperands {run run' : Out}
    (hrun : run' = mapNext (State.mapOperands fc fd fm) run) :
    whenInit (s.mapOperands fc fd fm) run' =
      mapNext (State.mapOperands fc fd fm) (whenInit s run) :=
  ite_eq_mapNext Iff.rfl hrun rfl

theorem whenFrame_mapOperands {run run' : Out}
    (hrun : run' = mapNext (State.mapOperands fc fd fm) run) :
    whenFrame (s.mapOperands fc fd fm) run' =
      mapNext (State.mapOperands fc fd fm) (whenFrame s run) :=
  whenInit_mapOperands (ite_eq_mapNext Iff.rfl hrun rfl)

theorem withFrameEntry_mapOperands {run run' : Entry → Out}
    (hrun : ∀ en, run' en = mapNext (State.mapOperands fc fd fm) (run en)) :
    withFrameEntry (s.mapOperands fc fd fm) run' =
      mapNext (State.mapOperands fc fd fm) (withFrameEntry s run) := by
  refine whenFrame_mapOperands ?_
  simp only [mapOperands_frame, mapOperands_catEntry, hrun]
  cases s.catEntry s.frame.msgId <;> rfl

end Guards

/-- WHAT NO OTHER COMMAND DEPENDS ON: a command outside the CRC family has the same outcome whatever
CRC holds, one that is not FIELD_WRITE whatever DATA holds, and every command whatever IN holds at
or beyond its count. -/
theorem exec_mapOperands {i : Instr} {s : State} {fc : Crc16 → Crc16} {fd : Word → Word}
    {fm : Cells Byte → Cells Byte} (hcrc : isCrc i = true → fc = id)
    (hdata : ∀ k e, i = .fieldWrite k e → fd = id)
    (hin : ∀ n, i = .crcCalc n ∨ i = .parse n ∨ i = .parseStream n →
      (s.mapOperands fc fd fm).inPrefix n.toNat = s.inPrefix n.toNat) :
    exec i (s.mapOperands fc fd fm) = mapNext (State.mapOperands fc fd fm) (exec i s) := by
  cases i with simp only [exec]
  | crcSeed | crcLoad v | crcAcc b =>
    obtain rfl := hcrc rfl
    rfl
  | crcCalc n =>
    obtain rfl := hcrc rfl
    exact withInCount_mapOperands (hin n (by simp)) fun _ => rfl
  | catInit m =>
    refine withIdCount_mapOperands fun ids => ?_
    simp only [mapOperands_params, mapOperands_sch]
    cases compile s.params.maxMessages s.sch ids <;> rfl
  | catInclude m =>
    exact withIdCount_mapOperands fun _ => whenInit_mapOperands (ite_eq_mapNext Iff.rfl rfl rfl)
  | catExclude m =>
    exact withIdCount_mapOperands fun _ => whenInit_mapOperands (ite_eq_mapNext Iff.rfl rfl rfl)
  | catLookup id =>
    refine whenInit_mapOperands ?_
    simp only [mapOperands_catEntry]
    cases s.catEntry id <;> rfl
  | catField id k =>
    refine whenInit_mapOperands ?_
    simp only [mapOperands_catEntry]
    cases s.catEntry id with
    | none => rfl
    | some en =>
      dsimp only
      cases en.fields[k.toNat]? <;> rfl
  | parse n =>
    refine withInCount_mapOperands (hin n (by simp)) fun bytes => whenInit_mapOperands ?_
    simp only [mapOperands_cat]
    cases scan s.cat .discrete 0 bytes none <;> rfl
  | parseStream n =>
    refine withInCount_mapOperands (hin n (by simp)) fun bytes => ite_eq_mapNext Iff.rfl ?_ rfl
    simp only [mapOperands_cat]
    cases scan s.cat .stream 0 bytes none <;> rfl
  | fieldRead k e =>
    refine withFrameEntry_mapOperands fun en => ?_
    cases en.select k e <;> rfl
  | fieldWrite k e =>
    obtain rfl := hdata k e rfl
    refine withFrameEntry_mapOperands fun en => ?_
    cases en.select k e <;> rfl
  | frameNew id ver =>
    refine whenInit_mapOperands ?_
    simp only [mapOperands_catEntry]
    cases s.catEntry id with
    | none => rfl
    | some en => exact ite_eq_mapNext Iff.rfl rfl rfl
  | setHeader seq sys comp incompat compat =>
    refine whenFrame_mapOperands ?_
    simp only [mapOperands_frame]
    cases s.frame.ver <;> rfl
  | serialize => exact withFrameEntry_mapOperands fun _ => rfl

theorem exec_mapOperands_next {i : Instr} {s t : State} {fc : Crc16 → Crc16} {fd : Word → Word}
    {fm : Cells Byte → Cells Byte} (h : exec i s = .next t) (hcrc : isCrc i = true → fc = id)
    (hdata : ∀ k e, i = .fieldWrite k e → fd = id)
    (hin : ∀ n, i = .crcCalc n ∨ i = .parse n ∨ i = .parseStream n →
      (s.mapOperands fc fd fm).inPrefix n.toNat = s.inPrefix n.toNat) :
    exec i (s.mapOperands fc fd fm) = .next (t.mapOperands fc fd fm) := by
  rw [exec_mapOperands hcrc hdata hin, h, mapNext]

end Sys2Proof.Machine
end

section
/-! PROOFS. The statements on the state: what stands in each register, who writes it and who
reads it. -/

namespace Sys2Proof.Machine

/-! ### How a command that succeeds ended -/

theorem statusOf_eq_okStatus {e : Err} : statusOf e = okStatus ↔ e = .none := by
  cases e <;> decide

/-- A command that fails leaves RESULT as it was (R39). -/
theorem Effect.result_eq_of_failed {s t : State} {i : Instr} (h : Effect s i t)
    (hfail : t.status.ok = false) : t.result = s.result := by
  cases h with
  | crc | reports | parseFound | streamFound | serialize => cases hfail
  | _ => rfl

/-- A CAT_INIT that succeeds sets INIT (R168). -/
theorem Effect.init_of_catInit {s t : State} {m : Count} (h : Effect s (.catInit m) t)
    (hok : t.status = okStatus) : t.init = true := by
  cases h with
  | fails e hcode =>
    obtain rfl := statusOf_eq_okStatus.mp hok
    simp [codesOf, Err.code] at hcode
  | crc _ hi => cases hi
  | reports _ hi => cases hi
  | catInit => rfl

section Success

variable {s t : State}

theorem raise_ok {e : Err} (h : raise e s = .next t) (hok : t.status = okStatus) : e = .none := by
  cases h
  exact statusOf_eq_okStatus.mp hok

/-! A command that succeeds has passed its guards. -/

theorem withInCount_ok {n : Count} {run : List Byte → Out} (h : withInCount n s run = .next t)
    (hok : t.status = okStatus) : run (s.inPrefix n.toNat) = .next t := by
  rcases withInCount_cases n s run with ⟨-, heq⟩ | ⟨-, heq⟩ <;> rw [heq] at h
  · exact h
  · cases raise_ok h hok

theorem whenInit_ok {run : Out} (h : whenInit s run = .next t) (hok : t.status = okStatus) :
    run = .next t := by
  rcases whenInit_cases s run with ⟨-, heq⟩ | ⟨-, heq⟩ <;> rw [heq] at h
  · exact h
  · cases raise_ok h hok

theorem withFrameEntry_ok {run : Entry → Out} (h : withFrameEntry s run = .next t)
    (hok : t.status = okStatus) : ∃ e, s.catEntry s.frame.msgId = some e ∧ run e = .next t := by
  rcases withFrameEntry_cases s run with
    ⟨e, -, -, hcat, heq⟩ | ⟨-, -, -, heq⟩ | ⟨-, heq⟩ | ⟨-, -, heq⟩ <;> rw [heq] at h
  · exact ⟨e, hcat, h⟩
  · cases h
  · cases raise_ok h hok
  · cases raise_ok h hok

/-- A scan never ends without a reason (R231). -/
theorem scan_exhausted_ne_none {cat : Cells Entry} {m : Mode} {b : List Byte} {i : Nat}
    (h : scan cat m i b none = .exhausted .none) : False := by
  rcases scan_exhausted h with hr | hr
  · cases hr
  · simp [CandidateReason] at hr

/-- PARSE that succeeds has loaded the frame its scan found (R230). -/
theorem execParse_ok {n : Count} (h : execParse n s = .next t) (hok : t.status = okStatus) :
    ∃ f start stop,
      scan s.cat .discrete 0 (s.inPrefix n.toNat) none = .found f start stop ∧ t.frame = f := by
  have hrun := whenInit_ok (withInCount_ok h hok) hok
  split at hrun
  next f start stop hscan =>
    cases hrun
    exact ⟨f, start, stop, hscan, rfl⟩
  · cases raise_ok hrun hok
  next hscan =>
    obtain rfl := raise_ok hrun hok
    exact (scan_exhausted_ne_none hscan).elim

/-- PARSE_STREAM that succeeds has loaded the frame its scan found (R232). -/
theorem execParseStream_ok {n : Count} (h : execParseStream n s = .next t)
    (hok : t.status = okStatus) :
    ∃ f start stop,
      scan s.cat .stream 0 (s.inPrefix n.toNat) none = .found f start stop ∧ t.frame = f := by
  have hrun := withInCount_ok h hok
  split at hrun
  · split at hrun
    next f start stop hscan =>
      cases hrun
      exact ⟨f, start, stop, hscan, rfl⟩
    · cases raise_ok hrun hok
    next hscan =>
      obtain rfl := raise_ok hrun hok
      exact (scan_exhausted_ne_none hscan).elim
  · cases raise_ok hrun hok

/-- SERIALIZE that succeeds has put the frame's bytes in OUT and their number in OUT_LEN (R265). -/
theorem execSerialize_ok (h : execSerialize s = .next t) (hok : t.status = okStatus) :
    ∃ e bytes, s.catEntry s.frame.msgId = some e ∧
      bytes = frameBytes e s.frame (emittedLength s.params.v2Trim e s.frame) ∧
      t.out = Bytes.ofList 280 bytes ∧ t.outLen = BitVec.ofNat 16 bytes.length := by
  obtain ⟨e, hcat, hrun⟩ := withFrameEntry_ok h hok
  cases hrun
  exact ⟨e, _, hcat, rfl, rfl, rfl⟩

end Success

/-! ### What a parse leaves in PAYLOAD, and SERIALIZE in OUT -/

/-- A frame found has no payload byte at or beyond LEN (R226). -/
theorem scan_found_payload {cat : Cells Entry} {m : Mode} {b : List Byte} {f : Frame}
    {start stop j : Nat} (h : scan cat m 0 b none = .found f start stop) (hj : f.len.toNat ≤ j) :
    byteAt f.payload j = 0 := by
  obtain ⟨k, v, size, -, htry, -, -⟩ := scan_found h
  obtain ⟨-, e, -, -, -, -, hf⟩ := tryCandidate_ok htry
  have hbody : f.payload = (bodyFrame v (b.drop k)).payload ∧ f.len = (b.drop k).getD 1 0 := by
    rcases hf with ⟨-, rfl, -⟩ | ⟨-, rfl, -⟩ <;> exact ⟨rfl, headerFrame_len v _⟩
  obtain ⟨hpayload, hlen⟩ := hbody
  rw [hpayload]
  exact byteAt_bodyFrame_payload v _ (hlen ▸ hj)

/-- A serialized frame has at most 10 + 255 + 2 bytes (R46, R265). -/
theorem frameBytes_length_le (trim : Bool) (e : Entry) (f : Frame) :
    (frameBytes e f (emittedLength trim e f)).length ≤ 267 := by
  have hlimit := emittedLength_le trim e f
  have hbyte := (e.limit f.ver).isLt
  have hheader : headerLength f.ver ≤ 10 := by cases f.ver <;> decide
  rw [frameBytes_length]
  omega

/-- The first bytes of a window filled from a list that fits it are the list. -/
theorem slice_ofList {n : Nat} {l : List Byte} (h : l.length ≤ n) :
    slice (Bytes.ofList n l) 0 l.length = l := by
  refine List.ext_getElem (by simp) fun i hi hl => ?_
  have hget := slice_getD (Bytes.ofList n l) 0 l.length i (by simpa using hl)
  rw [byteAt_ofList, if_pos (by omega), Nat.zero_add] at hget
  simpa [List.getD_eq_getElem?_getD, hi, hl] using hget

/-- Beyond a list that a window was filled from, the window reads 0. -/
theorem byteAt_ofList_beyond (n : Nat) {l : List Byte} {i : Nat} (h : l.length ≤ i) :
    byteAt (Bytes.ofList n l) i = 0 := by
  rw [byteAt_ofList, List.getD_eq_default _ _ h, ite_self]

/-! ### Before initialization -/

theorem whenInit_uninit {s : State} (hinit : s.init = false) (run : Out) :
    whenInit s run = raise .notInitialized s := by
  simp [whenInit, hinit]

/-- Every legal command but the CRC family and CAT_INIT fails NotInitialized, PARSE_STREAM with no
progress to report (R37, R303, D40). -/
theorem exec_uninit {i : Instr} {s : State} (hinit : s.init = false)
    (hwf : i.wellFormed s.params = true) (hcrc : isCrc i = false) (hcat : ∀ m, i ≠ .catInit m) :
    exec i s = raise .notInitialized s ∨ exec i s = raise .notInitialized (setStream 0 0 s) := by
  cases i with
  | crcSeed | crcLoad | crcAcc | crcCalc => cases hcrc
  | catInit m => exact absurd rfl (hcat m)
  | catInclude m =>
    left
    rw [exec, execCatInclude, withIdCount_le _ (of_decide_eq_true hwf), whenInit_uninit hinit]
  | catExclude m =>
    left
    rw [exec, execCatExclude, withIdCount_le _ (of_decide_eq_true hwf), whenInit_uninit hinit]
  | parse n =>
    left
    rw [exec, execParse, withInCount_le _ (of_decide_eq_true hwf), whenInit_uninit hinit]
  | parseStream n =>
    right
    rw [exec, execParseStream, withInCount_le _ (of_decide_eq_true hwf), if_neg (by simp [hinit])]
  | catLookup | catField | fieldRead | fieldWrite | frameNew | setHeader | serialize =>
    exact .inl (whenInit_uninit hinit _)

/-! ### The statements -/

/-- Settles O56. -/
theorem idlePortChangesNothing : Obligations.IdlePortChangesNothing := by
  intro s hport
  simp only [step, fetch, hport]

/-- Settles O5: `fetch` takes the write off the port as a command. -/
theorem stepRunsDecodedCommand : Obligations.StepRunsDecodedCommand :=
  fun _ _ _ _ hport hdecode _ => step_command hport hdecode

/-- Settles O55: the step is `platformReset`, which is `State.reset` but for what the block does not
own. -/
theorem resetValues : Obligations.ResetValues := by
  intro s rest hport
  exact ⟨_, step_reset hport, rfl, rfl, rfl, rfl, rfl, rfl, rfl, rfl, rfl, rfl, rfl, rfl, rfl, rfl,
    rfl, rfl, rfl, rfl, rfl, rfl, rfl, rfl, byteAt_zeros 13, byteAt_zeros 255, byteAt_zeros 280,
    rfl, fun _ => rfl, fun _ => rfl⟩

/-- Settles O14: no constructor of `Effect` outside the CRC family writes CRC, and
`exec_mapOperands` says that no such command depends on it. -/
theorem crcRegisterIsPrivate : Obligations.CrcRegisterIsPrivate := by
  refine ⟨fun i s t hi h => ⟨(exec_effect h).crc_eq hi, fun c => ?_⟩, fun s => ?_, rfl⟩
  · exact exec_mapOperands_next (fc := fun _ => c) (fd := id) (fm := id) h (by simp [hi])
      (fun _ _ _ => rfl) (fun _ _ => rfl)
  · rw [BitVec.ofNat_toNat]
    exact hostRead?_reg s 4 rfl rfl

/-- Settles O37: the bytes counted are the same, and nothing else of IN is read. -/
theorem inputBeyondCountIsNotRead : Obligations.InputBeyondCountIsNotRead := by
  intro s t n i inMem hi hsame h
  refine exec_mapOperands_next (fc := id) (fd := id) (fm := fun _ => inMem) h (fun _ => rfl)
    (fun _ _ _ => rfl) fun n' hi' => ?_
  have hn : n = n' := by rcases hi with rfl | rfl | rfl <;> simpa using hi'
  subst hn
  exact List.map_congr_left fun j hj => hsame j (List.mem_range.mp hj)

/-- Settles O46, from the ways a command can end. -/
theorem resultChangesOnlyOnSuccess : Obligations.ResultChangesOnlyOnSuccess := by
  refine ⟨fun i s t h hcase => ?_, fun s => hostRead?_reg s 3 rfl rfl, rfl⟩
  rcases hcase with hfail | hwrites
  · exact (exec_effect h).result_eq_of_failed hfail
  · exact (exec_effect h).result_eq hwrites

/-- Settles O47: SERIALIZE alone writes OUT, and what it writes fits 267 bytes. -/
theorem outChangesOnlyOnSerialize : Obligations.OutChangesOnlyOnSerialize := by
  refine ⟨fun i s t hi h => (exec_effect h).out_eq hi, fun s t h hok => ?_, fun s => ⟨?_, ?_⟩, rfl,
    byteAt_zeros 280⟩
  · obtain ⟨e, bytes, hcat, hbytes, hout, houtLen⟩ := execSerialize_ok h hok
    have hle : bytes.length ≤ 267 := hbytes ▸ frameBytes_length_le ..
    have hlen : t.outLen.toNat = bytes.length := by
      rw [houtLen]
      exact Nat.mod_eq_of_lt (by omega)
    rw [hlen, hout]
    exact ⟨hle, fun i => byteAt_ofList_beyond 280, e, hcat,
      (slice_ofList (by omega)).trans hbytes⟩
  · exact hostRead?_reg s 10 rfl rfl
  · exact fun i hi =>
      hostRead?_window (by omega) (placeOf_out hi rfl) rfl (Nat.mod_one _)

/-- Settles O49: the guards, the frame of each host access, and the bound on the catalog. -/
theorem nothingRunsBeforeInit : Obligations.NothingRunsBeforeInit := by
  refine ⟨fun i s hinit hwf hcrc hcat => ?_, fun s t hinit hstep hport => ?_,
    fun m s t h hok => (exec_effect h).init_of_catInit hok, fun s h => ?_, rfl, rfl⟩
  · rcases exec_uninit hinit hwf hcrc hcat with heq | heq <;>
      exact ⟨_, heq, rfl, hinit, rfl, rfl⟩
  · rcases step_cases hstep with
      ⟨-, rfl⟩ | ⟨a, rest, ha, ⟨-, hserve⟩ | ⟨w, -, ⟨i, -, hexec⟩ | ⟨-, rfl⟩⟩⟩
    · exact hinit
    · exact (serve_init hserve (by rintro rfl; exact hport rest ha)).trans hinit
    · exact (exec_effect hexec).init_mono hinit
    · exact hinit
  · have hsize := h.catSize
    obtain ⟨-, -, -, -, -, hmax⟩ := legal_bounds h.params
    exact ⟨_, hostRead?_reg s 11 rfl rfl, catStateWord_toNat (by omega), hsize⟩

/-- Settles O50, register by register. -/
theorem hostReadsRegisterFields : Obligations.HostReadsRegisterFields := by
  refine ⟨?_, ?_, ?_, fun s h hver => ?_, fun s => ⟨?_, ?_, ?_, ?_, ?_, ?_, ?_, ?_, ?_⟩⟩
  · exact hostRead?_reg _ 7 rfl rfl
  · exact hostRead?_reg _ 8 rfl rfl
  · exact hostRead?_reg _ 9 rfl rfl
  · cases hvalid : s.frame.valid with
    | false =>
      rw [h.noFrame hvalid]
      exact ⟨rfl, rfl⟩
    | true =>
      obtain ⟨-, e, -, hfits⟩ := h.frame hvalid
      obtain ⟨hincompat, hcompat, -⟩ := hfits.v1 hver
      exact ⟨hincompat, hcompat⟩
  · exact hostRead?_reg s 0 rfl rfl
  · exact hostRead?_reg s 1 rfl rfl
  · exact hostRead?_reg s 5 rfl rfl
  · exact hostRead?_reg s 6 rfl rfl
  · exact hostRead?_reg s 10 rfl rfl
  · exact ⟨_, hostRead?_reg s 2 rfl rfl, status_word_toNat s.status⟩
  · refine ⟨_, hostRead?_reg s 7 rfl rfl, ?_⟩
    rw [State.readReg, ctlWord_toNat]
    cases s.frame.ver <;> rfl
  · exact ⟨_, hostRead?_reg s 8 rfl rfl, hdrWord_fields s.frame⟩
  · exact ⟨_, hostRead?_reg s 9 rfl rfl, BitVec.toNat_setWidth_of_le (by omega)⟩

/-- Settles O51: a write to CMD is the step that runs it, a write to DATA is stored, and no command
but FIELD_WRITE depends on DATA (`exec_mapOperands`). -/
theorem commandDataAndStreamRegisters : Obligations.CommandDataAndStreamRegisters := by
  refine ⟨fun s w rest => ⟨hostRead?_reg s 0 rfl rfl, fun hport =>
      ⟨fun i hi => step_command hport hi, fun e he => step_illegal hport he⟩⟩,
    fun s v rest hport => ⟨_, step_write_data hport, rfl, hostRead?_reg _ 1 rfl rfl⟩,
    fun i s t h => ?_, fun s => ?_, rfl, rfl, rfl⟩
  · obtain ⟨-, hdata, -⟩ := (exec_effect h).inputs_eq
    refine ⟨hdata, fun hi d => ?_, (exec_effect h).stream_eq⟩
    exact exec_mapOperands_next (fc := id) (fd := fun _ => d) (fm := id) h (fun _ => rfl)
      (fun k e heq => absurd heq (hi k e)) (fun _ _ => rfl)
  · refine ⟨hostRead?_reg s 5 rfl rfl, hostRead?_reg s 6 rfl rfl, fun h => ?_⟩
    obtain ⟨hce, hexamined⟩ := h.stream
    exact ⟨hce.trans hexamined, hexamined⟩

/-- Settles O52: each offset's place, and the frame a successful scan loads. -/
theorem hostReadsWindows : Obligations.HostReadsWindows := by
  refine ⟨fun s t n i hi h hok j hj => ?_, fun s hlegal => ?_⟩
  · rcases hi with rfl | rfl
    · obtain ⟨f, start, stop, hscan, rfl⟩ := execParse_ok h hok
      exact scan_found_payload hscan hj
    · obtain ⟨f, start, stop, hscan, rfl⟩ := execParseStream_ok h hok
      exact scan_found_payload hscan hj
  · obtain ⟨-, hin, -, hids, -⟩ := legal_bounds hlegal
    have hreserved {off : Nat} (h : 0x10D ≤ off ∧ off ≤ 0x1FF ∨ off = 0x2FF) :
        s.hostRead? .b8 (BitVec.ofNat 17 off) = some 0 := by
      have hoff : (BitVec.ofNat 17 off).toNat = off := Nat.mod_eq_of_lt (by omega)
      refine hostRead?_reserved ?_ nofun (Nat.mod_one _)
      rw [hoff]
      unfold ReservedOffset
      omega
    refine ⟨fun i hi => ?_, fun i hi => ?_, fun off hlo hhi => hreserved (.inl ⟨hlo, hhi⟩),
      hreserved (.inr rfl), fun i hi => ?_, fun j hj => ?_, fun i hi => ?_⟩
    · exact hostRead?_window (by omega) (placeOf_sig hi rfl) rfl (Nat.mod_one _)
    · exact hostRead?_window (by omega) (placeOf_payload hi rfl) rfl (Nat.mod_one _)
    · exact hostRead?_window (by omega) (placeOf_out hi rfl) rfl (Nat.mod_one _)
    · exact hostRead?_window (by omega) (placeOf_idEntry hj (by omega) (by omega)) rfl
        (by simp only [Width.bytes]; omega)
    · exact hostRead?_window (by omega) (placeOf_inByte hi rfl (by omega)) rfl (Nat.mod_one _)

/-- Settles O54: each offset's place, its width, and whether a write there is stored. -/
theorem reservedOffsetsAreInert : Obligations.ReservedOffsetsAreInert := by
  intro s w off v rest
  refine ⟨fun hres hw halign => ⟨hostRead?_reserved hres hw halign, fun hport => ?_⟩,
    fun hw halign hlo hhi hport => ?_, fun hw hwindow hport => ?_, fun hform hport => ?_⟩
  · refine step_write_readOnly hport (accessOk_of_reserved hres hw halign) ?_
    rw [placeOf_reserved hres]
    trivial
  · subst hw
    obtain ⟨r, hr, hro⟩ := ofIndex?_of_lt (k := off.toNat / 8) (by omega)
    have hplace : placeOf s.params off.toNat = .reg r := placeOf_reg hr
    refine step_write_readOnly hport (accessOk_of_width hplace rfl halign) ?_
    rw [hplace]
    exact hro (by omega)
  · subst hw
    obtain ⟨place, hplace, hwidth, hro⟩ := placeOf_byteWindow (p := s.params) hwindow
    exact step_write_readOnly hport (accessOk_of_width hplace hwidth (Nat.mod_one _)) (hplace ▸ hro)
  · refine step_refused ?_ hport
    rcases hform with rfl | halign | ⟨hoff, hw⟩ | ⟨hlo, hhi, hw⟩ | ⟨hlo, hhi, hw⟩ |
      ⟨hlo, hhi, hw⟩ | ⟨hlo, hhi, -, hw⟩ | ⟨hlo, hhi, hids, hw⟩
    · exact accessOk_b16 ..
    · exact not_accessOk_of_misaligned halign
    · obtain ⟨r, hr, -⟩ := ofIndex?_of_lt (k := off.toNat / 8) (by omega)
      exact not_accessOk_of_width (placeOf_reg hr) rfl hw
    · exact not_accessOk_byteWindow (.inl ⟨hlo, hhi⟩) hw
    · exact not_accessOk_byteWindow (.inr (.inl ⟨hlo, hhi⟩)) hw
    · exact not_accessOk_byteWindow (.inr (.inr ⟨hlo, hhi⟩)) hw
    · exact not_accessOk_of_width
        (placeOf_idEntry (j := (off.toNat - 0x4000) / 4) (by omega) (by omega) (by omega)) rfl hw
    · exact not_accessOk_of_width
        (placeOf_inByte (i := off.toNat - 0x10000) (by omega) (by omega) (by omega)) rfl hw

end Sys2Proof.Machine
end

section
/-! PROOFS. The statements on the host's port as a memory and on how every command ends: host writes
store and nothing more, and no command word stops the block. -/

namespace Sys2Proof.Machine

/-! ### Host writes that store, and host reads -/

section Store

variable {s : State} {w : Width} {v : Word} {rest : List HostAccess} {place : Place}

/-- A write to a place other than CMD, at its offset and in its width, is stored there (R32, R87). -/
theorem step_write_window {n : Nat} (hn : n < 131072)
    (hport : s.port = .write w (BitVec.ofNat 17 n) v :: rest) (hplace : placeOf s.params n = place)
    (hwidth : place.width? = some w) (halign : n % w.bytes = 0) (hcmd : place ≠ .reg .cmd) :
    step s = .next (({ s with port := rest } : State).writePlace v place) := by
  have hoff : (BitVec.ofNat 17 n).toNat = n := Nat.mod_eq_of_lt hn
  rw [← hoff] at hplace halign
  rw [step_write hport (accessOk_of_width hplace hwidth halign) (hplace ▸ hcmd), hplace]

/-- `IN[a]` takes the low byte of the word written (R47). -/
theorem readIn_writePlace_input (s : State) (v : Word) (a i : Nat) :
    (s.writePlace v (.input a)).readIn i = if i = a then v.extractLsb' 0 8 else s.readIn i := by
  simp only [State.writePlace, readIn_writeIn, BitVec.setWidth_eq_extractLsb' (show 8 ≤ 64 by omega),
    eq_comm]

/-- `IDLIST[a]` takes the low 24 bits of the word written (R47). -/
theorem readId_writePlace_idList (s : State) (v : Word) (a j : Nat) :
    (s.writePlace v (.idList a)).readId j = if j = a then v.extractLsb' 0 24 else s.readId j := by
  simp only [State.writePlace, readId_writeId, BitVec.setWidth_eq_extractLsb' (show 24 ≤ 64 by omega),
    eq_comm]

/-- The schema table is staged whole (R48, log entry 3). -/
theorem step_stageSchemas {table : List SchemaEntry}
    (hport : s.port = .stageSchemas table :: rest) :
    step s = .next { s with port := rest, sch := table } := by
  simp only [step, fetch_cons hport, serve]

/-- The answer to a host read does not depend on what waits at the port. -/
theorem hostRead?_port (s : State) (w : Width) (off : Offset) (port : List HostAccess) :
    ({ s with port := port } : State).hostRead? w off = s.hostRead? w off := rfl

/-- A read R32 admits answers, and does nothing else (R87). -/
theorem step_read {off : Offset} {r : Word} (hport : s.port = .read w off :: rest)
    (hread : s.hostRead? w off = some r) :
    step s = .next { s with port := rest, readData := r } := by
  simp only [step, fetch_cons hport, serve, hostRead?_port, hread]

end Store

/-- Settles O53: each window's place, and what a write there stores. -/
theorem hostWritesStore : Obligations.HostWritesStore := by
  intro s v rest hlegal
  obtain ⟨-, hin, -, hids, -⟩ := legal_bounds hlegal
  refine ⟨step_write_data, fun a ha hport => ?_, fun a ha hport => ?_,
    fun table => step_stageSchemas, fun w off r => step_read⟩
  · exact ⟨_, step_write_window (by omega) hport (placeOf_inByte ha rfl (by omega)) rfl
      (Nat.mod_one _) nofun, rfl, readIn_writePlace_input _ v a⟩
  · exact ⟨_, step_write_window (by omega) hport (placeOf_idEntry ha (by omega) (by omega)) rfl
      (by simp only [Width.bytes]; omega) nofun, rfl, readId_writePlace_idList _ v a⟩

/-! ### How every command ends -/

/-- The outcome is a next state: neither a fault nor a refusal. -/
def EndsInNext (o : Out) : Prop := ∃ t, o = .next t

theorem endsInNext_raise (e : Err) (s : State) : EndsInNext (raise e s) := ⟨_, rfl⟩

theorem endsInNext_succeed (s : State) : EndsInNext (succeed s) := ⟨_, rfl⟩

section Guards

variable {s : State}

theorem endsInNext_ite {c : Prop} [Decidable c] {o o' : Out} (h : EndsInNext o)
    (h' : EndsInNext o') : EndsInNext (if c then o else o') := by
  split
  · exact h
  · exact h'

theorem endsInNext_withInCount {n : Count} {run : List Byte → Out}
    (hrun : ∀ bytes, EndsInNext (run bytes)) : EndsInNext (withInCount n s run) :=
  endsInNext_ite (hrun _) (endsInNext_raise _ s)

theorem endsInNext_withIdCount {m : Count} {run : List MsgId → Out}
    (hrun : ∀ ids, EndsInNext (run ids)) : EndsInNext (withIdCount m s run) :=
  endsInNext_ite (hrun _) (endsInNext_raise _ s)

theorem endsInNext_whenInit {run : Out} (hrun : EndsInNext run) : EndsInNext (whenInit s run) :=
  endsInNext_ite hrun (endsInNext_raise _ s)

theorem endsInNext_whenFrame {run : Out} (hrun : EndsInNext run) : EndsInNext (whenFrame s run) :=
  endsInNext_whenInit (endsInNext_ite hrun (endsInNext_raise _ s))

/-- The one fault of a command is a frame held without a catalog entry, which the invariant rules out
(R40, log entry 4). -/
theorem endsInNext_withFrameEntry (h : Inv s) {run : Entry → Out}
    (hrun : ∀ en, EndsInNext (run en)) : EndsInNext (withFrameEntry s run) := by
  rcases withFrameEntry_cases s run with
    ⟨en, -, -, -, heq⟩ | ⟨-, hvalid, hnone, -⟩ | ⟨-, heq⟩ | ⟨-, -, heq⟩
  · exact heq ▸ hrun en
  · obtain ⟨-, en, hcat, -⟩ := h.frame hvalid
    cases hnone.symm.trans hcat
  · exact heq ▸ endsInNext_raise _ s
  · exact heq ▸ endsInNext_raise _ s

end Guards

/-- EVERY COMMAND ENDS IN A NEXT STATE, from every state that meets the invariant (R300). -/
theorem exec_endsInNext {s : State} (h : Inv s) (i : Instr) : EndsInNext (exec i s) := by
  cases i with simp only [exec]
  | crcSeed | crcLoad | crcAcc => exact endsInNext_succeed _
  | crcCalc n => exact endsInNext_withInCount fun _ => endsInNext_succeed _
  | catInit m =>
    refine endsInNext_withIdCount fun ids => ?_
    cases compile s.params.maxMessages s.sch ids with
    | error e => exact endsInNext_raise e s
    | ok cat => exact endsInNext_succeed _
  | catInclude m | catExclude m =>
    exact endsInNext_withIdCount fun _ =>
      endsInNext_whenInit (endsInNext_ite (endsInNext_raise _ s) (endsInNext_succeed _))
  | catLookup id =>
    refine endsInNext_whenInit ?_
    cases s.catEntry id with
    | none => exact endsInNext_raise _ s
    | some en => exact endsInNext_succeed _
  | catField id k =>
    refine endsInNext_whenInit ?_
    cases s.catEntry id with
    | none => exact endsInNext_raise _ s
    | some en =>
      dsimp only
      cases en.fields[k.toNat]? with
      | none => exact endsInNext_raise _ s
      | some f => exact endsInNext_succeed _
  | parse n =>
    refine endsInNext_withInCount fun bytes => endsInNext_whenInit ?_
    cases scan s.cat .discrete 0 bytes none with
    | found f start stop => exact endsInNext_succeed _
    | needMore | exhausted => exact endsInNext_raise _ _
  | parseStream n =>
    refine endsInNext_withInCount fun bytes => endsInNext_ite ?_ (endsInNext_raise _ _)
    cases scan s.cat .stream 0 bytes none with
    | found f start stop => exact endsInNext_succeed _
    | needMore | exhausted => exact endsInNext_raise _ _
  | fieldRead k e | fieldWrite k e =>
    refine endsInNext_withFrameEntry h fun en => ?_
    cases en.select k e with
    | none => exact endsInNext_raise _ s
    | some f => exact endsInNext_succeed _
  | frameNew id ver =>
    refine endsInNext_whenInit ?_
    cases s.catEntry id with
    | none => exact endsInNext_raise _ s
    | some en => exact endsInNext_ite (endsInNext_raise _ s) (endsInNext_succeed _)
  | setHeader seq sys comp incompat compat =>
    refine endsInNext_whenFrame ?_
    cases s.frame.ver <;> exact endsInNext_succeed _
  | serialize => exact endsInNext_withFrameEntry h fun _ => endsInNext_succeed _

/-! ### How every step ends -/

/-- A command word ends in a next state: as its command does, or IllegalCommand (R103, R300). -/
theorem step_command_endsInNext {s t : State} {w : Word} (h : Inv t)
    (hfetch : fetch s = .command w t) : EndsInNext (step s) := by
  simp only [step, hfetch]
  cases decode w with
  | ok i => exact exec_endsInNext h i
  | error e => exact endsInNext_raise _ t

/-- Under the invariant a step ends in a next state, or the access is refused for its form (R49). -/
theorem Inv.step_endsInNext_or_refused {s : State} (h : Inv s) :
    EndsInNext (step s) ∨ step s = .refused .hostAccessForm := by
  cases hport : s.port with
  | nil => exact .inl ⟨s, by simp only [step, fetch, hport]⟩
  | cons a rest =>
    have hfetch := fetch_cons hport
    rcases serve_cases a { s with port := rest } with ⟨t, -, hserve⟩ | ⟨w, hserve⟩ | hserve <;>
      rw [hserve] at hfetch
    · exact .inl ⟨t, by simp only [step, hfetch]⟩
    · exact .inl (step_command_endsInNext (h.takePort rest) hfetch)
    · exact .inr (by simp only [step, hfetch])

/-- Settles O59: a command ends in a next state, and an access that is no command faults nowhere. -/
theorem noCommandStopsTheBlock : Obligations.NoCommandStopsTheBlock := by
  refine fun s h => ⟨fun r hfault => ?_, fun w =>
    step_command_endsInNext h (fetch_withFetchWord s w)⟩
  rcases h.step_endsInNext_or_refused with ⟨t, heq⟩ | heq <;> cases heq.symm.trans hfault

end Sys2Proof.Machine
end

section
/-! PROOFS. The decoder and the encoder (R100 to R102). Bits [7:0] of a word are its opcode and bits
[63:8] one number, the operand fields of R101 side by side. A command is its row and that number, a
word is its opcode byte and that number, and a row reads its operands from that number alone; so
decoding and encoding undo each other. -/

namespace Sys2Proof

/-! ### The rows of R102 -/

/-- A row is the one with its opcode byte (R102). -/
theorem Opcode.ofByte?_eq_some_iff {b : Byte} {op : Opcode} :
    Opcode.ofByte? b = some op ↔ op.byte = b := by
  constructor
  · intro h
    simpa using List.find?_some h
  · rintro rfl
    cases op <;> rfl

/-- The opcode byte of a word, in numbers (R100). -/
theorem opcodeByte_eq_iff {w : Word} {b : Byte} :
    b = w.extractLsb' 0 8 ↔ w.toNat % 256 = b.toNat := by
  rw [← BitVec.toNat_inj, BitVec.extractLsb'_toNat, Nat.shiftRight_zero, eq_comm]

/-- The reserved bits of a word are clear when it fits the bits its format uses (R101). -/
theorem Format.reservedClear_iff {f : Format} {w : Word} :
    f.reservedClear w = true ↔ w.toNat < 2 ^ f.usedBits := by
  simp [Format.reservedClear, ← BitVec.toNat_inj, Nat.shiftRight_eq_div_pow, Nat.div_eq_zero_iff]

/-- WHICH WORDS DECODE, AND TO WHAT: the opcode is a row's and no reserved bit of the row's format
is 1 (R100, R103). -/
theorem decode_eq_ok_iff {w : Word} {i : Instr} :
    decode w = .ok i ↔
      ∃ op : Opcode, w.toNat % 256 = op.byte.toNat ∧ w.toNat < 2 ^ op.format.usedBits ∧
        op.operands w = i := by
  simp only [← opcodeByte_eq_iff, ← Opcode.ofByte?_eq_some_iff, ← Format.reservedClear_iff]
  unfold decode
  cases Opcode.ofByte? (w.extractLsb' 0 8) with
  | none => simp
  | some op => cases h : op.format.reservedClear w <;> simp [h]

/-! ### A command as its row and its operand bits -/

/-- The row of a command (R102). -/
def Instr.opcode : Instr → Opcode
  | .crcSeed => .crcSeed
  | .crcLoad _ => .crcLoad
  | .crcAcc _ => .crcAcc
  | .crcCalc _ => .crcCalc
  | .catInit _ => .catInit
  | .catInclude _ => .catInclude
  | .catExclude _ => .catExclude
  | .catLookup _ => .catLookup
  | .catField _ _ => .catField
  | .parse _ => .parse
  | .parseStream _ => .parseStream
  | .fieldRead _ _ => .fieldRead
  | .fieldWrite _ _ => .fieldWrite
  | .frameNew _ _ => .frameNew
  | .setHeader _ _ _ _ _ => .setHeader
  | .serialize => .serialize

/-- Bits [63:8] of a command's word: its operand fields side by side (R101). -/
def Instr.operandBits : Instr → Nat
  | .crcSeed | .serialize => 0
  | .crcAcc b => b.toNat
  | .crcLoad n | .crcCalc n | .catInit n | .catInclude n | .catExclude n | .parse n
  | .parseStream n => n.toNat
  | .catLookup id => id.toNat
  | .catField id k => id.toNat + 2 ^ 24 * k.toNat
  | .fieldRead k e | .fieldWrite k e => k.toNat + 2 ^ 8 * e.toNat
  | .frameNew id ver => id.toNat + 2 ^ 24 * ver.bit.toNat
  | .setHeader seq sys comp incompat compat =>
    seq.toNat + 2 ^ 8 * sys.toNat + 2 ^ 16 * comp.toNat + 2 ^ 24 * incompat.toNat +
      2 ^ 32 * compat.toNat

/-- The operand bits of a command leave the reserved bits of its format clear (R101). -/
theorem Instr.operandBits_fits (i : Instr) :
    256 * i.operandBits + 256 ≤ 2 ^ i.opcode.format.usedBits := by
  cases i <;> simp only [operandBits, opcode, Opcode.format, Format.usedBits] <;> omega

/-- A command's word is its opcode byte below its operand bits (R100). -/
theorem encode_toNat (i : Instr) :
    (encode i).toNat = i.opcode.byte.toNat + 256 * i.operandBits := by
  cases i <;>
    simp only [encode, fieldsWord, fieldsNat, Instr.opcode, Instr.operandBits, Opcode.byte,
      BitVec.toNat_ofNat] <;>
    omega

/-- The version bit names its version (R101). -/
@[simp] theorem Version.ofBit_bit (ver : Version) : Version.ofBit ver.bit = ver := by
  cases ver <;> rfl

@[simp] theorem Version.bit_ofBit (b : BitVec 1) : (Version.ofBit b).bit = b := by
  revert b
  decide

/-- A field of a word, in numbers (R101). -/
theorem extractLsb'_eq_of_toNat {w : Word} {lo n : Nat} {x : BitVec n}
    (h : w.toNat / 2 ^ lo % 2 ^ n = x.toNat) : w.extractLsb' lo n = x := by
  apply BitVec.eq_of_toNat_eq
  rw [BitVec.extractLsb'_toNat, Nat.shiftRight_eq_div_pow, h]

/-- A command is what its row reads from a word with its operand bits (R101). -/
theorem Instr.operands_opcode {i : Instr} {w : Word} (h : w.toNat / 256 = i.operandBits) :
    i.opcode.operands w = i := by
  cases i with simp only [operandBits] at h
  | crcSeed | serialize => rfl
  | frameNew id ver =>
    have hid : w.extractLsb' 8 24 = id := extractLsb'_eq_of_toNat (by omega)
    have hver : w.extractLsb' 32 1 = ver.bit := extractLsb'_eq_of_toNat (by omega)
    rw [opcode, Opcode.operands, hid, hver, Version.ofBit_bit]
  | _ =>
    simp only [opcode, Opcode.operands]
    congr 1 <;> exact extractLsb'_eq_of_toNat (by omega)

/-- What a row reads from a word is a command of that row (R102). -/
@[simp] theorem Opcode.opcode_operands (op : Opcode) (w : Word) : (op.operands w).opcode = op := by
  cases op <;> rfl

/-- A row reads every operand bit of a word whose reserved bits are clear (R100, R101). -/
theorem Opcode.operandBits_operands {op : Opcode} {w : Word}
    (h : w.toNat < 2 ^ op.format.usedBits) : (op.operands w).operandBits = w.toNat / 256 := by
  cases op <;>
    simp only [format, Format.usedBits, operands, Instr.operandBits, Version.bit_ofBit,
      BitVec.extractLsb'_toNat, Nat.shiftRight_eq_div_pow] at h ⊢ <;>
    omega

/-! ### The statements -/

/-- Settles O1: the word of a command has the command's row and its operand bits. -/
theorem encodeThenDecode : Obligations.EncodeThenDecode := by
  intro i
  have hword := encode_toNat i
  have hop := i.opcode.byte.isLt
  have hbits := i.operandBits_fits
  exact decode_eq_ok_iff.mpr
    ⟨i.opcode, by omega, by omega, Instr.operands_opcode (by omega)⟩

/-- Settles O2: the command keeps the word's row and its operand bits, and these are the whole
word. -/
theorem decodedWordIsItsEncoding : Obligations.DecodedWordIsItsEncoding := by
  intro w i h
  obtain ⟨op, hop, hused, rfl⟩ := decode_eq_ok_iff.mp h
  apply BitVec.eq_of_toNat_eq
  rw [encode_toNat, Opcode.opcode_operands, Opcode.operandBits_operands hused]
  omega

/-- Settles O3: the six legal words are encodings. -/
theorem knownWordsDecode : Obligations.KnownWordsDecode :=
  ⟨encodeThenDecode (.crcAcc 0x31), encodeThenDecode (.catField 0x012345 4),
    encodeThenDecode (.parse 21), encodeThenDecode (.fieldWrite 6 1),
    encodeThenDecode (.setHeader 5 255 190 1 1), encodeThenDecode (.frameNew 30 .v2),
    by decide, by decide⟩

end Sys2Proof
end

section
/-! PROOFS. Illegal words (R103, R104): the rows of R103 are those of R102, so the legal words are those
that decode to a well-formed command; any other word sets STATUS and does nothing else, and a
well-formed command never answers IllegalCommand. -/

namespace Sys2Proof.Machine

/-! ### The rows of R103 are those of R102 -/

/-- What the count operand of a row counts (R103). -/
def opcodeCounts : Opcode → Counts
  | .crcCalc | .parse | .parseStream => .inputBytes
  | .catInit | .catInclude | .catExclude => .idEntries
  | _ => .nothing

/-- A row of R102 as R103 needs it. -/
def opcodeRow (op : Opcode) : Byte × Nat × Counts := (op.byte, op.format.usedBits, opcodeCounts op)

theorem commandRows_eq : commandRows = Opcode.all.map opcodeRow := rfl

theorem mem_commandRows {row : Byte × Nat × Counts} :
    row ∈ commandRows ↔ ∃ op, opcodeRow op = row := by
  have hall (op : Opcode) : op ∈ Opcode.all := by cases op <;> decide
  simp [commandRows_eq, hall]

/-- The bits from `used` on are 0 in the words below `2 ^ used`. -/
theorem highBits_clear_iff {w : Word} {used : Nat} :
    (∀ j, used ≤ j → w.getLsbD j = false) ↔ w.toNat < 2 ^ used :=
  ⟨Nat.lt_pow_two_of_testBit w.toNat, fun h _ hj =>
    Nat.testBit_lt_two_pow (h.trans_le (Nat.pow_le_pow_right (by omega) hj))⟩

/-- The count of a word is within its row's capacity when the command is well-formed (R103). -/
theorem wellFormed_operands_iff {p : Params} {op : Opcode} {w : Word} :
    (op.operands w).wellFormed p = true ↔
      ∀ cap, (opcodeCounts op).cap? p = some cap → w.toNat / 256 % 65536 ≤ cap := by
  have hcount : (w.extractLsb' 8 16).toNat = w.toNat / 256 % 65536 := by
    rw [BitVec.extractLsb'_toNat, Nat.shiftRight_eq_div_pow]
  cases op <;>
    simp [opcodeCounts, Counts.cap?, Opcode.operands, Instr.wellFormed, Params.inCountOk,
      Params.idlCountOk, ← hcount]

/-- THE LEGAL WORDS are those that decode to a well-formed command (R103). -/
theorem not_illegalWord_iff {p : Params} {w : Word} :
    ¬ IllegalWord p w ↔ ∃ i, decode w = .ok i ∧ i.wellFormed p = true := by
  have hlegal (op : Opcode) : LegalFor p w (opcodeRow op) ↔
      w.toNat % 256 = op.byte.toNat ∧ w.toNat < 2 ^ op.format.usedBits ∧
        (op.operands w).wellFormed p = true := by
    rw [wellFormed_operands_iff, ← highBits_clear_iff]
    rfl
  have hrow : ¬ IllegalWord p w ↔ ∃ op, LegalFor p w (opcodeRow op) := by
    simp only [IllegalWord, mem_commandRows]
    push Not
    simp
  simp only [hrow, hlegal, decode_eq_ok_iff]
  constructor
  · rintro ⟨op, hop, hused, hwf⟩
    exact ⟨_, ⟨op, hop, hused, rfl⟩, hwf⟩
  · rintro ⟨_, ⟨op, hop, hused, rfl⟩, hwf⟩
    exact ⟨op, hop, hused, hwf⟩

/-! ### How words run -/

theorem runWord_of_ok {w : Word} {i : Instr} (h : decode w = .ok i) (s : State) :
    runWord w s = exec i s := by
  simp only [runWord, step, fetch_withFetchWord, h]

theorem runWord_of_error {w : Word} {e : Illegal} (h : decode w = .error e) (s : State) :
    runWord w s = failed 17 s := by
  simp only [runWord, step, fetch_withFetchWord, h]
  rfl

/-- A command that is not well-formed fails before it does anything (R104). -/
theorem exec_of_not_wellFormed {i : Instr} {s : State} (h : i.wellFormed s.params ≠ true) :
    exec i s = raise .illegalCommand s := by
  cases i with simp only [exec]
  | crcCalc | parse | parseStream =>
    exact withInCount_gt _ (by simpa [Instr.wellFormed, Params.inCountOk] using h)
  | catInit | catInclude | catExclude =>
    exact withIdCount_gt _ (by simpa [Instr.wellFormed, Params.idlCountOk] using h)
  | _ => exact absurd rfl h

/-! ### A well-formed command never reports IllegalCommand -/

/-- A next state of the outcome does not hold IllegalCommand in STATUS. -/
def NotIllegal (o : Out) : Prop := ∀ t, o = .next t → t.status.err ≠ 17

theorem notIllegal_raise (s : State) {e : Err} (he : e ≠ .illegalCommand := by decide) :
    NotIllegal (raise e s) := by
  rintro _ ⟨⟩ hcode
  cases e with
  | illegalCommand => exact he rfl
  | _ => cases hcode

theorem notIllegal_succeed (s : State) : NotIllegal (succeed s) := by
  rintro _ ⟨⟩ ⟨⟩

section Guards

variable {s : State}

theorem notIllegal_ite {c : Prop} [Decidable c] {o o' : Out} (h : NotIllegal o)
    (h' : NotIllegal o') : NotIllegal (if c then o else o') := by
  split
  · exact h
  · exact h'

theorem notIllegal_whenInit {run : Out} (hrun : NotIllegal run) : NotIllegal (whenInit s run) :=
  notIllegal_ite hrun (notIllegal_raise s)

/-- The count that R103 (c) admits is the one the guard admits. -/
theorem notIllegal_withInCount {n : Count} {run : List Byte → Out}
    (hn : s.params.inCountOk n = true) (hrun : ∀ bytes, NotIllegal (run bytes)) :
    NotIllegal (withInCount n s run) := by
  rw [withInCount, if_pos hn]
  exact hrun _

theorem notIllegal_withIdCount {m : Count} {run : List MsgId → Out}
    (hm : s.params.idlCountOk m = true) (hrun : ∀ ids, NotIllegal (run ids)) :
    NotIllegal (withIdCount m s run) := by
  rw [withIdCount, if_pos hm]
  exact hrun _

end Guards

/-- A command leaves no other code in STATUS than 0 and those R301 gives it. -/
theorem Effect.err_mem {s t : State} {i : Instr} (h : Effect s i t) :
    t.status.err ∈ 0 :: codesOf i := by
  cases h with
  | fails _ hcode | parseExhausted _ _ hcode | streamExhausted _ _ _ hcode =>
    exact List.mem_cons_of_mem _ hcode
  | streamNeedMore | streamUninit => simp [codesOf, setStatus, statusOf, Err.code]
  | _ => exact List.mem_cons_self

/-- R301 gives IllegalCommand to the counted commands alone. -/
theorem notIllegal_of_uncounted {i : Instr} (s : State) (h17 : 17 ∉ 0 :: codesOf i) :
    NotIllegal (exec i s) := by
  intro t h herr
  exact h17 (herr ▸ (exec_effect h).err_mem)

/-- No scan ends with IllegalCommand (R231). -/
theorem scan_exhausted_ne_illegalCommand {cat : Cells Entry} {m : Mode} {i : Nat} {b : List Byte}
    {r : Err} (h : scan cat m i b none = .exhausted r) : r ≠ .illegalCommand := by
  rintro rfl
  rcases scan_exhausted h with hr | hr
  · cases hr
  · simp [CandidateReason] at hr

/-- A schema table is never refused with IllegalCommand (R168). -/
theorem compile_error_ne_illegalCommand {maxMessages : Nat} {sch : List SchemaEntry}
    {ids : List MsgId} {e : Err} (h : compile maxMessages sch ids = .error e) :
    e ≠ .illegalCommand := by
  rintro rfl
  simpa using compile_error h

/-- THE LEGALITY TEST IS THE ONLY SOURCE OF IllegalCommand (R103, R104). -/
theorem exec_notIllegal {i : Instr} {s : State} (h : i.wellFormed s.params = true) :
    NotIllegal (exec i s) := by
  cases i with
  | crcCalc n => exact notIllegal_withInCount h fun _ => notIllegal_succeed _
  | catInit m =>
    rw [exec, execCatInit]
    refine notIllegal_withIdCount h fun ids => ?_
    split
    next hc => exact notIllegal_raise s (compile_error_ne_illegalCommand hc)
    · exact notIllegal_succeed _
  | catInclude m | catExclude m =>
    exact notIllegal_withIdCount h fun _ =>
      notIllegal_whenInit (notIllegal_ite (notIllegal_raise s) (notIllegal_succeed _))
  | parse n =>
    refine notIllegal_withInCount h fun bytes => notIllegal_whenInit ?_
    split
    · exact notIllegal_succeed _
    · exact notIllegal_raise _
    next hscan => exact notIllegal_raise _ (scan_exhausted_ne_illegalCommand hscan)
  | parseStream n =>
    refine notIllegal_withInCount h fun bytes => notIllegal_ite ?_ (notIllegal_raise _)
    split
    · exact notIllegal_succeed _
    · exact notIllegal_raise _
    next hscan => exact notIllegal_raise _ (scan_exhausted_ne_illegalCommand hscan)
  | _ => exact notIllegal_of_uncounted s (by simp [codesOf])

/-- Settles O4: a word is legal when it decodes to a well-formed command. An illegal one is no
command, or its command's count is refused. -/
theorem illegalWordOnlySetsStatus : Obligations.IllegalWordOnlySetsStatus := by
  intro s w
  refine ⟨fun hillegal => ?_, fun hlegal => ?_⟩
  · cases hdecode : decode w with
    | error e => exact runWord_of_error hdecode s
    | ok i =>
      rw [runWord_of_ok hdecode]
      exact exec_of_not_wellFormed fun hwf =>
        not_illegalWord_iff.mpr ⟨i, hdecode, hwf⟩ hillegal
  · obtain ⟨i, hdecode, hwf⟩ := not_illegalWord_iff.mp hlegal
    exact ⟨i, hdecode, hwf, runWord_of_ok hdecode s, exec_notIllegal hwf⟩

end Sys2Proof.Machine
end

section
/-! PROOFS. Candidates: the conditions under which the candidate procedure decodes one, the frame it
then gives, and the order in which its steps fail (R221 to R229). -/

namespace Sys2Proof.Machine

/-! ### The order of the steps

The candidate's bytes are all there; each lemma assumes that the steps before its own pass. -/

section Steps

variable {cat : Cells Entry} {m : Mode} {v : Version} {b : List Byte} {e : Entry}
  (hwhole : candidateBytes v b ≤ b.length)

include hwhole

/-- Step 3: the id is not mapped (R224). -/
theorem tryCandidate_unknown (hnone : Cells.read? cat (candidateId v b) = none) :
    tryCandidate cat m v b = .fail .messageNotFound := by
  rw [tryCandidate_whole cat m v b hwhole, tryBody_eq cat m v b hwhole, hnone]

variable (he : Cells.read? cat (candidateId v b) = some e)

include he

/-- Step 3: the filter bit of the entry is 0 (R224). -/
theorem tryCandidate_excluded (hexcl : e.included = false) :
    tryCandidate cat m v b = .fail .messageExcluded := by
  rw [tryCandidate_whole cat m v b hwhole, tryBody_eq cat m v b hwhole, he]
  exact if_pos hexcl

/-- Step 4: LEN is above the version's limit (R225). -/
theorem tryCandidate_overlong (hincl : e.included = true)
    (hlong : (e.limit v).toNat < (b.getD 1 0).toNat) :
    tryCandidate cat m v b = .fail .payloadLengthInvalid := by
  rw [tryCandidate_whole cat m v b hwhole, tryBody_eq cat m v b hwhole, he]
  dsimp only
  rw [if_neg (by simp [hincl]), if_pos hlong]

variable (hincl : e.included = true) (hlen : (b.getD 1 0).toNat ≤ (e.limit v).toNat)

include hincl hlen

/-- Step 7: the checksum is not the one on the wire (R228). -/
theorem tryCandidate_badChecksum (hck : computedChecksum e.crcExtra v b ≠ wireChecksum v b) :
    tryCandidate cat m v b = .fail .badChecksum := by
  rw [tryCandidate_whole cat m v b hwhole, tryBody_eq cat m v b hwhole, he]
  dsimp only
  rw [if_neg (by simp [hincl]), if_neg (by omega), if_pos hck]

/-- Step 8: what is left to do is the signature of a signed frame (R229). -/
theorem tryCandidate_checked (hck : computedChecksum e.crcExtra v b = wireChecksum v b) :
    tryCandidate cat m v b =
      if candidateSigned v b = true then
        if b.length < candidateBytes v b + 13 then m.lacking .signatureLengthInvalid
        else .ok (signedFrame v b) (candidateBytes v b + 13)
      else .ok (bodyFrame v b) (candidateBytes v b) := by
  rw [tryCandidate_whole cat m v b hwhole, tryBody_eq cat m v b hwhole, he]
  dsimp only
  rw [if_neg (by simp [hincl]), if_neg (by omega), if_neg (not_not.mpr hck)]
  rfl

/-- Step 8: a signed frame without all of its signature (R229). -/
theorem tryCandidate_signatureMissing
    (hck : computedChecksum e.crcExtra v b = wireChecksum v b)
    (hsigned : candidateSigned v b = true) (hlack : b.length < candidateBytes v b + 13) :
    tryCandidate cat m v b = m.lacking .signatureLengthInvalid := by
  rw [tryCandidate_checked hwhole he hincl hlen hck, if_pos hsigned, if_pos hlack]

end Steps

/-- Settles O30: a candidate without its header is without its last byte too, and the steps after
that fail in their order. -/
theorem candidateFailsInStepOrder : Obligations.CandidateFailsInStepOrder := by
  intro cat v b
  have hshort : b.length < headerBytesOf v + 2 ∨ b.length < candidateBytes v b →
      b.length < candidateBytes v b := by
    unfold candidateBytes
    omega
  cases v with
  | v1 | v2 =>
    exact ⟨fun h => ⟨tryCandidate_short cat .discrete _ b (hshort h),
        tryCandidate_short cat .stream _ b (hshort h)⟩,
      fun hwhole m => ⟨tryCandidate_unknown hwhole, fun e he =>
        ⟨tryCandidate_excluded hwhole he, tryCandidate_overlong hwhole he, fun hincl hlen =>
          ⟨tryCandidate_badChecksum hwhole he hincl hlen,
            tryCandidate_signatureMissing hwhole he hincl hlen⟩⟩⟩⟩

/-! ### What a candidate that decodes gives -/

/-- The candidate procedure decodes exactly the candidates that `DecodesTo` describes (R221). -/
theorem tryCandidate_ok_iff {cat : Cells Entry} {m : Mode} {v : Version} {b : List Byte} {f : Frame}
    {size : Nat} : tryCandidate cat m v b = .ok f size ↔ DecodesTo cat v b f size := by
  refine ⟨tryCandidate_ok, ?_⟩
  rintro ⟨hsize, e, he, hincl, hlen, hck, hf⟩
  rw [tryCandidate_checked (by omega) he hincl hlen hck]
  rcases hf with ⟨hsigned, rfl, rfl⟩ | ⟨hsigned, rfl, rfl⟩
  · rw [if_neg (by simp [hsigned])]
  · rw [if_pos hsigned, if_neg (by omega)]

/-- The frame of a candidate, signed or not (R229). -/
def candidateFrame (v : Version) (b : List Byte) : Frame :=
  if candidateSigned v b then signedFrame v b else bodyFrame v b

/-- The frame registers that a version's header gives, at its places (R111, R112, R224). -/
def HeaderOnWire (v : Version) (b : List Byte) (f : Frame) : Prop :=
  match v with
  | .v1 =>
    f.seq = b.getD 2 0 ∧ f.sysId = b.getD 3 0 ∧ f.compId = b.getD 4 0 ∧ f.incompat = 0 ∧ f.compat = 0
  | .v2 =>
    f.incompat = b.getD 2 0 ∧ f.compat = b.getD 3 0 ∧ f.seq = b.getD 4 0 ∧ f.sysId = b.getD 5 0 ∧
      f.compId = b.getD 6 0

/-- Every frame register is the one the wire gives (R221, R224 to R229). -/
def FrameOnWire (v : Version) (b : List Byte) (f : Frame) : Prop :=
  f.valid = true ∧ f.ver = v ∧ f.len = b.getD 1 0 ∧ f.msgId.toNat = candidateId v b ∧
    f.cksum.toNat = wireChecksum v b ∧ f.hasSig = candidateSigned v b ∧ HeaderOnWire v b f ∧
    (∀ i : Nat, byteAt f.sig i =
      if candidateSigned v b ∧ i < 13 then b.getD (candidateBytes v b + i) 0 else 0) ∧
    ∀ i : Nat, byteAt f.payload i =
      if i < (b.getD 1 0).toNat then b.getD (headerBytesOf v + i) 0 else 0

/-- The wire determines the frame: a register is determined by its number, a window by its bytes. -/
theorem FrameOnWire.unique {v : Version} {b : List Byte} {f g : Frame} (hf : FrameOnWire v b f)
    (hg : FrameOnWire v b g) : f = g := by
  obtain ⟨fvalid, fver, flen, fid, fck, fhas, fheader, fsig, fpayload⟩ := hf
  obtain ⟨gvalid, gver, glen, gid, gck, ghas, gheader, gsig, gpayload⟩ := hg
  have hid : f.msgId = g.msgId := BitVec.eq_of_toNat_eq (fid.trans gid.symm)
  have hck : f.cksum = g.cksum := BitVec.eq_of_toNat_eq (fck.trans gck.symm)
  have hsig : f.sig = g.sig := window_ext fun i _ => (fsig i).trans (gsig i).symm
  have hpayload : f.payload = g.payload := window_ext fun i _ => (fpayload i).trans (gpayload i).symm
  cases f
  cases g
  cases v with
  | v1 | v2 =>
    simp only [HeaderOnWire] at fheader gheader
    simp_all

theorem headerFrame_onWire (v : Version) (b : List Byte) : HeaderOnWire v b (headerFrame v b) := by
  cases v <;> exact ⟨rfl, rfl, rfl, rfl, rfl⟩

/-- The payload of a candidate, byte by byte (R226, R234). -/
theorem byteAt_bodyFrame_payload_eq (v : Version) (b : List Byte) (i : Nat) :
    byteAt (bodyFrame v b).payload i =
      if i < (b.getD 1 0).toNat then b.getD (headerBytesOf v + i) 0 else 0 := by
  have hlen := (b.getD 1 0).isLt
  split
  next hi =>
    rw [bodyFrame, byteAt_ofList, if_pos (by omega), portion_getD _ _ _ _ hi, headerLength_eq]
  next hi => exact byteAt_bodyFrame_payload v b (by omega)

/-- The signature of a candidate, byte by byte (R229). -/
theorem byteAt_candidateFrame_sig (v : Version) (b : List Byte) (i : Nat) :
    byteAt (candidateFrame v b).sig i =
      if candidateSigned v b ∧ i < 13 then b.getD (candidateBytes v b + i) 0 else 0 := by
  unfold candidateFrame
  by_cases hsigned : candidateSigned v b = true
  · simp only [hsigned, if_true, true_and, signedFrame, byteAt_ofList]
    exact ite_congr rfl (fun hi => portion_getD _ _ _ _ hi) (fun _ => rfl)
  · simp [hsigned, bodyFrame]

theorem candidateFrame_onWire (v : Version) (b : List Byte) :
    FrameOnWire v b (candidateFrame v b) := by
  have hsame : candidateFrame v b =
      { bodyFrame v b with
        hasSig := candidateSigned v b
        sig := (candidateFrame v b).sig } := by
    unfold candidateFrame
    cases candidateSigned v b with
    | true => rfl
    | false => cases v <;> rfl
  have hsig := byteAt_candidateFrame_sig v b
  rw [hsame]
  refine ⟨headerFrame_valid v b, headerFrame_ver v b, headerFrame_len v b, headerFrame_msgId v b,
    ?_, rfl, ?_, hsig, byteAt_bodyFrame_payload_eq v b⟩
  · exact Nat.mod_eq_of_lt (wireChecksum_lt v b)
  · exact headerFrame_onWire v b

/-- WHAT A CANDIDATE THAT DECODES IS: its bytes are all there, its id is mapped and included, its
length, checksum and signature pass, and its frame is the one on the wire (R221). -/
theorem decodesTo_iff {cat : Cells Entry} {v : Version} {b : List Byte} {f : Frame} {size : Nat} :
    DecodesTo cat v b f size ↔
      ∃ e : Entry, candidateBytes v b ≤ b.length ∧ Cells.read? cat (candidateId v b) = some e ∧
        e.included = true ∧ (b.getD 1 0).toNat ≤ (e.limit v).toNat ∧
        computedChecksum e.crcExtra v b = wireChecksum v b ∧
        (candidateSigned v b = true → candidateBytes v b + 13 ≤ b.length) ∧
        size = candidateBytes v b + (if candidateSigned v b then 13 else 0) ∧ FrameOnWire v b f := by
  have hwire := candidateFrame_onWire v b
  unfold candidateFrame at hwire
  constructor
  · rintro ⟨hsize, e, he, hincl, hlen, hck, ⟨hsigned, rfl, rfl⟩ | ⟨hsigned, rfl, rfl⟩⟩
    · exact ⟨e, hsize, he, hincl, hlen, hck, by simp [hsigned], by simp [hsigned],
        by simpa [hsigned] using hwire⟩
    · exact ⟨e, by omega, he, hincl, hlen, hck, fun _ => hsize, by simp [hsigned],
        by simpa [hsigned] using hwire⟩
  · rintro ⟨e, hwhole, he, hincl, hlen, hck, hthere, rfl, hf⟩
    obtain rfl := hf.unique hwire
    cases hsigned : candidateSigned v b with
    | false => exact ⟨hwhole, e, he, hincl, hlen, hck, .inl ⟨hsigned, rfl, rfl⟩⟩
    | true => exact ⟨hthere hsigned, e, he, hincl, hlen, hck, .inr ⟨hsigned, rfl, rfl⟩⟩

/-- Settles O29; a version's limit is `base` or `max` (R225). -/
theorem candidateDecodesExactly : Obligations.CandidateDecodesExactly := by
  intro cat m v b f size
  cases v with
  | v1 | v2 => exact tryCandidate_ok_iff.trans decodesTo_iff

end Sys2Proof.Machine
end

section
/-! PROOFS. The CRC family (`40_crc.md`): how the words of a row of R102 run, the update of R140 on
numbers and by the table of R142, and the four commands. Each command that succeeds ends in the one
way `withCrc` says, and a run of CRC_ACC is a fold of the update. -/

namespace Sys2Proof.Machine

/-! ### The words of a row -/

/-- A word with a row's opcode decodes to the row's command unless a reserved bit is 1 (R100). -/
theorem decode_of_opcode {w : Word} {op : Opcode} (h : w.toNat % 256 = op.byte.toNat) :
    decode w =
      if op.format.reservedClear w then .ok (op.operands w) else .error .reservedBit := by
  rw [decode, Opcode.ofByte?_eq_some_iff.mpr (opcodeByte_eq_iff.mpr h)]

/-- HOW THE WORDS OF A ROW RUN, for every row of R102 (R100, R101, R103 (b)). -/
theorem wordRuns_operands (op : Opcode) (s : State) :
    WordRuns op.byte.toNat op.format.usedBits op.operands s := by
  intro w hop
  constructor
  · intro hclear
    apply runWord_of_ok
    rw [decode_of_opcode hop, if_pos (Format.reservedClear_iff.mpr hclear)]
  · intro hset
    apply runWord_of_error (e := .reservedBit)
    rw [decode_of_opcode hop, if_neg (Format.reservedClear_iff.not.mpr hset.not_gt)]

/-! ### The update -/

/-- The low byte of the old CRC enters the update with the byte, the high byte is only shifted down:
the step from R140 to the table form of R142. -/
theorem acc_eq_shift_xor (b : Byte) (crc : Crc16) :
    acc b crc = (crc >>> 8) ^^^ acc (b ^^^ crc.setWidth 8) 0 := by
  simp [acc, BitVec.xor_assoc]

/-- A byte shifted up by at most 8 bits still fits 16 bits, so no term of R140 is truncated. -/
theorem toNat_setWidth_shiftLeft (ch : Byte) {k : Nat} (hk : k ≤ 8) :
    (ch.setWidth 16 <<< k).toNat = ch.toNat <<< k := by
  have hfits : ch.toNat <<< k < 2 ^ 16 :=
    (Nat.shiftLeft_lt ch.isLt).trans_le (Nat.pow_le_pow_right (by omega) (by omega))
  rw [BitVec.toNat_shiftLeft, BitVec.toNat_setWidth_of_le (by omega), Nat.mod_eq_of_lt hfits]

/-- Settles O6: the byte `ch` of `acc` is the masked number of R140, and its shifts fit 16 bits. -/
theorem crcUpdateOnNaturals : Obligations.CrcUpdateOnNaturals := by
  intro b crc
  have hmask (n : Nat) : n &&& 0xFF = n % 2 ^ 8 := Nat.and_two_pow_sub_one_eq_mod n 8
  have hlow : (b ^^^ crc.setWidth 8).toNat = b.toNat ^^^ (crc.toNat &&& 0xFF) := by
    rw [BitVec.toNat_xor, BitVec.toNat_setWidth, hmask]
  have hch (ch0 : Byte) :
      (ch0 ^^^ (ch0 <<< 4)).toNat = (ch0.toNat ^^^ (ch0.toNat <<< 4)) &&& 0xFF := by
    rw [BitVec.toNat_xor, BitVec.toNat_shiftLeft, hmask, Nat.xor_mod_two_pow,
      Nat.mod_eq_of_lt ch0.isLt]
  rw [acc, BitVec.toNat_xor, BitVec.toNat_xor, BitVec.toNat_xor,
    toNat_setWidth_shiftLeft _ (le_refl 8), toNat_setWidth_shiftLeft _ (show 3 ≤ 8 by omega),
    BitVec.toNat_ushiftRight, BitVec.toNat_ushiftRight, BitVec.toNat_setWidth_of_le (by omega),
    hch, hlow]

/-- The printed table is the update from CRC 0, byte by byte (R142). -/
theorem crcTable_eq : crcTable = (List.range 256).map fun x => acc (BitVec.ofNat 8 x) 0 := by
  decide +kernel

/-- Settles O7: the table form looks up what `acc_eq_shift_xor` computes. -/
theorem crcTableFormAgrees : Obligations.CrcTableFormAgrees := by
  have hentry (x : Nat) (hx : x < 256) : crcTable[x]? = some (acc (BitVec.ofNat 8 x) 0) := by
    simp [crcTable_eq, hx]
  refine ⟨by simp [crcTable_eq], hentry, fun b crc => ?_⟩
  have hlookup (x : Byte) : crcTable.getD x.toNat 0 = acc x 0 := by
    rw [List.getD_eq_getElem?_getD, hentry x.toNat x.isLt, Option.getD_some, BitVec.ofNat_toNat,
      BitVec.setWidth_eq]
  rw [accByTable, hlookup, ← acc_eq_shift_xor]

/-! ### The fold -/

/-- The model's fold is the library's (R11). -/
theorem accFold_eq_foldl (z : Crc16) (bytes : List Byte) :
    accFold z bytes = bytes.foldl (fun crc b => acc b crc) z := by
  induction bytes generalizing z with
  | nil => rfl
  | cons b bytes ih => exact ih (acc b z)

/-- A fold may be split at any byte (R149). -/
theorem accFold_append (z : Crc16) (front back : List Byte) :
    accFold z (front ++ back) = accFold (accFold z front) back := by
  simp only [accFold_eq_foldl, List.foldl_append]

/-- Settles O8, by evaluation of the fold on the three strings. -/
theorem crcKnownAnswers : Obligations.CrcKnownAnswers := by
  refine ⟨?_, ?_, rfl⟩ <;> decide

/-! ### The commands -/

/-- How a command of this family ends when it succeeds: CRC and RESULT hold `c`, STATUS says OK, and
nothing else changes (R143 to R146). -/
def withCrc (c : Crc16) (s : State) : State :=
  { s with crc := c, result := BitVec.ofNat 64 c.toNat, status := okStatus }

@[simp] theorem withCrc_crc (c : Crc16) (s : State) : (withCrc c s).crc = c := rfl

/-- A new CRC leaves nothing of the one before. -/
@[simp] theorem withCrc_withCrc (c d : Crc16) (s : State) :
    withCrc c (withCrc d s) = withCrc c s := rfl

theorem finishCrc_eq (c : Crc16) (s : State) : finishCrc c s = .next (withCrc c s) := by
  rw [withCrc, BitVec.ofNat_toNat]
  rfl

theorem exec_crcSeed (s : State) : exec .crcSeed s = .next (withCrc 0xFFFF#16 s) :=
  finishCrc_eq _ s

theorem exec_crcLoad (v : Crc16) (s : State) : exec (.crcLoad v) s = .next (withCrc v s) :=
  finishCrc_eq v s

theorem exec_crcAcc (b : Byte) (s : State) :
    exec (.crcAcc b) s = .next (withCrc (acc b s.crc) s) :=
  finishCrc_eq _ s

theorem exec_crcCalc {n : Count} {s : State} (hn : n.toNat ≤ s.params.inCap) :
    exec (.crcCalc n) s = .next (withCrc (crcOf (s.inPrefix n.toNat)) s) := by
  rw [exec, execCrcCalc, withInCount_le _ hn, finishCrc_eq]

theorem exec_crcCalc_gt {n : Count} {s : State} (hn : s.params.inCap < n.toNat) :
    exec (.crcCalc n) s = failed 17 s := by
  rw [exec, execCrcCalc, withInCount_gt _ hn]
  rfl

/-- Settles O9: how CRC_SEED and its words run. -/
theorem crcSeedSetsSeed : Obligations.CrcSeedSetsSeed := fun s =>
  ⟨exec_crcSeed s, wordRuns_operands .crcSeed s⟩

/-- Settles O10: how CRC_LOAD and its words run. -/
theorem crcLoadSetsValue : Obligations.CrcLoadSetsValue := fun s v =>
  ⟨exec_crcLoad v s, wordRuns_operands .crcLoad s⟩

/-- Settles O11: how CRC_ACC and its words run, and the corner cases by evaluation. -/
theorem crcAccUpdates : Obligations.CrcAccUpdates := by
  refine ⟨fun s b => ⟨exec_crcAcc b s, wordRuns_operands .crcAcc s⟩, ?_⟩
  decide

/-- Settles O12: the count is within IN_CAP, and IN[0..n) is folded, or the guard refuses it. -/
theorem crcCalcFoldsInput : Obligations.CrcCalcFoldsInput := by
  intro s n
  refine ⟨fun hn => ?_, exec_crcCalc_gt, wordRuns_operands .crcCalc s⟩
  rw [exec_crcCalc hn, crcOf, accFold_eq_foldl]
  rfl

/-! ### Commands one after another -/

theorem execAll_cons_of_next {i : Instr} {s t : State} (h : exec i s = .next t) (is : List Instr) :
    execAll (i :: is) s = execAll is t := by
  rw [execAll, h]

/-- CRC_ACC over the bytes of S, once a command of this family has set CRC, folds S into it
(R149). -/
theorem execAll_crcAcc (c : Crc16) (bytes : List Byte) (s : State) :
    execAll (bytes.map .crcAcc) (withCrc c s) = .next (withCrc (accFold c bytes) s) := by
  induction bytes generalizing c with
  | nil => rfl
  | cons b bytes ih =>
    rw [List.map_cons, execAll_cons_of_next (exec_crcAcc b _), withCrc_crc, withCrc_withCrc, ih,
      accFold]

/-- Settles O13: both paths fold IN[0..k) from the seed. -/
theorem crcPathsAgree : Obligations.CrcPathsAgree := by
  refine ⟨fun s k hk => ?_, fun s c bytes => ?_, accFold_append⟩
  · rw [execAll_cons_of_next (exec_crcSeed s), execAll_crcAcc, exec_crcCalc hk, crcOf]
  · rw [execAll_cons_of_next (exec_crcLoad c s), execAll_crcAcc, withCrc]

end Sys2Proof.Machine
end

section
/-! PROOFS. The layout of a message (R162, R163): the wire order of its fields, and the byte ranges
that the running sums of their lengths give them. -/

namespace Sys2Proof.Machine

/-! ### The wire order -/

theorem orderFields_perm (fs : List Field) : (orderFields fs).Perm fs :=
  ((List.perm_insertionSort _ _).append_right _).trans
    (List.perm_append_comm.trans (List.filter_append_perm (fun f : Field => f.extended) fs))

/-- Insertion sort by descending element size sorts (R162). -/
theorem pairwise_size_insertionSort (fs : List Field) :
    (fs.insertionSort (fun a b => b.size ≤ a.size)).Pairwise (fun a b => b.size ≤ a.size) := by
  have : Std.Total (fun a b : Field => b.size ≤ a.size) := ⟨fun a b => le_total b.size a.size⟩
  have : IsTrans Field (fun a b => b.size ≤ a.size) := ⟨fun _ _ _ hab hbc => hbc.trans hab⟩
  exact List.pairwise_insertionSort _ fs

/-- Fields of one element size are a sorted sublist, and insertion sort keeps those in place
(R162). -/
theorem filter_size_insertionSort (fs : List Field) (z : Nat) :
    (fs.insertionSort (fun a b => b.size ≤ a.size)).filter (fun f => f.size == z) =
      fs.filter (fun f => f.size == z) := by
  have hequal : (fs.filter (fun f => f.size == z)).Pairwise (fun a b => b.size ≤ a.size) :=
    List.pairwise_of_forall_mem_list fun a ha b hb => by
      have hasize := (List.mem_filter.mp ha).2
      have hbsize := (List.mem_filter.mp hb).2
      simp only [beq_iff_eq] at hasize hbsize
      omega
  have hsub := (List.sublist_insertionSort hequal List.filter_sublist).filter (fun f => f.size == z)
  simp only [List.filter_filter, Bool.and_self] at hsub
  exact (hsub.eq_of_length ((List.perm_insertionSort _ fs).filter _).length_eq.symm).symm

/-- Settles O15: the base fields are insertion-sorted, which permutes them and is stable. -/
theorem orderedFieldsAreStablySorted : Obligations.OrderedFieldsAreStablySorted := fun declared =>
  ⟨_, rfl, List.perm_insertionSort _ _, pairwise_size_insertionSort _, fun z => by
    rw [filter_size_insertionSort, List.filter_filter]
    simp only [Bool.and_comm]⟩

/-! ### Offsets -/

theorem totalLength_take_mono (fs : List Field) {j k : Nat} (hjk : j ≤ k) :
    totalLength (fs.take j) ≤ totalLength (fs.take k) :=
  List.Sublist.sum_le_sum ((List.take_sublist_take_left hjk).map _) fun _ _ => Nat.zero_le _

namespace Entry.LaidOut

variable {e : Entry} (h : e.LaidOut)

include h

theorem offset_eq {k : Nat} (hk : k < e.fields.length) :
    e.fields[k].offset = totalLength (e.fields.take k) :=
  h.offsets k _ (List.getElem?_eq_getElem hk)

/-- A field ends where the fields up to and with it end (R163). -/
theorem field_end_eq {k : Nat} (hk : k < e.fields.length) :
    e.fields[k].offset + e.fields[k].length = totalLength (e.fields.take (k + 1)) := by
  rw [h.offset_eq hk, List.take_succ_eq_append_getElem hk, totalLength_append]
  rfl

/-- A field ends before every field after it begins (R163, R174). -/
theorem fields_disjoint : e.fields.Pairwise (fun f g => f.offset + f.length ≤ g.offset) := by
  rw [List.pairwise_iff_getElem]
  intro j k hj hk hjk
  rw [h.field_end_eq hj, h.offset_eq hk]
  exact totalLength_take_mono _ hjk

/-- The base fields are the first `n` of the ordered fields, and `base` is where they end (R162,
R163). -/
theorem exists_base_count :
    ∃ n, e.base.toNat = totalLength (e.fields.take n) ∧
      ∀ k (hk : k < e.fields.length), e.fields[k].extended = true ↔ n ≤ k := by
  obtain ⟨bs, xs, hsplit, hbs, hxs, -, -⟩ := h.split
  refine ⟨bs.length, ?_, fun k hk => ?_⟩
  · rw [h.base, hsplit, baseLength_append bs xs hbs hxs, List.take_left]
  · simp only [hsplit, List.getElem_append]
    split
    next hlt => simp [hbs _ (List.getElem_mem hlt), hlt]
    next hge => simp [hxs _ (List.getElem_mem _), Nat.le_of_not_lt hge]

/-- Base fields lie within [0, base) and extended fields within [base, max) (R163). -/
theorem field_within {f : Field} (hf : f ∈ e.fields) :
    f.offset + f.length ≤ e.max.toNat ∧
      (f.extended = false → f.offset + f.length ≤ e.base.toNat) ∧
      (f.extended = true → e.base.toNat ≤ f.offset) := by
  obtain ⟨n, hbase, hextended⟩ := h.exists_base_count
  obtain ⟨k, hk, rfl⟩ := List.getElem_of_mem hf
  refine ⟨h.field_end_le_max (List.getElem?_eq_getElem hk), fun hb => ?_, fun hx => ?_⟩
  · have hkn : k < n := by
      rw [← Nat.not_le, ← hextended k hk, hb]
      exact Bool.false_ne_true
    rw [h.field_end_eq hk, hbase]
    exact totalLength_take_mono _ hkn
  · rw [h.offset_eq hk, hbase]
    exact totalLength_take_mono _ ((hextended k hk).mp hx)

end Entry.LaidOut

/-- Settles O16: the entry is laid out, and the positions of its fields follow from that. -/
theorem layoutLaws : Obligations.LayoutLaws := by
  intro crcExtra ds fs hfs hsum
  obtain ⟨hlength, htotal, -, -⟩ := resolveFields_spec ds 0 fs hfs
  have hlaid := layOut_laidOut crcExtra hfs (htotal ▸ hsum)
  have hcount : (layOut crcExtra fs).fields.length = ds.length :=
    calc (assignOffsets 0 (orderFields fs)).length
        = (orderFields fs).length := (assignOffsets_spec _ 0).1
      _ = fs.length := (orderFields_perm fs).length_eq
      _ = ds.length := hlength
  exact ⟨hlaid, hcount, hlaid.max.symm, fun f hf => hlaid.field_within hf, hlaid.fields_disjoint⟩

end Sys2Proof.Machine
end

section
/-! PROOFS. CAT_INIT, CAT_INCLUDE and CAT_EXCLUDE (R168 to R170): what a filter list says of an id,
the tests that the two filter commands share, and the compilation of the schema table in terms of
its entries. -/

namespace Sys2Proof.Machine

/-! ### The filter list -/

theorem includes_iff {ids : List MsgId} {k : Nat} :
    includes ids k = true ↔ ids = [] ∨ (∃ x ∈ ids, x.toNat = k) ∨ k = 0 := by
  simp [includes, or_assoc]

theorem idPrefix_eq_nil_iff {s : State} {m : Count} : s.idPrefix m.toNat = [] ↔ m = 0 := by
  simp [State.idPrefix, BitVec.toNat_eq]

/-- The filter bit by the list of a command with count `m`: `(m = 0) or (x ∈ L) or (x = 0)` (R168,
R169). -/
theorem includes_idPrefix_iff {s : State} {m : Count} {k : Nat} :
    includes (s.idPrefix m.toNat) k = true ↔
      m = 0 ∨ (∃ x ∈ s.idPrefix m.toNat, x.toNat = k) ∨ k = 0 := by
  rw [includes_iff, idPrefix_eq_nil_iff]

/-- The filter bit of a table's entry (R168). -/
theorem includes_id_iff {s : State} {m : Count} {id : MsgId} :
    includes (s.idPrefix m.toNat) id.toNat = true ↔ m = 0 ∨ id ∈ s.idPrefix m.toNat ∨ id = 0 := by
  have hzero : id.toNat = 0 ↔ id = 0 := BitVec.toNat_inj (y := 0)
  simp only [includes_idPrefix_iff, BitVec.toNat_inj, exists_eq_right, hzero]

/-- Some id of the list is not mapped (R169, R170). -/
theorem someUnknown_iff {s : State} {ids : List MsgId} :
    someUnknown s ids = true ↔ ∃ x ∈ ids, s.catEntry x = none := by
  simp [someUnknown]

/-- CAT_EXCLUDE drops id 0 from its list (R170). -/
theorem mem_withoutZero {ids : List MsgId} {x : MsgId} :
    x ∈ ids.filter (fun x => x != 0#24) ↔ x ∈ ids ∧ x ≠ 0 := by
  simp [List.mem_filter]

/-! ### Guards -/

theorem withIdCount_ok {m : Count} {s t : State} {run : List MsgId → Out}
    (h : withIdCount m s run = .next t) (hok : t.status = okStatus) :
    run (s.idPrefix m.toNat) = .next t := by
  rcases withIdCount_cases m s run with ⟨-, heq⟩ | ⟨-, heq⟩ <;> rw [heq] at h
  · exact h
  · cases raise_ok h hok

theorem whenInit_of_init {s : State} (h : s.init = true) (run : Out) : whenInit s run = run := by
  rw [whenInit, if_pos h]

theorem whenInit_of_uninit {s : State} (h : s.init = false) (run : Out) :
    whenInit s run = failed 1 s := by
  rw [whenInit, if_neg (by simp [h])]
  rfl

/-! ### The filter commands -/

/-- What CAT_INCLUDE and CAT_EXCLUDE share: the tests before they change a filter bit (R103, R169,
R170, R303). The command acts on the ids of its list that `keep` leaves. -/
def withKnownIds (m : Count) (s : State) (keep : List MsgId → List MsgId)
    (run : List MsgId → Out) : Out :=
  withIdCount m s fun all =>
    whenInit s (if someUnknown s (keep all) then raise .unknownMessageId s else run (keep all))

section FilterGuards

variable {m : Count} {s t : State} {keep : List MsgId → List MsgId} {run : List MsgId → Out}

theorem withKnownIds_gt (hm : s.params.idlCap < m.toNat) :
    withKnownIds m s keep run = failed 17 s :=
  withIdCount_gt _ hm

theorem withKnownIds_uninit (hm : m.toNat ≤ s.params.idlCap) (hinit : s.init = false) :
    withKnownIds m s keep run = failed 1 s := by
  rw [withKnownIds, withIdCount_le _ hm, whenInit_of_uninit hinit]

theorem withKnownIds_unknown (hm : m.toNat ≤ s.params.idlCap) (hinit : s.init = true)
    (hunknown : ∃ x ∈ keep (s.idPrefix m.toNat), s.catEntry x = none) :
    withKnownIds m s keep run = failed 15 s := by
  rw [withKnownIds, withIdCount_le _ hm, whenInit_of_init hinit,
    if_pos (someUnknown_iff.mpr hunknown)]
  rfl

theorem withKnownIds_known (hm : m.toNat ≤ s.params.idlCap) (hinit : s.init = true)
    (hknown : ∀ x ∈ keep (s.idPrefix m.toNat), (s.catEntry x).isSome = true) :
    withKnownIds m s keep run = run (keep (s.idPrefix m.toNat)) := by
  have hall : ¬ someUnknown s (keep (s.idPrefix m.toNat)) = true := fun hsome => by
    obtain ⟨x, hx, hnone⟩ := someUnknown_iff.mp hsome
    simpa [hnone] using hknown x hx
  rw [withKnownIds, withIdCount_le _ hm, whenInit_of_init hinit, if_neg hall]

/-- A filter command that succeeds knows every id it acts on (R169, R170). -/
theorem withKnownIds_ok (h : withKnownIds m s keep run = .next t) (hok : t.status = okStatus) :
    (∀ x ∈ keep (s.idPrefix m.toNat), (s.catEntry x).isSome = true) ∧
      run (keep (s.idPrefix m.toNat)) = .next t := by
  have hrun := whenInit_ok (withIdCount_ok h hok) hok
  split at hrun
  · cases raise_ok hrun hok
  next hall =>
    refine ⟨fun x hx => Option.isSome_iff_ne_none.mpr fun hnone => ?_, hrun⟩
    exact hall (someUnknown_iff.mpr ⟨x, hx, hnone⟩)

end FilterGuards

theorem keys_mapData {α : Type} (f : Nat → α → α) (m : Cells α) :
    (Cells.mapData f m).map (fun c => c.1) = m.map (fun c => c.1) := by
  simp [Cells.mapData]

/-- The catalog after CAT_INCLUDE (R169). -/
def includedCatalog (ids : List MsgId) (cat : Cells Entry) : Cells Entry :=
  Cells.mapData (fun k e => { e with included := includes ids k }) cat

/-- The catalog after CAT_EXCLUDE of a list without id 0 (R170). -/
def excludedCatalog (ids : List MsgId) (cat : Cells Entry) : Cells Entry :=
  Cells.mapData
    (fun k e => if ids.any (fun x => x.toNat == k) then { e with included := false } else e) cat

theorem exec_catInclude (m : Count) (s : State) :
    exec (.catInclude m) s = withKnownIds m s id fun ids =>
      .next { s with cat := includedCatalog ids s.cat, status := okStatus } := rfl

theorem exec_catExclude (m : Count) (s : State) :
    exec (.catExclude m) s = withKnownIds m s (List.filter fun x => x != 0#24) fun ids =>
      .next { s with cat := excludedCatalog ids s.cat, status := okStatus } := rfl

/-- The filter bits after CAT_INCLUDE, key by key (R169). -/
theorem read?_includedCatalog (s : State) (m : Count) (k : Nat) :
    Cells.read? (includedCatalog (s.idPrefix m.toNat) s.cat) k =
      (Cells.read? s.cat k).map fun e =>
        { e with
          included := decide (m = 0 ∨ (∃ x ∈ s.idPrefix m.toNat, x.toNat = k) ∨ k = 0) } := by
  rw [includedCatalog, read?_mapData]
  congr! 3
  rw [Bool.eq_iff_iff, includes_idPrefix_iff, decide_eq_true_eq]

/-- Key `k` is listed, and the list's id 0 does not count (R170). -/
theorem any_withoutZero_iff {ids : List MsgId} {k : Nat} :
    (ids.filter (fun x => x != 0#24)).any (fun x => x.toNat == k) = true ↔
      k ≠ 0 ∧ ∃ x ∈ ids, x.toNat = k := by
  simp only [List.any_eq_true, mem_withoutZero, beq_iff_eq]
  constructor
  · rintro ⟨x, ⟨hx, hne⟩, rfl⟩
    exact ⟨fun hzero => hne (BitVec.eq_of_toNat_eq hzero), x, hx, rfl⟩
  · rintro ⟨hk, x, hx, rfl⟩
    exact ⟨x, ⟨hx, fun hzero => hk (by rw [hzero]; rfl)⟩, rfl⟩

/-- The filter bits after CAT_EXCLUDE, key by key (R170). -/
theorem read?_excludedCatalog (ids : List MsgId) (cat : Cells Entry) (k : Nat) :
    Cells.read? (excludedCatalog (ids.filter fun x => x != 0#24) cat) k =
      (Cells.read? cat k).map fun e =>
        { e with included := e.included && !decide (k ≠ 0 ∧ ∃ x ∈ ids, x.toNat = k) } := by
  rw [excludedCatalog, read?_mapData]
  congr! 2 with e
  rw [excluded_eq, Bool.and_comm]
  congr! 3
  rw [Bool.eq_iff_iff, any_withoutZero_iff, decide_eq_true_eq]

/-- Settles O18: the shared tests, then the filter bits. -/
theorem catIncludeSetsFilter : Obligations.CatIncludeSetsFilter := by
  intro s m
  dsimp only
  rw [exec_catInclude]
  exact ⟨fun hm hinit hknown => ⟨_, withKnownIds_known hm hinit hknown, keys_mapData _ _,
      read?_includedCatalog s m⟩,
    withKnownIds_gt, withKnownIds_uninit, withKnownIds_unknown (keep := id),
    wordRuns_operands .catInclude s⟩

/-- Settles O19: the shared tests on the list without id 0, then the filter bits. -/
theorem catExcludeClearsFilter : Obligations.CatExcludeClearsFilter := by
  intro s m
  dsimp only
  rw [exec_catExclude]
  refine ⟨fun hm hinit hknown => ⟨_, withKnownIds_known hm hinit fun x hx => ?_, keys_mapData _ _,
      read?_excludedCatalog _ s.cat⟩,
    withKnownIds_gt, withKnownIds_uninit, fun hm hinit hunknown => ?_,
    wordRuns_operands .catExclude s⟩
  · obtain ⟨hx, hne⟩ := mem_withoutZero.mp hx
    exact hknown x hx hne
  · obtain ⟨x, hx, hne, hnone⟩ := hunknown
    exact withKnownIds_unknown hm hinit ⟨x, mem_withoutZero.mpr ⟨hx, hne⟩, hnone⟩

/-- Settles O20: an id CAT_EXCLUDE acts on is mapped, and its filter bit is 0 afterwards. -/
theorem excludedMessageIsRejected : Obligations.ExcludedMessageIsRejected := by
  intro s t m x mode ver b hexec hok hx hne hwhole hid
  rw [exec_catExclude] at hexec
  obtain ⟨hknown, hrun⟩ := withKnownIds_ok hexec hok
  cases hrun
  obtain ⟨e, he⟩ := Option.isSome_iff_exists.mp (hknown x (mem_withoutZero.mpr ⟨hx, hne⟩))
  have hentry := read?_excludedCatalog (s.idPrefix m.toNat) s.cat (candidateId ver b)
  rw [hid, ← State.catEntry, he, Option.map_some, ← hid] at hentry
  refine tryCandidate_excluded hwhole hentry ?_
  have hlisted : candidateId ver b ≠ 0 ∧ ∃ y ∈ s.idPrefix m.toNat, y.toNat = candidateId ver b :=
    ⟨fun hzero => hne (BitVec.eq_of_toNat_eq (hid.symm.trans hzero)), x, hx, hid.symm⟩
  simp [hlisted]

/-! ### Compiling the schema table -/

/-- The codes that name no kind are those above 10 (R117). -/
theorem ofCode?_eq_none_iff {c : BitVec 4} : Kind.ofCode? c = none ↔ 10 < c.toNat := by
  revert c
  decide

theorem resolveField_eq_none_iff {i : Nat} {d : SchemaField} :
    resolveField i d = none ↔ 10 < d.kind.toNat := by
  rw [← ofCode?_eq_none_iff, resolveField]
  cases Kind.ofCode? d.kind <;> simp

/-- A field list does not resolve exactly when one of its kind codes names no kind (R117, R168). -/
theorem resolveFields_eq_none_iff {i : Nat} {ds : List SchemaField} :
    resolveFields i ds = none ↔ ∃ d ∈ ds, 10 < d.kind.toNat := by
  induction ds generalizing i with
  | nil => simp [resolveFields]
  | cons d ds ih =>
    rw [List.exists_mem_cons_iff, ← resolveField_eq_none_iff (i := i), ← ih (i := i + 1),
      resolveFields]
    cases resolveField i d <;> cases resolveFields (i + 1) ds <;> simp

/-- A table is not laid out exactly when one of its kind codes names no kind: BadType (R168). -/
theorem layOutTable_eq_none_iff {sch : List SchemaEntry} :
    layOutTable sch = none ↔ ∃ r ∈ sch, ∃ d ∈ r.fields, 10 < d.kind.toNat := by
  induction sch with
  | nil => simp [layOutTable]
  | cons r sch ih =>
    rw [List.exists_mem_cons_iff, ← resolveFields_eq_none_iff (i := 0), ← ih, layOutTable]
    cases resolveFields 0 r.fields <;> cases layOutTable sch <;> simp

/-- `row` is the schema table entry `r`, laid out under its id (R168). -/
def RowOf (r : SchemaEntry) (row : MsgId × Entry) : Prop :=
  ∃ declared, resolveFields 0 r.fields = some declared ∧ row = (r.id, layOut r.crcExtra declared)

/-- The table is laid out entry by entry, in its order. -/
theorem layOutTable_forall₂ {sch : List SchemaEntry} {rows : List (MsgId × Entry)}
    (h : layOutTable sch = some rows) : List.Forall₂ RowOf sch rows := by
  induction sch generalizing rows with
  | nil =>
    cases h
    exact .nil
  | cons r sch ih =>
    rw [layOutTable] at h
    split at h
    next declared rows' hdeclared hrows =>
      cases h
      exact .cons ⟨declared, hdeclared, rfl⟩ (ih hrows)
    · cases h

theorem RowOf.id_eq {r : SchemaEntry} {row : MsgId × Entry} (h : RowOf r row) : r.id = row.1 := by
  obtain ⟨declared, -, rfl⟩ := h
  rfl

theorem RowOf.totalLength_eq {r : SchemaEntry} {row : MsgId × Entry} (h : RowOf r row) :
    (r.fields.map SchemaField.bytes).sum = totalLength row.2.fields := by
  obtain ⟨declared, hdeclared, rfl⟩ := h
  rw [layOut_totalLength, (resolveFields_spec _ 0 declared hdeclared).2.1]

/-- What is one function of the entries and another of their rows is one list. -/
theorem map_eq_of_rows {β : Type} {f : SchemaEntry → β} {g : MsgId × Entry → β}
    (hfg : ∀ r row, RowOf r row → f r = g row) {sch : List SchemaEntry}
    {rows : List (MsgId × Entry)} (h : List.Forall₂ RowOf sch rows) : sch.map f = rows.map g := by
  have heq := List.forall₂_map_left_iff.mpr (List.forall₂_map_right_iff.mpr (h.imp hfg))
  rwa [List.forall₂_eq_eq_eq] at heq

theorem exists_row {sch : List SchemaEntry} {rows : List (MsgId × Entry)}
    (h : List.Forall₂ RowOf sch rows) {r : SchemaEntry} (hr : r ∈ sch) :
    ∃ row ∈ rows, RowOf r row := by
  induction h with
  | nil => cases hr
  | cons hrow _ ih =>
    rcases List.mem_cons.mp hr with rfl | hr
    · exact ⟨_, List.mem_cons_self, hrow⟩
    · obtain ⟨row, hmem, hof⟩ := ih hr
      exact ⟨row, List.mem_cons_of_mem _ hmem, hof⟩

/-- CAT_INIT's tests after BadType, in their order and in terms of the table (R168). -/
theorem compile_of_layOut {maxMessages : Nat} {sch : List SchemaEntry} {ids : List MsgId}
    {rows : List (MsgId × Entry)} (h : layOutTable sch = some rows) :
    compile maxMessages sch ids =
      if (∃ r ∈ sch, 255 < (r.fields.map SchemaField.bytes).sum) ∨ maxMessages < sch.length then
        .error .schemaInvalid
      else if ¬ (sch.map (fun r => r.id)).Nodup then .error .duplicateMessageId
      else if ∃ x ∈ ids, ∀ r ∈ sch, r.id ≠ x then .error .unknownMessageId
      else .ok (buildCatalog ids rows) := by
  have hlengths : sch.map (fun r => (r.fields.map SchemaField.bytes).sum) =
      rows.map (fun row => totalLength row.2.fields) :=
    map_eq_of_rows (fun _ _ hrow => hrow.totalLength_eq) (layOutTable_forall₂ h)
  have hinvalid : (rows.any (fun row => decide (255 < totalLength row.2.fields)) ||
        decide (maxMessages < sch.length)) = true ↔
      (∃ r ∈ sch, 255 < (r.fields.map SchemaField.bytes).sum) ∨ maxMessages < sch.length := by
    have hlong : (∃ n ∈ sch.map (fun r => (r.fields.map SchemaField.bytes).sum), 255 < n) ↔
        ∃ n ∈ rows.map (fun row => totalLength row.2.fields), 255 < n := by rw [hlengths]
    simpa using hlong.symm.or Iff.rfl
  have hunknown : ids.any (fun x => !(sch.map (fun r => r.id)).contains x) = true ↔
      ∃ x ∈ ids, ∀ r ∈ sch, r.id ≠ x := by simp
  simp only [compile, h, hinvalid, hunknown]

/-- A read of the catalog CAT_INIT builds: the first row of the key, with its filter bit (R168). -/
theorem read?_buildCatalog (ids : List MsgId) (rows : List (MsgId × Entry)) (k : Nat) :
    Cells.read? (buildCatalog ids rows) k =
      (rows.find? (fun row => row.1.toNat == k)).map fun row =>
        { row.2 with included := includes ids k } := by
  induction rows with
  | nil => rfl
  | cons row rows ih =>
    rw [buildCatalog, read?_write, List.find?_cons, ih]
    by_cases hk : row.1.toNat = k
    · subst hk
      simp
    · rw [if_neg hk, beq_false_of_ne hk]

/-- Where ids do not repeat, every row is the one its id reads. -/
theorem read?_buildCatalog_of_mem (ids : List MsgId) {rows : List (MsgId × Entry)}
    (hnodup : (rows.map Prod.fst).Nodup) {row : MsgId × Entry} (hrow : row ∈ rows) :
    Cells.read? (buildCatalog ids rows) row.1.toNat =
      some { row.2 with included := includes ids row.1.toNat } := by
  have hfind : rows.find? (fun other => other.1.toNat == row.1.toNat) = some row := by
    cases hsome : rows.find? (fun other => other.1.toNat == row.1.toNat) with
    | none => simpa using List.find?_eq_none.mp hsome row hrow
    | some other =>
      have hid : other.1 = row.1 :=
        BitVec.eq_of_toNat_eq (by simpa using List.find?_some hsome)
      rw [List.inj_on_of_nodup_map hnodup (List.mem_of_find?_eq_some hsome) hrow hid]
  rw [read?_buildCatalog, hfind, Option.map_some]

/-- The catalog maps exactly the table's ids (R168). -/
theorem read?_buildCatalog_isSome_iff (ids : List MsgId) {sch : List SchemaEntry}
    {rows : List (MsgId × Entry)} (h : layOutTable sch = some rows) (k : Nat) :
    (Cells.read? (buildCatalog ids rows) k).isSome = true ↔ ∃ r ∈ sch, r.id.toNat = k := by
  have hids : sch.map (fun r => r.id.toNat) = rows.map (fun row => row.1.toNat) :=
    map_eq_of_rows (fun _ _ hrow => congrArg BitVec.toNat hrow.id_eq) (layOutTable_forall₂ h)
  have hmem : k ∈ sch.map (fun r => r.id.toNat) ↔ k ∈ rows.map (fun row => row.1.toNat) := by
    rw [hids]
  rw [read?_buildCatalog, Option.isSome_map, List.find?_isSome]
  simpa using hmem.symm

/-- Each entry of the table stands in the catalog under its id, laid out, with its filter bit by the
list (R168). -/
theorem read?_buildCatalog_of_entry (ids : List MsgId) {sch : List SchemaEntry}
    {rows : List (MsgId × Entry)} (h : layOutTable sch = some rows)
    (hnodup : (sch.map (fun r => r.id)).Nodup) {r : SchemaEntry} (hr : r ∈ sch) :
    ∃ declared, resolveFields 0 r.fields = some declared ∧
      Cells.read? (buildCatalog ids rows) r.id.toNat =
        some { layOut r.crcExtra declared with included := includes ids r.id.toNat } := by
  have hrows := layOutTable_forall₂ h
  have hids : sch.map (fun r => r.id) = rows.map Prod.fst :=
    map_eq_of_rows (fun _ _ hrow => hrow.id_eq) hrows
  obtain ⟨row, hmem, declared, hdeclared, rfl⟩ := exists_row hrows hr
  exact ⟨declared, hdeclared, read?_buildCatalog_of_mem ids (hids ▸ hnodup) hmem⟩

/-! ### CAT_INIT -/

section CatInit

variable {s : State} {m : Count}

theorem exec_catInit_gt (hm : s.params.idlCap < m.toNat) : exec (.catInit m) s = failed 17 s := by
  rw [exec, execCatInit, withIdCount_gt _ hm]
  rfl

theorem exec_catInit_error {e : Err} (hm : m.toNat ≤ s.params.idlCap)
    (h : compile s.params.maxMessages s.sch (s.idPrefix m.toNat) = .error e) :
    exec (.catInit m) s = raise e s := by
  rw [exec, execCatInit, withIdCount_le _ hm, h]

theorem exec_catInit_ok {cat : Cells Entry} (hm : m.toNat ≤ s.params.idlCap)
    (h : compile s.params.maxMessages s.sch (s.idPrefix m.toNat) = .ok cat) :
    exec (.catInit m) s =
      .next { s with cat := cat, init := true, frame := Frame.zero, status := okStatus } := by
  rw [exec, execCatInit, withIdCount_le _ hm, h]
  rfl

end CatInit

/-- Settles O17: each way to fail is a branch of `compile_of_layOut`; `read?_buildCatalog_of_entry`
reads the catalog of the last branch. -/
theorem catInitCompilesTable : Obligations.CatInitCompilesTable := by
  intro s m ids badType invalid duplicate unknown
  have hlayOut (hb : ¬ badType) : ∃ rows, layOutTable s.sch = some rows :=
    Option.ne_none_iff_exists'.mp (layOutTable_eq_none_iff.not.mpr hb)
  refine ⟨fun hm hb hi hd hu => ?_, exec_catInit_gt, fun hm hb => ?_, fun hm hb hi => ?_,
    fun hm hb hi hd => ?_, fun hm hb hi hd hu => ?_, wordRuns_operands .catInit s⟩
  · obtain ⟨rows, hrows⟩ := hlayOut hb
    have hcompile : compile s.params.maxMessages s.sch ids = .ok (buildCatalog ids rows) := by
      rw [compile_of_layOut hrows, if_neg hi, if_neg hd, if_neg hu]
    obtain ⟨hwf, -, hentries⟩ := compile_ok_catalog hcompile
    refine ⟨_, exec_catInit_ok hm hcompile, ((wf_iff _ _).mp hwf).1,
      read?_buildCatalog_isSome_iff ids hrows, fun r hr => ?_⟩
    obtain ⟨declared, hdeclared, hread⟩ :=
      read?_buildCatalog_of_entry ids hrows (not_not.mp hd) hr
    obtain ⟨hlaid, -⟩ := hentries _ (mem_of_read? hread)
    exact ⟨_, declared, hread, rfl, includes_id_iff, hdeclared, rfl, hlaid.base, hlaid.max⟩
  · exact exec_catInit_error hm (by rw [compile, layOutTable_eq_none_iff.mpr hb])
  · obtain ⟨rows, hrows⟩ := hlayOut hb
    exact exec_catInit_error hm (by rw [compile_of_layOut hrows, if_pos hi])
  · obtain ⟨rows, hrows⟩ := hlayOut hb
    exact exec_catInit_error hm (by rw [compile_of_layOut hrows, if_neg hi, if_pos hd])
  · obtain ⟨rows, hrows⟩ := hlayOut hb
    exact exec_catInit_error hm (by rw [compile_of_layOut hrows, if_neg hi, if_neg hd, if_pos hu])

end Sys2Proof.Machine
end

section
/-! PROOFS. CAT_LOOKUP and CAT_FIELD (R171, R172): the parts of an entry that the invariant holds
within 8 bits, and the words made of them. Last, the host's reference functions on the spec's
examples. -/

namespace Sys2Proof.Machine

/-! ### Entries of the invariant -/

/-- A laid-out entry has no more fields than bytes (R164). -/
theorem Entry.LaidOut.count_le_max {e : Entry} (h : e.LaidOut) : e.fields.length ≤ e.max.toNat := by
  rw [h.max]
  refine length_le_totalLength _ fun f hf => ?_
  have hsize : 1 ≤ f.kind.size := by cases f.kind <;> decide
  rw [h.lengths f hf]
  exact Nat.mul_pos hsize (by unfold Field.elements; omega)

/-- Every entry a state of the invariant maps is laid out (R174). -/
theorem Inv.laidOut_of_catEntry {s : State} (h : Inv s) {id : MsgId} {e : Entry}
    (he : s.catEntry id = some e) : e.LaidOut :=
  h.entries _ (mem_of_read? he)

/-! ### RESULT of CAT_LOOKUP and CAT_FIELD -/

/-- A field above all the bits of `a` is added to it. -/
theorem or_shiftLeft_eq_add {a i : Nat} (h : a < 2 ^ i) (b : Nat) :
    a ||| b <<< i = a + b * 2 ^ i := by
  rw [Nat.or_comm, ← Nat.shiftLeft_add_eq_or_of_lt h, Nat.shiftLeft_eq, Nat.add_comm]

/-- RESULT of CAT_LOOKUP as a sum of its fields (R171, R119). -/
theorem lookupWord_toNat {e : Entry} (hcount : e.count < 256) :
    (lookupWord e).toNat =
      e.crcExtra.toNat + e.base.toNat * 2 ^ 8 + e.max.toNat * 2 ^ 16 + e.count * 2 ^ 24 +
        e.included.toNat * 2 ^ 32 := by
  have hcrc := e.crcExtra.isLt
  have hbase := e.base.isLt
  have hmax := e.max.isLt
  have hincluded := e.included.toNat_lt
  rw [lookupWord, BitVec.toNat_ofNat]
  simp (disch := omega) only [or_shiftLeft_eq_add]
  omega

/-- RESULT of CAT_FIELD as a sum of its fields (R172, R119). -/
theorem fieldWord_toNat {f : Field} (hoffset : f.offset < 256) (hlength : f.length < 256) :
    (fieldWord f).toNat =
      f.kind.code.toNat + f.arrayLength.toNat * 2 ^ 8 + f.offset * 2 ^ 16 + f.length * 2 ^ 24 +
        f.extended.toNat * 2 ^ 32 + f.declIndex.toNat * 2 ^ 40 := by
  have hkind := f.kind.code.isLt
  have harray := f.arrayLength.isLt
  have hextended := f.extended.toNat_lt
  have hindex := f.declIndex.isLt
  rw [fieldWord, BitVec.toNat_ofNat]
  simp (disch := omega) only [or_shiftLeft_eq_add]
  omega

/-- Bits [lo + len - 1 : lo] of a word, as a number. -/
theorem extractLsb'_toNat_eq (r : Word) (lo len : Nat) :
    (r.extractLsb' lo len).toNat = r.toNat / 2 ^ lo % 2 ^ len := by
  rw [BitVec.extractLsb'_toNat, Nat.shiftRight_eq_div_pow]

theorem extractLsb'_eq_of_toNat {r : Word} {lo len : Nat} {v : BitVec len}
    (h : r.toNat / 2 ^ lo % 2 ^ len = v.toNat) : r.extractLsb' lo len = v :=
  BitVec.eq_of_toNat_eq ((extractLsb'_toNat_eq r lo len).trans h)

/-- A bit of a word is the flag whose number stands there. -/
theorem getLsbD_eq_of_toNat {r : Word} {i : Nat} {flag : Bool}
    (h : r.toNat / 2 ^ i % 2 = flag.toNat) : r.getLsbD i = flag := by
  rw [BitVec.getLsbD, Nat.testBit_eq_decide_div_mod_eq, h]
  cases flag <;> rfl

/-- Each field of CAT_LOOKUP's RESULT stands at its bits, and 0 in the others (R171). -/
theorem lookupWord_fields {e : Entry} (hcount : e.count < 256) :
    (lookupWord e).extractLsb' 0 8 = e.crcExtra ∧ (lookupWord e).extractLsb' 8 8 = e.base ∧
      (lookupWord e).extractLsb' 16 8 = e.max ∧
      ((lookupWord e).extractLsb' 24 8).toNat = e.count ∧
      (lookupWord e).getLsbD 32 = e.included ∧ (lookupWord e).toNat < 2 ^ 33 := by
  have hcrc := e.crcExtra.isLt
  have hbase := e.base.isLt
  have hmax := e.max.isLt
  have hincluded := e.included.toNat_lt
  have hword := lookupWord_toNat hcount
  generalize lookupWord e = r at hword ⊢
  refine ⟨extractLsb'_eq_of_toNat ?_, extractLsb'_eq_of_toNat ?_, extractLsb'_eq_of_toNat ?_,
    (extractLsb'_toNat_eq ..).trans ?_, getLsbD_eq_of_toNat ?_, ?_⟩
  all_goals omega

/-- Each field of CAT_FIELD's RESULT stands at its bits, and 0 in the others (R172). -/
theorem fieldWord_fields {f : Field} (hoffset : f.offset < 256) (hlength : f.length < 256) :
    (fieldWord f).extractLsb' 0 4 = f.kind.code ∧ (fieldWord f).extractLsb' 4 4 = 0#4 ∧
      (fieldWord f).extractLsb' 8 8 = f.arrayLength ∧
      ((fieldWord f).extractLsb' 16 8).toNat = f.offset ∧
      ((fieldWord f).extractLsb' 24 8).toNat = f.length ∧
      (fieldWord f).getLsbD 32 = f.extended ∧ (fieldWord f).extractLsb' 33 7 = 0#7 ∧
      (fieldWord f).extractLsb' 40 8 = f.declIndex ∧ (fieldWord f).toNat < 2 ^ 48 := by
  have hkind : f.kind.code.toNat < 2 ^ 4 := f.kind.code.isLt
  have harray := f.arrayLength.isLt
  have hextended := f.extended.toNat_lt
  have hindex := f.declIndex.isLt
  have hword := fieldWord_toNat hoffset hlength
  generalize fieldWord f = r at hword ⊢
  refine ⟨extractLsb'_eq_of_toNat ?_, extractLsb'_eq_of_toNat (show _ = 0 from ?_),
    extractLsb'_eq_of_toNat ?_, (extractLsb'_toNat_eq ..).trans ?_,
    (extractLsb'_toNat_eq ..).trans ?_, getLsbD_eq_of_toNat ?_,
    extractLsb'_eq_of_toNat (show _ = 0 from ?_), extractLsb'_eq_of_toNat ?_, ?_⟩
  all_goals omega

/-! ### The commands -/

section Lookup

variable {s : State} {id : MsgId} {k : Byte} {e : Entry}

theorem exec_catLookup_uninit (hinit : s.init = false) : exec (.catLookup id) s = failed 1 s := by
  rw [exec, execCatLookup, whenInit_of_uninit hinit]

theorem exec_catLookup_unknown (hinit : s.init = true) (hnone : s.catEntry id = none) :
    exec (.catLookup id) s = failed 15 s := by
  rw [exec, execCatLookup, whenInit_of_init hinit, hnone]
  rfl

theorem exec_catLookup (hinit : s.init = true) (he : s.catEntry id = some e) :
    exec (.catLookup id) s = .next { s with result := lookupWord e, status := okStatus } := by
  rw [exec, execCatLookup, whenInit_of_init hinit, he]
  rfl

theorem exec_catField_uninit (hinit : s.init = false) : exec (.catField id k) s = failed 1 s := by
  rw [exec, execCatField, whenInit_of_uninit hinit]

theorem exec_catField_unknown (hinit : s.init = true) (hnone : s.catEntry id = none) :
    exec (.catField id k) s = failed 15 s := by
  rw [exec, execCatField, whenInit_of_init hinit, hnone]
  rfl

theorem exec_catField_unselected (hinit : s.init = true) (he : s.catEntry id = some e)
    (hk : e.fields.length ≤ k.toNat) : exec (.catField id k) s = failed 18 s := by
  simp only [exec, execCatField, whenInit_of_init hinit, he, List.getElem?_eq_none hk]
  rfl

theorem exec_catField {f : Field} (hinit : s.init = true) (he : s.catEntry id = some e)
    (hf : e.fields[k.toNat]? = some f) :
    exec (.catField id k) s = .next { s with result := fieldWord f, status := okStatus } := by
  simp only [exec, execCatField, whenInit_of_init hinit, he, hf]
  rfl

end Lookup

/-- Settles O21: the count of a laid-out entry fits its 8 bits of RESULT. -/
theorem catLookupReadsEntry : Obligations.CatLookupReadsEntry := by
  intro s id
  refine ⟨fun e hinv hinit he => ⟨_, exec_catLookup hinit he, lookupWord_fields ?_⟩,
    exec_catLookup_uninit, exec_catLookup_unknown, wordRuns_operands .catLookup s⟩
  exact ((hinv.laidOut_of_catEntry he).count_le_max).trans_lt e.max.isLt

/-- Settles O22: a field of a laid-out entry ends within `max`, so its offset and length fit their 8
bits of RESULT. -/
theorem catFieldReadsField : Obligations.CatFieldReadsField := by
  intro s id k
  refine ⟨fun e f hinv hinit he hf => ?_, exec_catField_uninit, exec_catField_unknown,
    fun e hinit he hk => exec_catField_unselected hinit he hk, wordRuns_operands .catField s⟩
  have hend := (hinv.laidOut_of_catEntry he).field_end_le_max hf
  have hmax := e.max.isLt
  exact ⟨_, exec_catField hinit he hf, fieldWord_fields (by omega) (by omega)⟩

/-! ### The host's reference functions -/

/-- Settles O60: each example is evaluated. -/
theorem hostReferenceExamples : Obligations.HostReferenceExamples :=
  ⟨by decide, by decide, by decide, by decide, by decide, by decide, by decide +kernel,
    by decide +kernel⟩

end Sys2Proof.Machine
end

section
/-! PROOFS. The payload family (`42_payload.md`): where an element lies in PAYLOAD, the widening of
FIELD_READ, reads and writes of byte windows, and the two commands, which share their guards. -/

namespace Sys2Proof.Machine

/-! ### Elements -/

/-- Selector `k`, `e` names element `e` of field `k`, when both exist (R200). -/
theorem Entry.select_eq_some_iff {en : Entry} {k e : Byte} {f : Field} :
    en.select k e = some f ↔ en.fields[k.toNat]? = some f ∧ e.toNat < f.elements := by
  unfold Entry.select
  split
  next hnone => simp [hnone]
  next g hg =>
    rw [hg]
    simp only [Option.ite_none_right_eq_some, Option.some.injEq]
    constructor
    · rintro ⟨he, rfl⟩
      exact ⟨rfl, he⟩
    · rintro ⟨rfl, he⟩
      exact ⟨he, rfl⟩

/-- A selector is out of range in its field or in its element (R200). -/
theorem Entry.select_eq_none_iff {en : Entry} {k e : Byte} :
    en.select k e = none ↔
      en.fields.length ≤ k.toNat ∨ ∃ f, en.fields[k.toNat]? = some f ∧ f.elements ≤ e.toNat := by
  unfold Entry.select
  split
  next hnone => exact iff_of_true rfl (.inl (List.getElem?_eq_none_iff.mp hnone))
  next g hg =>
    have hk := (List.getElem?_eq_some_iff.mp hg).1
    simp [hg, Nat.not_le.mpr hk]

theorem elementAddress_succ (f : Field) (e : Nat) :
    elementAddress f (e + 1) = elementAddress f e + f.size := by
  simp only [elementAddress, Nat.add_mul, Nat.one_mul, Nat.add_assoc]

theorem elementAddress_mono (f : Field) {e e' : Nat} (h : e ≤ e') :
    elementAddress f e ≤ elementAddress f e' :=
  Nat.add_le_add_left (Nat.mul_le_mul_right _ h) _

/-- No byte belongs to both elements (R202). -/
def ElementsDisjoint (f : Field) (e : Nat) (g : Field) (e' : Nat) : Prop :=
  elementAddress f e + f.size ≤ elementAddress g e' ∨
    elementAddress g e' + g.size ≤ elementAddress f e

theorem elementsDisjoint_of_ne (f : Field) {e e' : Nat} (h : e ≠ e') :
    ElementsDisjoint f e f e' := by
  unfold ElementsDisjoint
  simp only [← elementAddress_succ]
  rcases Nat.lt_or_gt_of_ne h with hlt | hgt
  · exact .inl (elementAddress_mono f hlt)
  · exact .inr (elementAddress_mono f hgt)

namespace Entry.LaidOut

variable {en : Entry} (h : en.LaidOut) {k e k' e' : Byte} {f g : Field}

include h

/-- An element ends within its field (R161, R200). -/
theorem element_end_le_field_end (hselect : en.select k e = some f) :
    elementAddress f e.toNat + f.size ≤ f.offset + f.length := by
  obtain ⟨hf, he⟩ := Entry.select_eq_some_iff.mp hselect
  calc elementAddress f e.toNat + f.size
      = elementAddress f (e.toNat + 1) := (elementAddress_succ ..).symm
    _ ≤ elementAddress f f.elements := elementAddress_mono f he
    _ = f.offset + f.length := by
        rw [h.lengths f (List.mem_of_getElem? hf), elementAddress, Nat.mul_comm]

/-- Elements of different fields have no byte in common (R163). -/
theorem elements_disjoint_of_field_lt (hf : en.select k e = some f)
    (hg : en.select k' e' = some g) (hlt : k.toNat < k'.toNat) :
    elementAddress f e.toNat + f.size ≤ elementAddress g e'.toNat := by
  obtain ⟨hfk, -⟩ := Entry.select_eq_some_iff.mp hf
  obtain ⟨hgk, -⟩ := Entry.select_eq_some_iff.mp hg
  obtain ⟨hk, rfl⟩ := List.getElem?_eq_some_iff.mp hfk
  obtain ⟨hk', rfl⟩ := List.getElem?_eq_some_iff.mp hgk
  calc elementAddress en.fields[k.toNat] e.toNat + en.fields[k.toNat].size
      ≤ en.fields[k.toNat].offset + en.fields[k.toNat].length := h.element_end_le_field_end hf
    _ ≤ en.fields[k'.toNat].offset :=
        List.pairwise_iff_getElem.mp h.fields_disjoint _ _ hk hk' hlt
    _ ≤ elementAddress en.fields[k'.toNat] e'.toNat := Nat.le_add_right ..

/-- Different selectors name elements with no byte in common (R163, R200). -/
theorem elements_disjoint (hf : en.select k e = some f) (hg : en.select k' e' = some g)
    (hne : (k, e) ≠ (k', e')) : ElementsDisjoint f e.toNat g e'.toNat := by
  rcases Nat.lt_trichotomy k.toNat k'.toNat with hlt | heq | hgt
  · exact .inl (h.elements_disjoint_of_field_lt hf hg hlt)
  · obtain rfl := BitVec.eq_of_toNat_eq heq
    obtain rfl : f = g := Option.some_inj.mp <|
      (Entry.select_eq_some_iff.mp hf).1.symm.trans (Entry.select_eq_some_iff.mp hg).1
    exact elementsDisjoint_of_ne f fun he => hne (by rw [BitVec.eq_of_toNat_eq he])
  · exact .inr (h.elements_disjoint_of_field_lt hg hf hgt)

end Entry.LaidOut

/-! ### Widening -/

theorem Kind.bits_le (k : Kind) : 8 * k.size ≤ 64 := by cases k <;> decide

theorem Kind.signed_iff {k : Kind} : k.signed = true ↔ k = .i8 ∨ k = .i16 ∨ k = .i32 := by
  cases k <;> decide

/-- A signed element widens to its value in two's complement (R205). -/
theorem widen_toInt {k : Kind} {v : Nat} (hk : k.signed = true) (hv : v < 2 ^ (8 * k.size)) :
    (widen k v).toInt =
      if 2 * v < 2 ^ (8 * k.size) then (v : Int) else v - 2 ^ (8 * k.size) := by
  rw [widen, if_pos hk, BitVec.toInt_signExtend_of_le k.bits_le, BitVec.toInt_eq_toNat_cond,
    BitVec.toNat_ofNat, Nat.mod_eq_of_lt hv, Nat.cast_pow, Nat.cast_ofNat]

/-- Every other element widens to its value (R205). -/
theorem widen_toNat {k : Kind} {v : Nat} (hk : k.signed = false) (hv : v < 2 ^ (8 * k.size)) :
    (widen k v).toNat = v := by
  have hword : v < 2 ^ 64 := hv.trans_le (Nat.pow_le_pow_right (by decide) k.bits_le)
  rw [widen, if_neg (by simp [hk]), BitVec.toNat_setWidth, BitVec.toNat_ofNat,
    Nat.mod_eq_of_lt hv, Nat.mod_eq_of_lt hword]

/-- `trunc` undoes the widening, by sign or by zero (R207). -/
theorem widen_toNat_mod (k : Kind) (v : Nat) :
    (widen k v).toNat % 2 ^ (8 * k.size) = v % 2 ^ (8 * k.size) := by
  have hbits := k.bits_le
  have htrunc : (widen k v).setWidth (8 * k.size) = BitVec.ofNat (8 * k.size) v := by
    unfold widen
    split
    · ext i hi
      simp [BitVec.getElem_signExtend, hi, show i < 64 by omega]
    · rw [BitVec.setWidth_setWidth_of_le _ hbits, BitVec.setWidth_eq]
  simpa using congrArg BitVec.toNat htrunc

theorem widen_zero (k : Kind) : widen k 0 = 0 := by cases k <;> decide

/-! ### Reads and writes of a window -/

theorem memRead_lt {n : Nat} (x : Vector Byte n) (a k : Nat) : memRead x a k < 2 ^ (8 * k) := by
  simpa [memRead] using le_lt (slice x a (a + k))

theorem le_eq_zero {bs : List Byte} (h : ∀ b ∈ bs, b = 0) : le bs = 0 := by
  induction bs with
  | nil => rfl
  | cons b bs ih =>
    obtain ⟨hb, hbs⟩ := List.forall_mem_cons.mp h
    simp [hb, ih hbs]

theorem memRead_eq_zero {n : Nat} {x : Vector Byte n} {a k : Nat}
    (h : ∀ i, a ≤ i → byteAt x i = 0) : memRead x a k = 0 := by
  refine le_eq_zero fun b hb => ?_
  obtain ⟨j, -, rfl⟩ := List.mem_map.mp hb
  exact h _ (Nat.le_add_right ..)

/-- The bytes written are the little-endian bytes of the value (R12). -/
theorem slice_memWrite {n : Nat} (x : Vector Byte n) {a k : Nat} (v : Nat) (h : a + k ≤ n) :
    slice (memWrite x a k v) a (a + k) = bytesLe k v := by
  refine List.ext_getElem (by simp) fun i hi hl => ?_
  have hik : i < k := by simpa using hl
  have hbyte := bytesLe_getD k v i hik
  rw [List.getD_eq_getElem _ _ hl] at hbyte
  simp only [slice, List.getElem_map, List.getElem_range, byteAt_memWrite, hbyte,
    Nat.add_sub_cancel_left]
  exact if_pos ⟨by omega, by omega, by omega⟩

/-- A read of the bytes written gives the value written (R12, R201, R202). -/
theorem memRead_memWrite {n : Nat} (x : Vector Byte n) {a k : Nat} (v : Nat) (h : a + k ≤ n) :
    memRead (memWrite x a k v) a k = v % 2 ^ (8 * k) := by
  rw [memRead, slice_memWrite x v h, le_bytesLe]

/-- A read of other bytes gives what it gave before the write (R202). -/
theorem memRead_memWrite_of_disjoint {n : Nat} (x : Vector Byte n) {a k b l : Nat} (v : Nat)
    (h : a + k ≤ b ∨ b + l ≤ a) : memRead (memWrite x a k v) b l = memRead x b l :=
  memRead_congr fun i _ _ => by rw [byteAt_memWrite, if_neg (by omega)]

/-- Writes of different bytes commute (R202). -/
theorem memWrite_comm {n : Nat} (x : Vector Byte n) {a k b l : Nat} (v w : Nat)
    (h : a + k ≤ b ∨ b + l ≤ a) :
    memWrite (memWrite x a k v) b l w = memWrite (memWrite x b l w) a k v := by
  refine window_ext fun i _ => ?_
  by_cases hi : a ≤ i ∧ i < a + k
  · have hother : ¬(b ≤ i ∧ i < b + l) := by omega
    simp only [byteAt_memWrite, hi, hother, and_false, if_false]
  · simp only [byteAt_memWrite, hi, and_false, if_false]

/-- A byte of the low bytes of a word is a byte of the word. -/
theorem ofNat_byte_of_mod (d : Word) {j size : Nat} (h : j < size) :
    BitVec.ofNat 8 (d.toNat % 2 ^ (8 * size) / 256 ^ j) = d.extractLsb' (8 * j) 8 := by
  have hpow : 2 ^ (8 * size) = 256 ^ j * 256 ^ (size - j) := by
    rw [← pow_add, Nat.add_sub_cancel' h.le, pow_mul]; rfl
  have hdvd : 256 ∣ 256 ^ (size - j) := dvd_pow_self _ (by omega)
  refine BitVec.eq_of_toNat_eq ?_
  rw [hpow, Nat.mod_mul_right_div_self, BitVec.toNat_ofNat, extractLsb'_toNat_eq, pow_mul]
  exact Nat.mod_mod_of_dvd _ hdvd

/-! ### The commands -/

/-- What FIELD_READ and FIELD_WRITE share: the tests before they touch the element (R303, R205,
R206). -/
def withElement (k e : Byte) (s : State) (run : Field → Out) : Out :=
  withFrameEntry s fun en =>
    match en.select k e with
    | none => raise .fieldSelectInvalid s
    | some f => run f

/-- `k`, `e` names an element of the frame held, of field `f` (R200). -/
structure State.Selects (s : State) (k e : Byte) (f : Field) : Prop where
  init : s.init = true
  valid : s.frame.valid = true
  select : ∃ en, s.catEntry s.frame.msgId = some en ∧ en.select k e = some f

section Guards

variable {s : State} {k e : Byte}

theorem withElement_uninit (hinit : s.init = false) (run : Field → Out) :
    withElement k e s run = failed 1 s := by
  rw [withElement, withFrameEntry, whenFrame, whenInit_of_uninit hinit]

theorem withElement_noFrame (hinit : s.init = true) (hvalid : s.frame.valid = false)
    (run : Field → Out) : withElement k e s run = failed 21 s := by
  rw [withElement, withFrameEntry, whenFrame, whenInit_of_init hinit, if_neg (by simp [hvalid])]
  rfl

theorem withFrameEntry_held {en : Entry} (hinit : s.init = true) (hvalid : s.frame.valid = true)
    (hcat : s.catEntry s.frame.msgId = some en) (run : Entry → Out) :
    withFrameEntry s run = run en := by
  rw [withFrameEntry, whenFrame, whenInit_of_init hinit, if_pos hvalid, hcat]

theorem withElement_unselected {en : Entry} (hinit : s.init = true)
    (hvalid : s.frame.valid = true) (hcat : s.catEntry s.frame.msgId = some en)
    (hrange : en.fields.length ≤ k.toNat ∨
      ∃ f, en.fields[k.toNat]? = some f ∧ f.elements ≤ e.toNat) (run : Field → Out) :
    withElement k e s run = failed 18 s := by
  rw [withElement, withFrameEntry_held hinit hvalid hcat, Entry.select_eq_none_iff.mpr hrange]
  rfl

theorem withElement_selected {f : Field} (h : s.Selects k e f) (run : Field → Out) :
    withElement k e s run = run f := by
  obtain ⟨en, hcat, hselect⟩ := h.select
  rw [withElement, withFrameEntry_held h.init h.valid hcat, hselect]

end Guards

/-- What FIELD_READ reports of an element (R205). -/
def elementWord (f : Field) (e : Byte) (s : State) : Word :=
  widen f.kind (rawElement s.frame.payload f e.toNat)

theorem exec_fieldRead_eq (k e : Byte) (s : State) :
    exec (.fieldRead k e) s =
      withElement k e s fun f => succeed (setResult (elementWord f e s) s) :=
  rfl

theorem exec_fieldWrite_eq (k e : Byte) (s : State) :
    exec (.fieldWrite k e) s =
      withElement k e s fun f => succeed (writeElement f e.toNat s.data s) :=
  rfl

namespace State.Selects

variable {s : State} {k e k' e' : Byte} {f g : Field}

theorem of_field {en : Entry} (hinit : s.init = true) (hvalid : s.frame.valid = true)
    (hcat : s.catEntry s.frame.msgId = some en) (hf : en.fields[k.toNat]? = some f)
    (he : e.toNat < f.elements) : s.Selects k e f :=
  ⟨hinit, hvalid, en, hcat, Entry.select_eq_some_iff.mpr ⟨hf, he⟩⟩

theorem exec_fieldRead (h : s.Selects k e f) :
    exec (.fieldRead k e) s =
      .next { s with result := elementWord f e s, status := okStatus } := by
  rw [exec_fieldRead_eq, withElement_selected h]
  rfl

theorem exec_fieldWrite (h : s.Selects k e f) :
    exec (.fieldWrite k e) s = .next (setStatus .none (writeElement f e.toNat s.data s)) := by
  rw [exec_fieldWrite_eq, withElement_selected h]
  rfl

/-- A selector names the same element whatever DATA holds (R200). -/
theorem withData (h : s.Selects k e f) (d : Word) : ({ s with data := d } : State).Selects k e f :=
  ⟨h.init, h.valid, h.select⟩

/-- An element that a selector names lies inside PAYLOAD (R200, R81). -/
theorem element_end_le (h : s.Selects k e f) (hinv : Inv s) :
    elementAddress f e.toNat + f.size ≤ 255 := by
  obtain ⟨en, hcat, hselect⟩ := h.select
  have hend := (hinv.laidOut hcat).element_end_le_max hselect
  have hmax := en.max.isLt
  omega

theorem disjoint (hf : s.Selects k e f) (hg : s.Selects k' e' g) (hinv : Inv s)
    (hne : (k, e) ≠ (k', e')) : ElementsDisjoint f e.toNat g e'.toNat := by
  obtain ⟨en, hcat, hfselect⟩ := hf.select
  obtain ⟨en', hcat', hgselect⟩ := hg.select
  obtain rfl : en = en' := Option.some_inj.mp (hcat.symm.trans hcat')
  exact (hinv.laidOut hcat).elements_disjoint hfselect hgselect hne

end State.Selects

/-! ### An element after a write -/

/-- The state after a FIELD_WRITE of `d` to an element (R206). -/
def wroteElement (f : Field) (e : Byte) (d : Word) (s : State) : State :=
  setStatus .none (writeElement f e.toNat d { s with data := d })

section Written

variable {s : State} {k e e' : Byte} {f g : Field}

/-- A write leaves what every selector names as it was (R206). -/
theorem State.Selects.after_write (h : s.Selects k e f) (g : Field) (e' : Byte) (d : Word) :
    (wroteElement g e' d s).Selects k e f :=
  ⟨h.init, h.valid, h.select⟩

theorem State.Selects.exec_fieldWrite_data (h : s.Selects k e f) (d : Word) :
    exec (.fieldWrite k e) { s with data := d } = .next (wroteElement f e d s) :=
  (h.withData d).exec_fieldWrite

/-- What FIELD_WRITE stores, a read returns, widened from its low bytes (R209). -/
theorem elementWord_wrote_same (d : Word) (hend : elementAddress f e.toNat + f.size ≤ 255) :
    elementWord f e (wroteElement f e d s) =
      widen f.kind (d.toNat % 2 ^ (8 * f.kind.size)) := by
  refine congrArg (widen f.kind) ?_
  exact (memRead_memWrite s.frame.payload _ hend).trans (Nat.mod_mod _ _)

/-- Another element reads as before the write (R209). -/
theorem elementWord_wrote_of_disjoint (d : Word)
    (hdisjoint : ElementsDisjoint f e.toNat g e'.toNat) :
    elementWord g e' (wroteElement f e d s) = elementWord g e' s :=
  congrArg (widen g.kind) (memRead_memWrite_of_disjoint s.frame.payload _ hdisjoint)

/-- Writes to different elements commute (R209). -/
theorem frame_wrote_comm (d d' : Word) (hdisjoint : ElementsDisjoint f e.toNat g e'.toNat) :
    (wroteElement g e' d' (wroteElement f e d s)).frame =
      (wroteElement f e d (wroteElement g e' d' s)).frame :=
  congrArg (fun p => { s.frame with payload := p })
    (memWrite_comm s.frame.payload _ _ hdisjoint)

end Written

/-! ### What a parse leaves -/

section Parse

variable {s t : State} {n : Count}

theorem init_of_execParse_ok (h : execParse n s = .next t) (hok : t.status = okStatus) :
    s.init = true := by
  by_contra hinit
  have hrun := withInCount_ok h hok
  rw [whenInit_uninit (by simpa using hinit)] at hrun
  cases raise_ok hrun hok

theorem init_of_execParseStream_ok (h : execParseStream n s = .next t)
    (hok : t.status = okStatus) : s.init = true := by
  by_contra hinit
  have hrun := withInCount_ok h hok
  rw [if_neg hinit] at hrun
  cases raise_ok hrun hok

/-- A parse that succeeds holds a frame its scan found (R230, R232). -/
theorem parse_ok_found {i : Instr} (hi : i = .parse n ∨ i = .parseStream n)
    (h : exec i s = .next t) (hok : t.status = okStatus) :
    t.init = true ∧ ∃ mode buf start stop, scan s.cat mode 0 buf none = .found t.frame start stop := by
  rcases hi with rfl | rfl
  · obtain ⟨f, start, stop, hscan, rfl⟩ := execParse_ok h hok
    exact ⟨(exec_effect h).init_mono (init_of_execParse_ok h hok), _, _, start, stop, hscan⟩
  · obtain ⟨f, start, stop, hscan, rfl⟩ := execParseStream_ok h hok
    exact ⟨(exec_effect h).init_mono (init_of_execParseStream_ok h hok), _, _, start, stop, hscan⟩

end Parse

theorem scan_found_valid {cat : Cells Entry} {m : Mode} {b : List Byte} {f : Frame}
    {start stop : Nat} (h : scan cat m 0 b none = .found f start stop) : f.valid = true := by
  obtain ⟨_, v, _, -, htry, -, -⟩ := scan_found h
  obtain ⟨-, _, -, -, -, -, hf⟩ := tryCandidate_ok htry
  rcases hf with ⟨-, rfl, -⟩ | ⟨-, rfl, -⟩ <;> exact headerFrame_valid v _

/-- An element whose bytes all lie beyond LEN is 0 in a frame found (R226, R208). -/
theorem rawElement_beyond_len {cat : Cells Entry} {m : Mode} {b : List Byte} {fr : Frame}
    {start stop e : Nat} {f : Field} (h : scan cat m 0 b none = .found fr start stop)
    (hlen : fr.len.toNat ≤ elementAddress f e) : rawElement fr.payload f e = 0 :=
  memRead_eq_zero fun _ hj => scan_found_payload h (hlen.trans hj)

/-! ### The statements -/

/-- Settles O23: an element ends within its field, and the field within `max`. -/
theorem elementStaysInsidePayload : Obligations.ElementStaysInsidePayload := by
  intro s en f k e hinv _ hcat hf he
  have hlaid := hinv.laidOut hcat
  have hselect := Entry.select_eq_some_iff.mpr ⟨hf, he⟩
  exact ⟨hselect, hlaid.element_end_le_field_end hselect, hlaid.field_end_le_max hf,
    Nat.le_of_lt_succ en.max.isLt⟩

/-- Settles O24: RESULT is the element's value, widened. -/
theorem fieldReadWidensElement : Obligations.FieldReadWidensElement := by
  intro s k e
  refine ⟨fun en f hinit hvalid hcat hf he => ?_, fun hinit => withElement_uninit hinit _,
    fun hinit hvalid => withElement_noFrame hinit hvalid _,
    fun en hinit hvalid hcat hrange => withElement_unselected hinit hvalid hcat hrange _,
    wordRuns_operands .fieldRead s⟩
  have hlt := memRead_lt s.frame.payload (elementAddress f e.toNat) f.size
  refine ⟨_, (State.Selects.of_field hinit hvalid hcat hf he).exec_fieldRead,
    fun hsigned => widen_toInt (Kind.signed_iff.mpr hsigned) hlt,
    fun h8 h16 h32 => widen_toNat ?_ hlt⟩
  rw [Bool.eq_false_iff, Ne, Kind.signed_iff]
  simp only [h8, h16, h32, or_self, not_false_eq_true]

/-- Settles O25: the bytes written lie inside PAYLOAD, so each of them is stored. -/
theorem fieldWriteStoresElement : Obligations.FieldWriteStoresElement := by
  intro s k e
  refine ⟨fun en f hinv hinit hvalid hcat hf he => ?_, fun hinit => withElement_uninit hinit _,
    fun hinit hvalid => withElement_noFrame hinit hvalid _,
    fun en hinit hvalid hcat hrange => withElement_unselected hinit hvalid hcat hrange _,
    wordRuns_operands .fieldWrite s⟩
  have hselects := State.Selects.of_field hinit hvalid hcat hf he
  have hend := hselects.element_end_le hinv
  refine ⟨_, hselects.exec_fieldWrite, fun i => ?_⟩
  rw [byteAt_memWrite]
  refine ite_congr (propext ?_) (fun hi => ofNat_byte_of_mod s.data ?_) fun _ => rfl
  · exact and_iff_right_of_imp fun hi => hi.2.trans_le hend
  · exact Nat.sub_lt_left_of_lt_add hi.1 hi.2

/-- Settles O26: `trunc` undoes the widening; an extended field lies at or beyond `base`, where a v1
frame has no bytes. -/
theorem fieldValueIsReadElementwise : Obligations.FieldValueIsReadElementwise := by
  refine ⟨fun s en f k hinit hvalid hcat hf =>
    ⟨_, fieldValue?_eq hvalid hcat hf, (List.length_map ..).trans List.length_range, fun e he =>
      ⟨_, (State.Selects.of_field hinit hvalid hcat hf he).exec_fieldRead, ?_⟩⟩,
    fun s t n i en f k hinv hi hexec hok hver hcat hf hext => ?_⟩
  · have hlt := memRead_lt s.frame.payload (elementAddress f e.toNat) f.size
    have htrunc := (widen_toNat_mod f.kind (rawElement s.frame.payload f e.toNat)).trans
      (Nat.mod_eq_of_lt hlt)
    rw [List.getElem?_map, List.getElem?_range (show _ < f.elements from he)]
    exact congrArg some htrunc.symm
  · obtain ⟨-, _, _, _, _, hscan⟩ := parse_ok_found hi hexec hok
    have hvalid := scan_found_valid hscan
    have hinvt := hinv.effect (exec_effect hexec)
    have hlen : t.frame.len.toNat ≤ en.base.toNat := by
      simpa [hver, Entry.limit] using (hinvt.fits hvalid hcat).len
    obtain ⟨-, -, hbase⟩ := (hinvt.laidOut hcat).field_within (List.mem_of_getElem? hf)
    refine ⟨_, fieldValue?_eq hvalid hcat hf, fun x hx => ?_⟩
    obtain ⟨e, -, rfl⟩ := List.mem_map.mp hx
    refine rawElement_beyond_len hscan ?_
    calc t.frame.len.toNat ≤ en.base.toNat := hlen
      _ ≤ f.offset := hbase hext
      _ ≤ elementAddress f e := Nat.le_add_right ..

/-- Settles O27: PAYLOAD is 0 from LEN on. -/
theorem truncatedElementReadsZero : Obligations.TruncatedElementReadsZero := by
  intro s t n i en f k e hi hexec hok hcat hf he hlen
  obtain ⟨hinit, _, _, _, _, hscan⟩ := parse_ok_found hi hexec hok
  have hselects := State.Selects.of_field hinit (scan_found_valid hscan) hcat hf he
  rw [hselects.exec_fieldRead, elementWord, rawElement_beyond_len hscan hlen, widen_zero]

/-- Settles O28: the element stored lies inside PAYLOAD, and different elements have no byte in
common. -/
theorem writeThenReadElement : Obligations.WriteThenReadElement := by
  intro s en f g k e k' e' d d' hinv hvalid hcat hfselect hgselect
  have hinit := (hinv.frame hvalid).1
  have hf : s.Selects k e f := ⟨hinit, hvalid, en, hcat, hfselect⟩
  have hg : s.Selects k' e' g := ⟨hinit, hvalid, en, hcat, hgselect⟩
  have hend := hf.element_end_le hinv
  have hft := hf.after_write f e d
  have hgt := hg.after_write f e d
  refine ⟨_, hf.exec_fieldWrite_data d, ?_, fun hne => ?_⟩
  · rw [hft.exec_fieldRead, elementWord_wrote_same d hend]
    rfl
  have hdisjoint := hf.disjoint hg hinv hne
  refine ⟨fun r hr => ?_, _, _, _, hg.exec_fieldWrite_data d', hgt.exec_fieldWrite_data d',
    (hf.after_write g e' d').exec_fieldWrite_data d, frame_wrote_comm d d' hdisjoint⟩
  have hresult : elementWord g e' s = r := by
    rw [hg.exec_fieldRead] at hr
    simpa using congrArg State.result (Host.Outcome.next.inj hr)
  rw [hgt.exec_fieldRead, elementWord_wrote_of_disjoint d hdisjoint, hresult]
  rfl

end Sys2Proof.Machine
end

section
/-! PROOFS. The scanner (`43_parser.md`): markers and `nextMarker`, the scan index by index and how
it ends (R220, R230 to R232), PARSE and PARSE_STREAM, and the laws R236 and R237. Every statement on
how a scan ends rests on one fact: a scan goes on past every candidate that fails, so it ends at the
first marker whose candidate does not fail, or at the end of the bytes. -/

namespace Sys2Proof.Machine

/-! ### Markers -/

section Markers

variable {buf : List Byte} {i : Nat} {v : Version}

theorem MarkerAt.lt_length (h : MarkerAt buf i v) : i < buf.length := by
  obtain ⟨x, hx, -⟩ := (markerAt_iff buf i v).mp h
  exact (List.getElem?_eq_some_iff.mp hx).1

/-- The version a marker announces, as `ScanLoop` reads it off the byte. -/
theorem MarkerAt.version_eq (h : MarkerAt buf i v) :
    (if buf.getD i 0 = 0xFE#8 then Version.v1 else .v2) = v := by
  rw [List.getD_eq_getElem?_getD]
  rcases h with ⟨rfl, hx⟩ | ⟨rfl, hx⟩ <;> rw [hx] <;> rfl

/-- The bytes from a marker on begin with it. -/
theorem MarkerAt.drop_eq (h : MarkerAt buf i v) :
    ∃ x, markerVersion? x = some v ∧ buf.drop i = x :: buf.drop (i + 1) := by
  obtain ⟨x, hx, hv⟩ := (markerAt_iff buf i v).mp h
  refine ⟨x, hv, ?_⟩
  rw [List.drop_eq_getElem?_toList_append, hx]
  rfl

/-- The marker of a frame stays one with bytes around the frame. -/
theorem MarkerAt.between {bytes : List Byte} (h : MarkerAt bytes 0 v) (junk rest : List Byte) :
    MarkerAt (junk ++ bytes ++ rest) junk.length v := by
  have hbyte : (junk ++ bytes ++ rest)[junk.length]? = bytes[0]? := by
    rw [List.getElem?_append_left (by simpa using h.lt_length),
      List.getElem?_append_right le_rfl, Nat.sub_self]
  unfold MarkerAt at h ⊢
  rwa [hbyte]

theorem exists_markerAt_iff :
    (∃ v, MarkerAt buf i v) ↔ ∃ x, buf[i]? = some x ∧ (markerVersion? x).isSome = true := by
  simp only [markerAt_iff, Option.isSome_iff_exists]
  exact ⟨fun ⟨v, x, hx, hv⟩ => ⟨x, hx, v, hv⟩, fun ⟨x, hx, v, hv⟩ => ⟨v, x, hx, hv⟩⟩

/-- `nextMarker` finds the smallest index that holds a marker (R220). -/
theorem nextMarker_eq_some_iff {pos : Nat} :
    nextMarker buf pos = some i ↔
      pos ≤ i ∧ (∃ v, MarkerAt buf i v) ∧ ∀ j, pos ≤ j → j < i → ∀ v, ¬ MarkerAt buf j v := by
  simp only [exists_markerAt_iff, nextMarker, Option.map_eq_some_iff,
    List.findIdx?_eq_some_iff_getElem, List.getElem_drop, List.length_drop]
  constructor
  · rintro ⟨k, ⟨hk, hmark, hbefore⟩, rfl⟩
    refine ⟨by omega, ⟨_, List.getElem?_eq_getElem _, hmark⟩, ?_⟩
    intro j hj hjk v hv
    obtain ⟨x, hx, hxmark⟩ := exists_markerAt_iff.mp ⟨v, hv⟩
    obtain ⟨hlt, rfl⟩ := List.getElem?_eq_some_iff.mp hx
    refine hbefore (j - pos) (by omega) ?_
    simpa only [Nat.add_sub_cancel' hj] using hxmark
  · rintro ⟨hpos, ⟨x, hx, hmark⟩, hbefore⟩
    obtain ⟨hlt, rfl⟩ := List.getElem?_eq_some_iff.mp hx
    refine ⟨i - pos, ⟨by omega, ?_, fun j hj hjmark => ?_⟩, by omega⟩
    · simpa only [Nat.add_sub_cancel' hpos] using hmark
    · obtain ⟨w, hw⟩ := exists_markerAt_iff.mpr ⟨_, List.getElem?_eq_getElem _, hjmark⟩
      exact hbefore (pos + j) (by omega) (by omega) w hw

/-- `nextMarker` finds none only where there is none (R220). -/
theorem not_markerAt_of_nextMarker_none {pos : Nat} (h : nextMarker buf pos = none) (hi : pos ≤ i)
    (v : Version) : ¬ MarkerAt buf i v := by
  intro hmark
  obtain ⟨x, hx, hsome⟩ := exists_markerAt_iff.mp ⟨v, hmark⟩
  rw [nextMarker, Option.map_eq_none_iff, List.findIdx?_eq_none_iff] at h
  have hmem : x ∈ buf.drop pos := by
    refine List.mem_of_getElem? (i := i - pos) ?_
    rwa [List.getElem?_drop, Nat.add_sub_cancel' hi]
  simp [h x hmem] at hsome

end Markers

/-! ### The scan, index by index -/

section Scan

variable {cat : Cells Entry} {m : Mode} {buf : List Byte} {pos i : Nat} {last : Option Err}
  {v : Version}

theorem scan_past_end (h : buf.length ≤ pos) :
    scan cat m pos (buf.drop pos) last = .exhausted (last.getD .startMarkerNotFound) := by
  rw [List.drop_eq_nil_of_le h, scan]

theorem scan_at_ok {f : Frame} {size : Nat} (hmark : MarkerAt buf pos v)
    (htry : tryCandidate cat m v (buf.drop pos) = .ok f size) :
    scan cat m pos (buf.drop pos) last = .found f pos (pos + size) := by
  obtain ⟨x, hx, hdrop⟩ := hmark.drop_eq
  rw [hdrop] at htry ⊢
  simp only [scan, hx, htry]

theorem scan_at_needMore (hmark : MarkerAt buf pos v)
    (htry : tryCandidate cat m v (buf.drop pos) = .needMore) :
    scan cat m pos (buf.drop pos) last = .needMore pos := by
  obtain ⟨x, hx, hdrop⟩ := hmark.drop_eq
  rw [hdrop] at htry ⊢
  simp only [scan, hx, htry]

theorem scan_at_fail {r : Err} (hmark : MarkerAt buf pos v)
    (htry : tryCandidate cat m v (buf.drop pos) = .fail r) :
    scan cat m pos (buf.drop pos) last = scan cat m (pos + 1) (buf.drop (pos + 1)) (some r) := by
  obtain ⟨x, hx, hdrop⟩ := hmark.drop_eq
  rw [hdrop] at htry ⊢
  simp only [scan, hx, htry]

/-- A byte that is no marker is passed over (R220). -/
theorem scan_at_other (hno : ∀ v, ¬ MarkerAt buf pos v) :
    scan cat m pos (buf.drop pos) last = scan cat m (pos + 1) (buf.drop (pos + 1)) last := by
  rcases Nat.lt_or_ge pos buf.length with hlt | hge
  · have hnone : markerVersion? buf[pos] = none := Option.eq_none_iff_forall_ne_some.mpr fun v hv =>
      hno v ((markerAt_iff buf pos v).mpr ⟨_, List.getElem?_eq_getElem hlt, hv⟩)
    rw [List.drop_eq_getElem_cons hlt, scan, hnone]
  · rw [scan_past_end hge, scan_past_end (by omega)]

/-- Bytes without a marker are passed over (R220). -/
theorem scan_to (hle : pos ≤ i) (hno : ∀ j, pos ≤ j → j < i → ∀ v, ¬ MarkerAt buf j v) :
    scan cat m pos (buf.drop pos) last = scan cat m i (buf.drop i) last := by
  induction i, hle using Nat.le_induction with
  | base => rfl
  | succ i hle ih =>
    rw [ih fun j hj hji => hno j hj (by omega), scan_at_other (hno i hle (by omega))]

/-- The scan is the loop of R230 and R232 over `nextMarker`. -/
theorem scanLoop (cat : Cells Entry) (m : Mode) (buf : List Byte) : ScanLoop cat m buf := by
  intro pos last
  cases hnext : nextMarker buf pos with
  | none =>
    have hno := fun j hj (_ : j < max pos buf.length) =>
      not_markerAt_of_nextMarker_none (i := j) hnext hj
    rw [scan_to (le_max_left _ _) hno, scan_past_end (le_max_right _ _)]
  | some i =>
    obtain ⟨hle, ⟨v, hmark⟩, hno⟩ := nextMarker_eq_some_iff.mp hnext
    simp only [scan_to hle hno, hmark.version_eq]
    cases htry : tryCandidate cat m v (buf.drop i) with
    | ok f size => exact scan_at_ok hmark htry
    | fail r => exact scan_at_fail hmark htry
    | needMore => exact scan_at_needMore hmark htry

end Scan

/-- Settles O31: `nextMarker` is the smallest index of a marker, and the scan skips to it. -/
theorem scanFollowsNextMarker : Obligations.ScanFollowsNextMarker :=
  ⟨fun _ _ _ => nextMarker_eq_some_iff, scanLoop⟩

/-! ### Candidates that fail, and how a scan ends -/

/-- `last` is the reason of the last candidate before `pos`, none where there is no candidate
(R231). -/
def LastReason (cat : Cells Entry) (m : Mode) (buf : List Byte) (pos : Nat) : Option Err → Prop
  | none => ∀ i < pos, ∀ v, ¬ MarkerAt buf i v
  | some r =>
    ∃ i < pos, ∃ v, MarkerAt buf i v ∧ tryCandidate cat m v (buf.drop i) = .fail r ∧
      ∀ j, i < j → j < pos → ∀ w, ¬ MarkerAt buf j w

section Ends

variable {cat : Cells Entry} {m : Mode} {buf : List Byte} {pos i j : Nat} {last : Option Err}
  {v : Version}

theorem LastReason.succ (h : LastReason cat m buf pos last) (hno : ∀ v, ¬ MarkerAt buf pos v) :
    LastReason cat m buf (pos + 1) last := by
  have hcases {j : Nat} (hj : j < pos + 1) : j < pos ∨ j = pos := by omega
  cases last with
  | none =>
    intro j hj
    rcases hcases hj with hj | rfl
    · exact h j hj
    · exact hno
  | some r =>
    obtain ⟨i, hi, v, hmark, htry, hlater⟩ := h
    refine ⟨i, by omega, v, hmark, htry, fun j hij hj => ?_⟩
    rcases hcases hj with hj | rfl
    · exact hlater j hij hj
    · exact hno

theorem lastReason_of_fail {r : Err} (hmark : MarkerAt buf pos v)
    (htry : tryCandidate cat m v (buf.drop pos) = .fail r) :
    LastReason cat m buf (pos + 1) (some r) :=
  ⟨pos, by omega, v, hmark, htry, fun j _ _ => by omega⟩

theorem AllFailBelow.mono (h : AllFailBelow cat m buf j) (hij : i ≤ j) :
    AllFailBelow cat m buf i :=
  fun k hk => h k (hk.trans_le hij)

theorem AllFailBelow.succ (h : AllFailBelow cat m buf j)
    (hj : ∀ v, MarkerAt buf j v → ∃ r, tryCandidate cat m v (buf.drop j) = .fail r) :
    AllFailBelow cat m buf (j + 1) := by
  intro i hi
  rcases Nat.lt_succ_iff_lt_or_eq.mp hi with hi | rfl
  · exact h i hi
  · exact hj

/-- A candidate that does not fail lies at or beyond the index below which all do. -/
theorem AllFailBelow.le_of_not_fail (h : AllFailBelow cat m buf j) (hmark : MarkerAt buf i v)
    (hne : ∀ r, tryCandidate cat m v (buf.drop i) ≠ .fail r) : j ≤ i := by
  by_contra hlt
  obtain ⟨r, hr⟩ := h i (by omega) v hmark
  exact hne r hr

/-- Either all candidates fail, or there is a first one that does not. -/
theorem allFailBelow_or_first (cat : Cells Entry) (m : Mode) (buf : List Byte) (n : Nat) :
    AllFailBelow cat m buf n ∨
      ∃ j v, AllFailBelow cat m buf j ∧ MarkerAt buf j v ∧
        ∀ r, tryCandidate cat m v (buf.drop j) ≠ .fail r := by
  induction n with
  | zero => exact .inl fun i hi => by omega
  | succ n ih =>
    rcases ih with hall | hfirst
    · by_cases hn : ∀ v, MarkerAt buf n v → ∃ r, tryCandidate cat m v (buf.drop n) = .fail r
      · exact .inl (hall.succ hn)
      · push Not at hn
        obtain ⟨v, hmark, hne⟩ := hn
        exact .inr ⟨n, v, hall, hmark, hne⟩
    · exact .inr hfirst

/-- A SCAN GOES ON PAST EVERY CANDIDATE THAT FAILS, and keeps the last reason (R230 to R232). -/
theorem AllFailBelow.scan_eq (h : AllFailBelow cat m buf j) :
    ∃ last, LastReason cat m buf j last ∧
      scan cat m 0 buf none = scan cat m j (buf.drop j) last := by
  induction j with
  | zero => exact ⟨none, fun i hi => by omega, rfl⟩
  | succ j ih =>
    obtain ⟨last, hlast, heq⟩ := ih (h.mono (Nat.le_succ j))
    rw [heq]
    by_cases hmark : ∃ v, MarkerAt buf j v
    · obtain ⟨v, hmark⟩ := hmark
      obtain ⟨r, htry⟩ := h j (Nat.lt_succ_self j) v hmark
      exact ⟨some r, lastReason_of_fail hmark htry, scan_at_fail hmark htry⟩
    · rw [not_exists] at hmark
      exact ⟨last, hlast.succ hmark, scan_at_other hmark⟩

/-- The first candidate that decodes, with only failed ones before it, ends the scan (R230). -/
theorem AllFailBelow.scan_found {f : Frame} {size : Nat} (h : AllFailBelow cat m buf j)
    (hmark : MarkerAt buf j v) (htry : tryCandidate cat m v (buf.drop j) = .ok f size) :
    scan cat m 0 buf none = .found f j (j + size) := by
  obtain ⟨last, -, heq⟩ := h.scan_eq
  rw [heq, scan_at_ok hmark htry]

/-- The shortest frame is a v1 frame without payload (R116). -/
theorem eight_le_candidateBytes (v : Version) (b : List Byte) : 8 ≤ candidateBytes v b := by
  unfold candidateBytes
  cases v <;> simp only [headerBytesOf] <;> omega

/-- A candidate that decodes takes up at least one byte and lies inside the bytes given (R221). -/
theorem size_of_tryCandidate_ok {b : List Byte} {f : Frame} {size : Nat}
    (h : tryCandidate cat m v b = .ok f size) : 0 < size ∧ size ≤ b.length := by
  obtain ⟨hle, _, -, -, -, -, hf⟩ := tryCandidate_ok h
  have hleast := eight_le_candidateBytes v b
  omega

end Ends

/-- Settles O32: the scan ends at the first candidate that does not fail, or passes them all. -/
theorem scanReportsLastReason : Obligations.ScanReportsLastReason := by
  intro cat m buf
  rcases allFailBelow_or_first cat m buf buf.length with hall | ⟨j, v, hbelow, hmark, hne⟩
  · obtain ⟨last, hlast, heq⟩ := hall.scan_eq
    rw [heq, scan_past_end le_rfl]
    refine ⟨hall, ?_⟩
    cases last with
    | none => exact .inl ⟨rfl, fun i v hm => hlast i hm.lt_length v hm⟩
    | some r =>
      obtain ⟨i, -, v, hm, htry, hlater⟩ := hlast
      exact .inr ⟨i, v, hm, htry, fun j hj w hw => hlater j hj hw.lt_length w hw⟩
  · have hlt := hmark.lt_length
    cases htry : tryCandidate cat m v (buf.drop j) with
    | ok f size =>
      obtain ⟨hpos, hsize⟩ := size_of_tryCandidate_ok htry
      rw [List.length_drop] at hsize
      rw [hbelow.scan_found hmark htry]
      exact ⟨by omega, by omega, hbelow, v, hmark, by rwa [Nat.add_sub_cancel_left]⟩
    | fail r => exact absurd htry (hne r)
    | needMore =>
      obtain ⟨last, -, heq⟩ := hbelow.scan_eq
      rw [heq, scan_at_needMore hmark htry]
      exact ⟨tryCandidate_needMore htry, hlt, hbelow, v, hmark, htry⟩

/-! ### PARSE and PARSE_STREAM -/

theorem statusOf_eq_errStatus {r : Err} (h : r ≠ .none) : statusOf r = errStatus r.code := by
  simp [statusOf, errStatus, h]

/-- A count written to CONSUMED or EXAMINED stays the count. -/
theorem ofNat_count (n : Count) : BitVec.ofNat 16 n.toNat = n := by
  rw [BitVec.ofNat_toNat, BitVec.setWidth_eq]

section Reasons

variable {cat : Cells Entry} {buf : List Byte} {r : Err}

theorem scan_exhausted_status {m : Mode} (h : scan cat m 0 buf none = .exhausted r) :
    statusOf r = errStatus r.code :=
  statusOf_eq_errStatus fun hr => scan_exhausted_ne_none (hr ▸ h)

/-- The codes of a discrete scan that finds no frame (R230, R231). -/
theorem scan_discrete_code (h : scan cat .discrete 0 buf none = .exhausted r) :
    r.code ∈ [6, 7, 9, 10, 11, 13, 14] := by
  have hr := scan_exhausted h
  simp only [CandidateReason, List.mem_cons, List.not_mem_nil, or_false, true_and] at hr
  rcases hr with rfl | (rfl | rfl | rfl | rfl) | rfl | rfl <;> decide

/-- The codes of a stream scan that finds no frame: 7 and 14 are discrete mode's alone (R232). -/
theorem scan_stream_code (h : scan cat .stream 0 buf none = .exhausted r) :
    r.code ∈ [6, 9, 10, 11, 13] := by
  have hr := scan_exhausted h
  simp only [CandidateReason, List.mem_cons, List.not_mem_nil, or_false, reduceCtorEq,
    false_and] at hr
  rcases hr with rfl | rfl | rfl | rfl | rfl <;> decide

/-- A lack of bytes is a failure in discrete mode (R229, R230). -/
theorem scan_discrete_ne_needMore (c : Nat) : scan cat .discrete 0 buf none ≠ .needMore c := by
  intro h
  cases (scan_needMore h).1

end Reasons

section Commands

variable {s : State} {n : Count} {f : Frame} {a b c : Nat} {r : Err}

/-- A frame found lies inside the bytes counted (R230, R232). -/
theorem scan_found_bounds {m : Mode}
    (hscan : scan s.cat m 0 (s.inPrefix n.toNat) none = .found f a b) : a < b ∧ b ≤ n.toNat := by
  have hends := scanReportsLastReason s.cat m (s.inPrefix n.toNat)
  rw [hscan] at hends
  obtain ⟨hab, hb, -, -⟩ := hends
  exact ⟨hab, by simpa using hb⟩

/-- The word of R230 and R119 for a frame found: a count has 16 bits. -/
theorem scan_found_parseWord {m : Mode}
    (hscan : scan s.cat m 0 (s.inPrefix n.toNat) none = .found f a b) :
    parseWord a b = BitVec.ofNat 64 (a * 65536 + b) :=
  parseWord_eq a b ((scan_found_bounds hscan).2.trans_lt n.isLt)

/-- A count above IN_CAP is illegal (R103, R104). -/
theorem exec_parse_gt (hn : s.params.inCap < n.toNat) : exec (.parse n) s = failed 17 s := by
  rw [exec, execParse, withInCount_gt _ hn]
  rfl

theorem exec_parseStream_gt (hn : s.params.inCap < n.toNat) :
    exec (.parseStream n) s = failed 17 s := by
  rw [exec, execParseStream, withInCount_gt _ hn]
  rfl

variable (hn : n.toNat ≤ s.params.inCap)

include hn

theorem exec_parse_uninit (hinit : s.init = false) : exec (.parse n) s = failed 1 s := by
  rw [exec, execParse, withInCount_le _ hn, whenInit_of_uninit hinit]

/-- PARSE of a frame found: RESULT is `(start << 16) | end` (R230). -/
theorem exec_parse_found (hinit : s.init = true)
    (hscan : scan s.cat .discrete 0 (s.inPrefix n.toNat) none = .found f a b) :
    exec (.parse n) s =
      .next { s with
        frame := f, result := BitVec.ofNat 64 (a * 65536 + b), status := okStatus } := by
  rw [exec, execParse, withInCount_le _ hn, whenInit_of_init hinit, hscan,
    ← scan_found_parseWord hscan]
  rfl

theorem exec_parse_exhausted (hinit : s.init = true)
    (hscan : scan s.cat .discrete 0 (s.inPrefix n.toNat) none = .exhausted r) :
    exec (.parse n) s = .next { s with frame := Frame.zero, status := errStatus r.code } := by
  rw [exec, execParse, withInCount_le _ hn, whenInit_of_init hinit, hscan,
    ← scan_exhausted_status hscan]
  rfl

/-- PARSE_STREAM before CAT_INIT reports no progress (R232, D40). -/
theorem exec_parseStream_uninit (hinit : s.init = false) :
    exec (.parseStream n) s =
      .next { s with consumed := 0, examined := 0, status := errStatus 1 } := by
  rw [exec, execParseStream, withInCount_le _ hn, if_neg (by simp [hinit])]
  rfl

/-- PARSE_STREAM of a frame found: the bytes up to its end are consumed (R232). -/
theorem exec_parseStream_found (hinit : s.init = true)
    (hscan : scan s.cat .stream 0 (s.inPrefix n.toNat) none = .found f a b) :
    exec (.parseStream n) s =
      .next { s with
        frame := f
        result := BitVec.ofNat 64 (a * 65536 + b)
        consumed := BitVec.ofNat 16 b
        examined := BitVec.ofNat 16 b
        status := okStatus } := by
  rw [exec, execParseStream, withInCount_le _ hn, if_pos hinit, hscan,
    ← scan_found_parseWord hscan]
  rfl

/-- PARSE_STREAM at a candidate that needs more: the bytes before it are consumed (R232). -/
theorem exec_parseStream_needMore (hinit : s.init = true)
    (hscan : scan s.cat .stream 0 (s.inPrefix n.toNat) none = .needMore c) :
    exec (.parseStream n) s =
      .next { s with
        frame := Frame.zero
        consumed := BitVec.ofNat 16 c
        examined := n
        status := errStatus 16 } := by
  rw [exec, execParseStream, withInCount_le _ hn, if_pos hinit, hscan]
  simp only [raise, setStream, ofNat_count]
  rfl

/-- PARSE_STREAM without a frame: all the bytes are consumed (R232). -/
theorem exec_parseStream_exhausted (hinit : s.init = true)
    (hscan : scan s.cat .stream 0 (s.inPrefix n.toNat) none = .exhausted r) :
    exec (.parseStream n) s =
      .next { s with
        frame := Frame.zero, consumed := n, examined := n, status := errStatus r.code } := by
  rw [exec, execParseStream, withInCount_le _ hn, if_pos hinit, hscan,
    ← scan_exhausted_status hscan]
  simp only [raise, setStream, ofNat_count]
  rfl

end Commands

/-- Settles O33: PARSE by the outcome of its scan; a discrete scan never asks for more (R229). -/
theorem parseLoadsFrame : Obligations.ParseLoadsFrame := by
  intro s n
  exact ⟨scanLoop _ _ _,
    fun f a b _ hn hinit hscan => ⟨exec_parse_found hn hinit hscan, scan_found_bounds hscan⟩,
    fun r hn hinit hscan => ⟨exec_parse_exhausted hn hinit hscan, scan_discrete_code hscan⟩,
    scan_discrete_ne_needMore, exec_parse_uninit, exec_parse_gt, wordRuns_operands .parse s⟩

/-- Settles O34: PARSE_STREAM by the outcome of its scan. -/
theorem parseStreamReportsProgress : Obligations.ParseStreamReportsProgress := by
  intro s n
  exact ⟨scanLoop _ _ _,
    fun f a b _ hn hinit hscan =>
      ⟨exec_parseStream_found hn hinit hscan, scan_found_bounds hscan⟩,
    fun c hn hinit hscan =>
      ⟨exec_parseStream_needMore hn hinit hscan, by simpa using (scan_needMore hscan).2⟩,
    fun r hn hinit hscan =>
      ⟨exec_parseStream_exhausted hn hinit hscan, scan_stream_code hscan⟩,
    exec_parseStream_uninit, exec_parseStream_gt, wordRuns_operands .parseStream s⟩

/-- Settles O35: where the scan stops, CONSUMED is at or beyond every candidate that failed. -/
theorem everyFailedCandidateIsConsumed : Obligations.EveryFailedCandidateIsConsumed := by
  intro s t n i v _ hinit hn hexec hi _ hfail
  have hlt := n.isLt
  have hends := scanReportsLastReason s.cat .stream (s.inPrefix n.toNat)
  cases hscan : scan s.cat .stream 0 (s.inPrefix n.toNat) none with
  | found f a b =>
    obtain ⟨hab, hb⟩ := scan_found_bounds hscan
    rw [hscan] at hends
    obtain ⟨-, -, -, w, hmark, htry⟩ := hends
    have hle : i + 1 ≤ a := hfail.le_of_not_fail hmark (by simp [htry])
    cases (exec_parseStream_found hn hinit hscan).symm.trans hexec
    rw [BitVec.toNat_ofNat, Nat.mod_eq_of_lt (by omega)]
    omega
  | needMore c =>
    rw [hscan] at hends
    obtain ⟨-, hc, -, w, hmark, htry⟩ := hends
    rw [inPrefix_length] at hc
    have hle : i + 1 ≤ c := hfail.le_of_not_fail hmark (by simp [htry])
    cases (exec_parseStream_needMore hn hinit hscan).symm.trans hexec
    rwa [BitVec.toNat_ofNat, Nat.mod_eq_of_lt (by omega)]
  | exhausted r =>
    cases (exec_parseStream_exhausted hn hinit hscan).symm.trans hexec
    exact hi

/-! ### Bytes after a candidate

What decodes reads no byte beyond its size, so bytes after it change nothing (R221). -/

theorem portion_append {b : List Byte} {a k : Nat} (h : a + k ≤ b.length) (rest : List Byte) :
    portion (b ++ rest) a k = portion b a k := by
  rw [portion, portion, List.drop_append_of_le_length (by omega),
    List.take_append_of_le_length (by rw [List.length_drop]; omega)]

section Append

variable {v : Version} {b : List Byte}

theorem headerFrame_append (h : headerBytesOf v ≤ b.length) (rest : List Byte) :
    headerFrame v (b ++ rest) = headerFrame v b := by
  cases v with
  | v1 | v2 =>
    simp only [headerBytesOf] at h
    simp (disch := omega) only [headerFrame, List.getD_append]

theorem candidateId_append (h : headerBytesOf v ≤ b.length) (rest : List Byte) :
    candidateId v (b ++ rest) = candidateId v b := by
  rw [← headerFrame_msgId, headerFrame_append h, headerFrame_msgId]

theorem candidateLen_append (h : headerBytesOf v ≤ b.length) (rest : List Byte) :
    (b ++ rest).getD 1 0 = b.getD 1 0 := by
  rw [← headerFrame_len v, headerFrame_append h, headerFrame_len]

theorem candidateSigned_append (h : headerBytesOf v ≤ b.length) (rest : List Byte) :
    candidateSigned v (b ++ rest) = candidateSigned v b := by
  rw [Bool.eq_iff_iff, ← headerFrame_signed, headerFrame_append h, headerFrame_signed]

theorem candidateBytes_append (h : headerBytesOf v ≤ b.length) (rest : List Byte) :
    candidateBytes v (b ++ rest) = candidateBytes v b := by
  rw [candidateBytes, candidateLen_append h, candidateBytes]

theorem headerBytesOf_le (h : candidateBytes v b ≤ b.length) : headerBytesOf v ≤ b.length := by
  unfold candidateBytes at h
  omega

variable (h : candidateBytes v b ≤ b.length) (rest : List Byte)

include h

theorem wireChecksum_append : wireChecksum v (b ++ rest) = wireChecksum v b := by
  have hleast := eight_le_candidateBytes v b
  rw [wireChecksum, candidateBytes_append (headerBytesOf_le h), List.getD_append _ _ _ _ (by omega),
    List.getD_append _ _ _ _ (by omega), wireChecksum]

theorem computedChecksum_append (x : Byte) :
    computedChecksum x v (b ++ rest) = computedChecksum x v b := by
  have hleast := eight_le_candidateBytes v b
  have hcovered : portion (b ++ rest) 1 (candidateBytes v b - 3) = _ :=
    portion_append (by omega) rest
  unfold portion at hcovered
  rw [computedChecksum, candidateBytes_append (headerBytesOf_le h), hcovered, computedChecksum]

theorem bodyFrame_append : bodyFrame v (b ++ rest) = bodyFrame v b := by
  have hheader := headerBytesOf_le h
  have hpayload : headerLength v + (b.getD 1 0).toNat ≤ b.length := by
    rw [headerLength_eq]
    unfold candidateBytes at h
    omega
  rw [bodyFrame, headerFrame_append hheader, wireChecksum_append h, candidateLen_append hheader,
    portion_append hpayload, bodyFrame]

end Append

theorem signedFrame_append {v : Version} {b : List Byte} (h : candidateBytes v b + 13 ≤ b.length)
    (rest : List Byte) : signedFrame v (b ++ rest) = signedFrame v b := by
  have hwhole : candidateBytes v b ≤ b.length := by omega
  rw [signedFrame, bodyFrame_append hwhole, candidateBytes_append (headerBytesOf_le hwhole),
    portion_append h, signedFrame]

theorem DecodesTo.append {cat : Cells Entry} {v : Version} {b : List Byte} {f : Frame} {size : Nat}
    (h : DecodesTo cat v b f size) (rest : List Byte) : DecodesTo cat v (b ++ rest) f size := by
  obtain ⟨hsize, e, he, hincl, hlen, hck, hf⟩ := h
  have hwhole : candidateBytes v b ≤ b.length := by omega
  have hheader := headerBytesOf_le hwhole
  refine ⟨hsize.trans (by simp), e, ?_⟩
  rw [candidateId_append hheader, candidateLen_append hheader, computedChecksum_append hwhole,
    wireChecksum_append hwhole, candidateSigned_append hheader, candidateBytes_append hheader,
    bodyFrame_append hwhole]
  refine ⟨he, hincl, hlen, hck, hf.imp_right ?_⟩
  rintro ⟨hsigned, rfl, rfl⟩
  exact ⟨hsigned, (signedFrame_append hsize rest).symm, rfl⟩

/-! ### Resynchronization (R237) -/

section Resync

variable {cat : Cells Entry} {m : Mode} {v : Version} {junk bytes rest : List Byte} {f : Frame}

/-- Junk in which no candidate decodes or needs more is junk in which all fail. -/
theorem allFailBelow_junk
    (h : junk = [] ∨ rest = [] ∧ ∀ i < junk.length, ∀ w, MarkerAt (junk ++ bytes) i w →
      (∀ g k, tryCandidate cat m w ((junk ++ bytes).drop i) ≠ .ok g k) ∧
        tryCandidate cat m w ((junk ++ bytes).drop i) ≠ .needMore) :
    AllFailBelow cat m (junk ++ bytes ++ rest) junk.length := by
  rcases h with rfl | ⟨rfl, hjunk⟩
  · exact fun i hi => nomatch hi
  · rw [List.append_nil]
    intro i hi w hmark
    obtain ⟨hok, hmore⟩ := hjunk i hi w hmark
    cases htry : tryCandidate cat m w ((junk ++ bytes).drop i) with
    | ok g k => exact absurd htry (hok g k)
    | fail r => exact ⟨r, rfl⟩
    | needMore => exact absurd htry hmore

/-- A frame behind junk in which every candidate fails, with any bytes after it, is found. -/
theorem scan_found_between (hjunk : AllFailBelow cat m (junk ++ bytes ++ rest) junk.length)
    (hmark : MarkerAt bytes 0 v) (htry : tryCandidate cat m v bytes = .ok f bytes.length) :
    scan cat m 0 (junk ++ bytes ++ rest) none =
      .found f junk.length (junk.length + bytes.length) := by
  refine hjunk.scan_found (hmark.between junk rest) ?_
  rw [List.append_assoc, List.drop_left]
  exact tryCandidate_ok_iff.mpr ((tryCandidate_ok htry).append rest)

end Resync

/-- Settles O36: the frame is found behind the junk; in discrete mode no candidate asks for more. -/
theorem scannerResynchronizes : Obligations.ScannerResynchronizes := by
  intro s n v junk bytes rest f _ hinit hn hbuf hmark
  refine ⟨fun htry hjunk => exec_parse_found hn hinit ?_,
    fun htry hjunk => exec_parseStream_found hn hinit ?_⟩
  · rw [hbuf]
    refine scan_found_between (allFailBelow_junk ?_) hmark htry
    refine hjunk.imp_right (And.imp_right fun hno i hi w hw => ⟨hno i hi w hw, fun hmore => ?_⟩)
    cases tryCandidate_needMore hmore
  · rw [hbuf]
    exact scan_found_between (allFailBelow_junk hjunk) hmark htry

end Sys2Proof.Machine
end

section
/-! PROOFS. The serializer family (`44_serializer.md`): FRAME_NEW and SET_HEADER behind their guards,
the emitted payload length, and what SERIALIZE puts in OUT. -/

namespace Sys2Proof.Machine

/-! ### FRAME_NEW -/

/-- The one-bit operand of format FM, as a test of the bit (R101). -/
theorem ofBit_extractLsb' (w : Word) (i : Nat) :
    Version.ofBit (w.extractLsb' i 1) = if w.getLsbD i then .v2 else .v1 := by
  have hbit : w.extractLsb' i 1 = BitVec.ofBool (w.getLsbD i) := by
    ext j hj
    obtain rfl : j = 0 := by omega
    simp
  rw [hbit]
  cases w.getLsbD i <;> rfl

/-- The frame that FRAME_NEW starts (R260). -/
def newFrame (id : MsgId) (ver : Version) (e : Entry) : Frame :=
  { Frame.zero with valid := true, ver := ver, msgId := id, len := e.limit ver }

section FrameNew

variable {s : State} {id : MsgId} {ver : Version} {e : Entry}

theorem exec_frameNew_uninit (hinit : s.init = false) :
    exec (.frameNew id ver) s = failed 1 s := by
  rw [exec, execFrameNew, whenInit_of_uninit hinit]

theorem exec_frameNew_unknown (hinit : s.init = true) (hnone : s.catEntry id = none) :
    exec (.frameNew id ver) s = failed 9 s := by
  rw [exec, execFrameNew, whenInit_of_init hinit, hnone]
  rfl

theorem exec_frameNew_outOfRange (hinit : s.init = true) (he : s.catEntry id = some e)
    (hver : ver = .v1) (hid : 255 < id.toNat) : exec (.frameNew id ver) s = failed 19 s := by
  simp only [exec, execFrameNew, whenInit_of_init hinit, he]
  rw [if_pos ⟨hver, hid⟩]
  rfl

theorem exec_frameNew (hinit : s.init = true) (he : s.catEntry id = some e)
    (hid : ver = .v1 → id.toNat ≤ 255) :
    exec (.frameNew id ver) s =
      .next { s with frame := newFrame id ver e, status := okStatus } := by
  simp only [exec, execFrameNew, whenInit_of_init hinit, he]
  rw [if_neg fun h => absurd (hid h.1) (Nat.not_le.mpr h.2)]
  rfl

end FrameNew

/-- Settles O38: the frame started is the cleared one but for VALID, VER, MSGID and LEN. -/
theorem frameNewStartsFrame : Obligations.FrameNewStartsFrame := by
  intro s id ver
  refine ⟨fun e hinit he hid => ⟨newFrame id ver e, exec_frameNew hinit he hid, rfl, rfl, rfl, ?_,
      rfl, rfl, rfl, rfl, rfl, rfl, rfl, byteAt_zeros 13, byteAt_zeros 255⟩,
    exec_frameNew_uninit, exec_frameNew_unknown, fun e => exec_frameNew_outOfRange, ?_⟩
  · cases ver <;> rfl
  · simp only [← ofBit_extractLsb']
    exact wordRuns_operands .frameNew s

/-! ### SET_HEADER -/

theorem whenFrame_uninit {s : State} (hinit : s.init = false) (run : Out) :
    whenFrame s run = failed 1 s := by
  rw [whenFrame, whenInit_of_uninit hinit]

theorem whenFrame_noFrame {s : State} (hinit : s.init = true) (hvalid : s.frame.valid = false)
    (run : Out) : whenFrame s run = failed 21 s := by
  rw [whenFrame, whenInit_of_init hinit, if_neg (by simp [hvalid])]
  rfl

theorem whenFrame_held {s : State} (hinit : s.init = true) (hvalid : s.frame.valid = true)
    (run : Out) : whenFrame s run = run := by
  rw [whenFrame, whenInit_of_init hinit, if_pos hvalid]

/-- Settles O39: what the version of the frame held selects, behind the guards. -/
theorem setHeaderWritesHeader : Obligations.SetHeaderWritesHeader := by
  intro s seq sys comp incompat compat
  refine ⟨fun hinit hvalid hver => ?_, fun hinit hvalid hver => ?_,
    fun hinit => whenFrame_uninit hinit _, fun hinit hvalid => whenFrame_noFrame hinit hvalid _,
    wordRuns_operands .setHeader s⟩
  · rw [exec, execSetHeader, whenFrame_held hinit hvalid, hver]
    rfl
  · rw [exec, execSetHeader, whenFrame_held hinit hvalid, hver]
    rfl

/-! ### The emitted payload length -/

section Trim

variable {p : Vector Byte 255} {m : Nat}

/-- Trimming keeps one byte (R262, log entry 7). -/
theorem one_le_trimmed (hm : 0 < m) : 1 ≤ trimmed p m := by
  fun_induction trimmed p m with
  | case1 => exact hm
  | case2 => exact le_rfl
  | case3 j hbyte => exact Nat.succ_pos _
  | case4 j hbyte ih => exact ih (Nat.succ_pos j)

/-- Trimming stops at a byte that is not 0, or at the first (R262). -/
theorem trimmed_stops (hm : 0 < m) : byteAt p (trimmed p m - 1) ≠ 0 ∨ trimmed p m = 1 := by
  fun_induction trimmed p m with
  | case1 => exact absurd hm (Nat.lt_irrefl 0)
  | case2 => exact .inr rfl
  | case3 j hbyte => exact .inl hbyte
  | case4 j hbyte ih => exact ih (Nat.succ_pos j)

/-- The bytes that trimming drops are zero (R262). -/
theorem byteAt_of_trimmed_le {i : Nat} (hi : trimmed p m ≤ i) (him : i < m) : byteAt p i = 0 := by
  fun_induction trimmed p m with
  | case1 => exact absurd him (Nat.not_lt_zero i)
  | case2 => omega
  | case3 j hbyte => omega
  | case4 j hbyte ih =>
    rcases Nat.lt_succ_iff_lt_or_eq.mp him with hlt | rfl
    · exact ih hi hlt
    · exact not_not.mp hbyte

end Trim

section EmittedLength

variable {trim : Bool} {e : Entry} {f : Frame}

theorem emittedLength_v1 (hver : f.ver = .v1) : emittedLength trim e f = e.base.toNat := by
  rw [emittedLength, hver]

theorem emittedLength_v2 (hver : f.ver = .v2) :
    emittedLength trim e f = if trim then trimmed f.payload e.max.toNat else e.max.toNat := by
  rw [emittedLength, hver]

/-- No payload byte within the version's limit is lost but zeros (R262). -/
theorem byteAt_of_emittedLength_le {i : Nat} (hi : emittedLength trim e f ≤ i)
    (hlimit : i < (e.limit f.ver).toNat) : byteAt f.payload i = 0 := by
  cases hver : f.ver <;> rw [hver] at hlimit
  case v1 =>
    rw [emittedLength_v1 hver] at hi
    exact absurd hlimit (Nat.not_lt.mpr hi)
  case v2 =>
    rw [emittedLength_v2 hver] at hi
    split at hi
    · exact byteAt_of_trimmed_le hi hlimit
    · exact absurd hlimit (Nat.not_lt.mpr hi)

/-- A byte names the emitted length (R263). -/
theorem emittedLength_lt (trim : Bool) (e : Entry) (f : Frame) : emittedLength trim e f < 256 :=
  (emittedLength_le trim e f).trans_lt (e.limit f.ver).isLt

end EmittedLength

/-- Settles O40: the length of each version, and what trimming keeps and drops. -/
theorem emittedLengthIsTrimmed : Obligations.EmittedLengthIsTrimmed := by
  intro trim e f
  refine ⟨emittedLength_v1, fun hver htrim => ?_, fun hver htrim => ?_⟩
  · rw [emittedLength_v2 hver, if_neg (by simp [htrim])]
  · rw [emittedLength_v2 hver, if_pos htrim]
    exact ⟨fun hmax => Nat.le_zero.mp (hmax ▸ trimmed_le _ _),
      fun hmax => ⟨one_le_trimmed hmax, trimmed_le _ _, trimmed_stops hmax⟩,
      fun i => byteAt_of_trimmed_le⟩

/-! ### SERIALIZE -/

/-- What SERIALIZE leaves (R265). -/
def serialized (e : Entry) (s : State) : State :=
  let ln := emittedLength s.params.v2Trim e s.frame
  let bytes := frameBytes e s.frame ln
  { s with
    out := Bytes.ofList 280 bytes
    outLen := BitVec.ofNat 16 bytes.length
    result := BitVec.ofNat 64 bytes.length
    frame := { s.frame with len := BitVec.ofNat 8 ln, cksum := emittedChecksum e s.frame ln }
    status := okStatus }

theorem exec_serialize {s : State} {e : Entry} (hinit : s.init = true)
    (hvalid : s.frame.valid = true) (he : s.catEntry s.frame.msgId = some e) :
    exec .serialize s = .next (serialized e s) := by
  rw [exec, execSerialize, withFrameEntry_held hinit hvalid he]
  rfl

/-- The two bytes of a checksum, low byte first (R114, R265). -/
theorem bytesLe_two (ck : Crc16) : bytesLe 2 ck.toNat = [ck.extractLsb' 0 8, ck.extractLsb' 8 8] := by
  have hlow : BitVec.ofNat 8 ck.toNat = ck.extractLsb' 0 8 := by
    apply BitVec.eq_of_toNat_eq
    simp
  have hhigh : BitVec.ofNat 8 (ck.toNat / 256) = ck.extractLsb' 8 8 := by
    apply BitVec.eq_of_toNat_eq
    simp [Nat.shiftRight_eq_div_pow]
  rw [bytesLe, bytesLe, bytesLe, hlow, hhigh]

theorem slice_from_zero {n : Nat} (x : Vector Byte n) (b : Nat) :
    slice x 0 b = (List.range b).map (byteAt x) := by
  simp [slice]

/-- The bytes of a frame, spelled out as R263 to R265 do. -/
theorem frameBytes_eq (e : Entry) (f : Frame) (ln : Nat) :
    frameBytes e f ln =
      headerBytes f ln ++ (List.range ln).map (byteAt f.payload) ++
        [(emittedChecksum e f ln).extractLsb' 0 8, (emittedChecksum e f ln).extractLsb' 8 8] := by
  rw [frameBytes, bytesLe_two, slice_from_zero]

theorem emittedChecksum_eq (e : Entry) (f : Frame) (ln : Nat) :
    emittedChecksum e f ln =
      acc e.crcExtra
        (crcOf ((headerBytes f ln).tail ++ (List.range ln).map (byteAt f.payload))) := by
  rw [emittedChecksum, frameChecksum, slice_from_zero, List.drop_one]

theorem eight_le_frameBytes_length (e : Entry) (f : Frame) (ln : Nat) :
    8 ≤ (frameBytes e f ln).length := by
  have hheader : 6 ≤ headerLength f.ver := by cases f.ver <;> decide
  rw [frameBytes_length]
  omega

/-- A list that a window has room for is read back from it, and zero after it. -/
theorem byteAt_ofList_of_le {n : Nat} {l : List Byte} (h : l.length ≤ n) (i : Nat) :
    byteAt (Bytes.ofList n l) i = l.getD i 0 := by
  rw [byteAt_ofList]
  split
  · rfl
  · rw [List.getD_eq_default _ _ (by omega)]

/-- Settles O41: the frame's bytes, as `frameBytes_eq` spells them out, fit OUT. -/
theorem serializeEmitsFrame : Obligations.SerializeEmitsFrame := by
  intro s
  refine ⟨fun e hinit hvalid he => ?_,
    fun hinit => (whenFrame_uninit hinit _ : withFrameEntry s _ = _),
    fun hinit hvalid => (whenFrame_noFrame hinit hvalid _ : withFrameEntry s _ = _),
    wordRuns_operands .serialize s⟩
  intro f ln hdr payload ck bytes
  have hhdr : hdr = headerBytes f ln := by
    unfold headerBytes
    cases hver : f.ver <;> simp only [hdr, hver] <;> rfl
  have hck : ck = emittedChecksum e f ln := by rw [emittedChecksum_eq, ← hhdr]
  have hbytes : bytes = frameBytes e f ln := by rw [frameBytes_eq, ← hhdr, ← hck]
  have hmost : bytes.length ≤ 267 := hbytes ▸ frameBytes_length_le s.params.v2Trim e f
  refine ⟨hbytes ▸ eight_le_frameBytes_length e f ln, hmost, Bytes.ofList 280 bytes, ?_,
    byteAt_ofList_of_le (hmost.trans (by decide))⟩
  rw [exec_serialize hinit hvalid he, hbytes, hck]
  rfl

end Sys2Proof.Machine
end

section
/-! PROOFS. The round trip (R267). The bytes of a serialized frame are a candidate whose header gives
the header registers back, whose checksum is the one emitted, and whose payload is that of the frame
held up to the emitted length; from there to the version's limit the payload held is zero anyway. -/

namespace Sys2Proof.Machine

/-! ### The header on the wire -/

/-- The frame registers that the header of a serialized frame gives (R111, R112, R263). -/
def Frame.ofHeader (f : Frame) (ln : Nat) : Frame :=
  { Frame.zero with
    valid := true
    ver := f.ver
    len := BitVec.ofNat 8 ln
    seq := f.seq
    sysId := f.sysId
    compId := f.compId
    msgId := f.msgId
    incompat := f.incompat
    compat := f.compat }

/-- A v1 header has room for the frame: no flags and an id of one byte (R111, R224). -/
def Frame.FitsHeader (f : Frame) : Prop :=
  f.ver = .v1 → f.incompat = 0 ∧ f.compat = 0 ∧ f.msgId.toNat ≤ 255

theorem Frame.Fits.fitsHeader {f : Frame} {e : Entry} (h : f.Fits e) : f.FitsHeader := fun hver => by
  obtain ⟨hincompat, hcompat, -, hid⟩ := h.v1 hver
  exact ⟨hincompat, hcompat, hid⟩

/-- An id is read back from its three bytes on the wire, low byte first (R112). -/
theorem ofNat_msgId_bytes (id : MsgId) :
    BitVec.ofNat 24 (le [id.extractLsb' 0 8, id.extractLsb' 8 8, id.extractLsb' 16 8]) = id := by
  have hlt := id.isLt
  apply BitVec.eq_of_toNat_eq
  simp only [le_cons, le_nil, BitVec.toNat_ofNat, BitVec.extractLsb'_toNat,
    Nat.shiftRight_eq_div_pow]
  omega

/-- An id of one byte is read back from its low byte (R111). -/
theorem ofNat_msgId_byte {id : MsgId} (h : id.toNat ≤ 255) :
    BitVec.ofNat 24 (id.extractLsb' 0 8).toNat = id := by
  apply BitVec.eq_of_toNat_eq
  simp only [BitVec.toNat_ofNat, BitVec.extractLsb'_toNat, Nat.shiftRight_eq_div_pow]
  omega

section Wire

variable {e : Entry} {f : Frame} {ln : Nat}

theorem headerBytes_length (f : Frame) (ln : Nat) :
    (headerBytes f ln).length = headerBytesOf f.ver := by
  unfold headerBytes
  cases f.ver <;> rfl

/-- THE HEADER READS BACK: what SERIALIZE emits of the header registers, a parse takes in (R221,
R263). -/
theorem headerFrame_headerBytes (h : f.FitsHeader) :
    headerFrame f.ver (headerBytes f ln) = f.ofHeader ln := by
  unfold headerBytes Frame.ofHeader
  cases hver : f.ver with
  | v1 =>
    obtain ⟨hincompat, hcompat, hid⟩ := h hver
    simp only [headerFrame, List.getD_cons_zero, List.getD_cons_succ, ofNat_msgId_byte hid,
      hincompat, hcompat]
    rfl
  | v2 =>
    simp only [headerFrame, List.getD_cons_zero, List.getD_cons_succ, ofNat_msgId_bytes]

/-- The parts of a serialized frame, the header apart from what follows it (R265). -/
theorem frameBytes_parts (e : Entry) (f : Frame) (ln : Nat) :
    frameBytes e f ln =
      headerBytes f ln ++ (slice f.payload 0 ln ++ bytesLe 2 (emittedChecksum e f ln).toNat) := by
  rw [frameBytes, List.append_assoc]

theorem headerFrame_frameBytes (h : f.FitsHeader) :
    headerFrame f.ver (frameBytes e f ln) = f.ofHeader ln := by
  rw [frameBytes_parts, headerFrame_append (headerBytes_length f ln).ge, headerFrame_headerBytes h]

theorem candidateLen_frameBytes (h : f.FitsHeader) :
    (frameBytes e f ln).getD 1 0 = BitVec.ofNat 8 ln := by
  rw [← headerFrame_len f.ver, headerFrame_frameBytes h, Frame.ofHeader]

theorem candidateId_frameBytes (h : f.FitsHeader) :
    candidateId f.ver (frameBytes e f ln) = f.msgId.toNat := by
  rw [← headerFrame_msgId, headerFrame_frameBytes h, Frame.ofHeader]

/-- Incompat bit 0 = 0 on a frame held is no signature on the wire (R115, R266). -/
theorem candidateSigned_frameBytes (h : f.FitsHeader) (hbit : f.incompat.getLsbD 0 = false) :
    candidateSigned f.ver (frameBytes e f ln) = false := by
  rw [Bool.eq_false_iff, Ne, ← headerFrame_signed, headerFrame_frameBytes h]
  rintro ⟨-, hsigned⟩
  cases hbit.symm.trans hsigned

/-- A serialized frame begins with its version's marker (R110, R263). -/
theorem markerAt_frameBytes (e : Entry) (f : Frame) (ln : Nat) :
    MarkerAt (frameBytes e f ln) 0 f.ver := by
  rw [frameBytes_parts]
  unfold MarkerAt headerBytes
  cases f.ver with
  | v1 => exact .inl ⟨rfl, rfl⟩
  | v2 => exact .inr ⟨rfl, rfl⟩

/-! ### The frame on the wire -/

section Candidate

variable (h : f.FitsHeader) (hln : ln < 256)

include h hln

theorem toNat_candidateLen_frameBytes : ((frameBytes e f ln).getD 1 0).toNat = ln := by
  rw [candidateLen_frameBytes h, BitVec.toNat_ofNat, Nat.mod_eq_of_lt hln]

/-- A serialized frame has the bytes its header announces, and no more (R116, R265). -/
theorem candidateBytes_frameBytes :
    candidateBytes f.ver (frameBytes e f ln) = (frameBytes e f ln).length := by
  rw [candidateBytes, toNat_candidateLen_frameBytes h hln, frameBytes_length, headerLength_eq]

theorem wireChecksum_frameBytes :
    wireChecksum f.ver (frameBytes e f ln) = (emittedChecksum e f ln).toNat := by
  have hplace : headerLength f.ver + ln = (headerBytes f ln ++ slice f.payload 0 ln).length := by
    rw [List.length_append, headerBytes_length, headerLength_eq, slice_length, Nat.sub_zero]
  rw [← le_portion_checksum _ _ (candidateBytes_frameBytes h hln).le,
    toNat_candidateLen_frameBytes h hln, portion, hplace, frameBytes, List.drop_left,
    List.take_of_length_le (bytesLe_length _ _).le, le_bytesLe, Nat.mod_eq_of_lt (BitVec.isLt _)]

/-- The checksum emitted is the one a parse computes (R114, R228, R264). -/
theorem computedChecksum_frameBytes :
    computedChecksum e.crcExtra f.ver (frameBytes e f ln) = (emittedChecksum e f ln).toNat := by
  have hone : 1 ≤ (headerBytes f ln).length := by
    rw [headerBytes_length]
    cases f.ver <;> decide
  have hcovered : ((frameBytes e f ln).drop 1).take ((frameBytes e f ln).length - 3) =
      (headerBytes f ln).drop 1 ++ slice f.payload 0 ln := by
    rw [frameBytes, List.append_assoc, List.drop_append_of_le_length hone,
      ← List.append_assoc (List.drop 1 _)]
    refine List.take_left' ?_
    simp only [List.length_append, List.length_drop, bytesLe_length]
    omega
  rw [computedChecksum, candidateBytes_frameBytes h hln, hcovered]
  rfl

/-- A serialized frame of a message included decodes, whole (R221, R265). -/
theorem tryCandidate_frameBytes {cat : Cells Entry} (m : Mode)
    (hbit : f.incompat.getLsbD 0 = false) (he : Cells.read? cat f.msgId.toNat = some e)
    (hincl : e.included = true) (hlimit : ln ≤ (e.limit f.ver).toNat) :
    tryCandidate cat m f.ver (frameBytes e f ln) =
      .ok (bodyFrame f.ver (frameBytes e f ln)) (frameBytes e f ln).length := by
  refine tryCandidate_ok_iff.mpr ⟨le_rfl, e, by rwa [candidateId_frameBytes h], hincl, ?_, ?_,
    .inl ⟨candidateSigned_frameBytes h hbit, rfl, (candidateBytes_frameBytes h hln).symm⟩⟩
  · rwa [toNat_candidateLen_frameBytes h hln]
  · rw [computedChecksum_frameBytes h hln, wireChecksum_frameBytes h hln]

/-- The payload of a serialized frame, byte by byte (R226, R265). -/
theorem byteAt_payload_frameBytes (i : Nat) :
    byteAt (bodyFrame f.ver (frameBytes e f ln)).payload i =
      if i < ln then byteAt f.payload i else 0 := by
  rw [byteAt_bodyFrame_payload_eq, toNat_candidateLen_frameBytes h hln]
  refine ite_congr rfl (fun hi => ?_) fun _ => rfl
  rw [frameBytes_parts, List.getD_append_right _ _ _ _ (by rw [headerBytes_length]; omega),
    headerBytes_length, Nat.add_sub_cancel_left, List.getD_append _ _ _ _ (by simpa using hi),
    slice_getD _ _ _ _ (by simpa using hi), Nat.zero_add]

end Candidate

end Wire

/-! ### The frame parsed -/

/-- What a parse of the serialized frame loads. -/
def reparsed (trim : Bool) (e : Entry) (f : Frame) : Frame :=
  bodyFrame f.ver (frameBytes e f (emittedLength trim e f))

section Reparsed

variable {trim : Bool} {e : Entry} {f : Frame} (h : f.FitsHeader)

include h

/-- The header registers come back (R267). -/
theorem reparsed_header :
    (reparsed trim e f).valid = true ∧ (reparsed trim e f).ver = f.ver ∧
      (reparsed trim e f).seq = f.seq ∧ (reparsed trim e f).sysId = f.sysId ∧
      (reparsed trim e f).compId = f.compId ∧ (reparsed trim e f).msgId = f.msgId ∧
      (reparsed trim e f).incompat = f.incompat ∧ (reparsed trim e f).compat = f.compat := by
  simp only [reparsed, bodyFrame, headerFrame_frameBytes h, Frame.ofHeader, and_self]

/-- Within the version's limit the payload comes back, with the zeros trimmed off it (R262, R267). -/
theorem byteAt_reparsed_payload {i : Nat} (hi : i < (e.limit f.ver).toNat) :
    byteAt (reparsed trim e f).payload i = byteAt f.payload i := by
  rw [reparsed, byteAt_payload_frameBytes h (emittedLength_lt trim e f)]
  split
  · rfl
  next hge => exact (byteAt_of_emittedLength_le (Nat.le_of_not_lt hge) hi).symm

/-- Beyond the version's limit nothing comes back (R226, R267). -/
theorem byteAt_reparsed_payload_beyond {i : Nat} (hi : (e.limit f.ver).toNat ≤ i) :
    byteAt (reparsed trim e f).payload i = 0 := by
  have hlimit := emittedLength_le trim e f
  rw [reparsed, byteAt_payload_frameBytes h (emittedLength_lt trim e f), if_neg (by omega)]

/-- An element within the version's limit comes back; an extended one of a v1 frame lies beyond it and
is 0 (R225, R267). -/
theorem rawElement_reparsed (hlaid : e.LaidOut) {k x : Byte} {g : Field}
    (hselect : e.select k x = some g) :
    rawElement (reparsed trim e f).payload g x.toNat =
      if f.ver = .v1 ∧ g.extended = true then 0 else rawElement f.payload g x.toNat := by
  have hfield := List.mem_of_getElem? (Entry.select_eq_some_iff.mp hselect).1
  obtain ⟨-, hbase, hextended⟩ := hlaid.field_within hfield
  have hend := hlaid.element_end_le_field_end hselect
  split
  next hlost =>
    obtain ⟨hver, hext⟩ := hlost
    refine memRead_eq_zero fun i hi => byteAt_reparsed_payload_beyond h ?_
    calc (e.limit f.ver).toNat = e.base.toNat := by rw [hver, Entry.limit]
      _ ≤ g.offset := hextended hext
      _ ≤ elementAddress g x.toNat := Nat.le_add_right ..
      _ ≤ i := hi
  next hkept =>
    have hlimit : elementAddress g x.toNat + g.size ≤ (e.limit f.ver).toNat := by
      cases hver : f.ver with
      | v1 => exact hend.trans (hbase (by simpa [hver] using hkept))
      | v2 => exact hlaid.element_end_le_max hselect
    exact memRead_congr fun i _ hi => byteAt_reparsed_payload h (hi.trans_le hlimit)

end Reparsed

/-! ### PARSE after SERIALIZE -/

theorem inPrefix_eq_slice {s : State} {n m : Nat} {x : Vector Byte n}
    (h : ∀ i < m, s.readIn i = byteAt x i) : s.inPrefix m = slice x 0 m := by
  rw [State.inPrefix, slice_from_zero]
  exact List.map_congr_left fun i hi => h i (List.mem_range.mp hi)

theorem toNat_serialized_outLen (e : Entry) (s : State) :
    (serialized e s).outLen.toNat =
      (frameBytes e s.frame (emittedLength s.params.v2Trim e s.frame)).length := by
  have hmost := frameBytes_length_le s.params.v2Trim e s.frame
  exact Nat.mod_eq_of_lt (by omega)

/-- PARSE of what SERIALIZE put in OUT, copied to IN, loads the frame and ends at its end (R230,
R267). -/
theorem exec_parse_serialized {s t : State} {e : Entry} (hinv : Inv s)
    (hvalid : s.frame.valid = true) (he : s.catEntry s.frame.msgId = some e)
    (hincl : e.included = true) (hbit : s.frame.incompat.getLsbD 0 = false)
    (hcat : t.cat = s.cat) (hparams : t.params = s.params) (hinit : t.init = s.init)
    (hin : ∀ i < (serialized e s).outLen.toNat, t.readIn i = byteAt (serialized e s).out i) :
    exec (.parse (serialized e s).outLen) t =
      .next { t with
        frame := reparsed s.params.v2Trim e s.frame
        result := BitVec.ofNat 64 (serialized e s).outLen.toNat
        status := okStatus } := by
  have hmost := frameBytes_length_le s.params.v2Trim e s.frame
  have hbytes := toNat_serialized_outLen e s
  have hbuf : t.inPrefix (serialized e s).outLen.toNat =
      frameBytes e s.frame (emittedLength s.params.v2Trim e s.frame) := by
    rw [inPrefix_eq_slice hin, hbytes]
    exact slice_ofList (hmost.trans (by decide))
  have htry := tryCandidate_frameBytes (hinv.fits hvalid he).fitsHeader
    (emittedLength_lt s.params.v2Trim e s.frame) .discrete hbit he hincl (emittedLength_le ..)
  have hcap : (serialized e s).outLen.toNat ≤ t.params.inCap := by
    have hlegal := legal_bounds hinv.params
    rw [hparams, hbytes]
    omega
  have hscan : scan t.cat .discrete 0 (t.inPrefix (serialized e s).outLen.toNat) none =
      .found (reparsed s.params.v2Trim e s.frame) 0 (0 + (serialized e s).outLen.toNat) := by
    rw [hbuf, hcat, hbytes]
    exact AllFailBelow.scan_found (fun i hi => nomatch hi) (markerAt_frameBytes ..) htry
  rw [exec_parse_found hcap (hinit.trans (hinv.frame hvalid).1) hscan, Nat.zero_mul, Nat.zero_add,
    Nat.zero_add]

/-- FIELD_READ of the frame parsed answers as before SERIALIZE, but 0 for the extended fields of a v1
frame (R205, R267). -/
theorem exec_fieldRead_reparsed {s u : State} {e : Entry} {trim : Bool} {k x : Byte} {g : Field}
    {r : Word} (hinv : Inv s) (hvalid : s.frame.valid = true)
    (he : s.catEntry s.frame.msgId = some e) (hselect : e.select k x = some g)
    (hread : exec (.fieldRead k x) s = .next { s with result := r, status := okStatus })
    (hinit : u.init = s.init) (hcat : u.cat = s.cat) (hframe : u.frame = reparsed trim e s.frame) :
    exec (.fieldRead k x) u =
      .next { u with
        result := if s.frame.ver = .v1 ∧ g.extended = true then 0 else r
        status := okStatus } := by
  have hfits := (hinv.fits hvalid he).fitsHeader
  have hinit_s := (hinv.frame hvalid).1
  obtain ⟨hvalid_u, -, -, -, -, hid, -, -⟩ := reparsed_header (trim := trim) (e := e) hfits
  have hs : s.Selects k x g := ⟨hinit_s, hvalid, e, he, hselect⟩
  have hu : u.Selects k x g :=
    ⟨hinit.trans hinit_s, hframe ▸ hvalid_u, e, by rwa [State.catEntry, hcat, hframe, hid],
      hselect⟩
  have hr : elementWord g x s = r := by
    rw [hs.exec_fieldRead] at hread
    exact congrArg State.result (Host.Outcome.next.inj hread)
  have hword : elementWord g x u = if s.frame.ver = .v1 ∧ g.extended = true then 0 else r := by
    rw [elementWord, hframe, rawElement_reparsed hfits (hinv.laidOut he) hselect, ← hr, elementWord]
    split
    · exact widen_zero g.kind
    · rfl
  rw [hu.exec_fieldRead, hword]

/-- Settles O42: the parse finds the frame `reparsed`, whose header registers and elements are those of
the frame held. -/
theorem serializeThenParseRoundTrip : Obligations.SerializeThenParseRoundTrip := by
  intro s en hinv hvalid he hincl hbit
  obtain ⟨hvalid', hver, hseq, hsys, hcomp, hid, hincompat, hcompat⟩ :=
    reparsed_header (trim := s.params.v2Trim) (e := en) (hinv.fits hvalid he).fitsHeader
  exact ⟨serialized en s, exec_serialize (hinv.frame hvalid).1 hvalid he, rfl, fun inMem hin =>
    ⟨_, exec_parse_serialized hinv hvalid he hincl hbit rfl rfl rfl hin, rfl, rfl, hvalid', hver,
      hseq, hsys, hcomp, hid, hincompat, hcompat, fun k x g r hselect hread =>
        exec_fieldRead_reparsed hinv hvalid he hselect hread rfl rfl rfl⟩⟩

end Sys2Proof.Machine
end

section
/-! PROOFS. The error model (`60_exceptions.md` rules R300, R301, R305): the codes a command can leave in
STATUS, and what a command that fails has changed. -/

namespace Sys2Proof.Machine

/-! ### The codes of an error (R301, R305) -/

theorem Err.code_eq_zero {e : Err} : e.code = 0 ↔ e = .none := by
  cases e <;> decide

/-- Code 0 is no error's (R301). -/
theorem ne_zero_of_mem_codesOf {i : Instr} {c : Byte} (h : c ∈ codesOf i) : c ≠ 0 := by
  rintro rfl
  cases i <;> simp [codesOf] at h

/-- The source's taxonomy alone lists codes 2, 3, 8 and 12, and R301 ends at 21 (R305). -/
theorem not_reserved_of_mem_raisedCodes : ∀ c ∈ raisedCodes, c ∉ [2, 3, 8, 12] ∧ c.toNat < 22 := by
  decide

namespace Effect

variable {s t : State} {i : Instr}

/-- Every command ends by `status(e)` for one outcome e (R300, R302). -/
theorem exists_statusOf (h : Effect s i t) : ∃ e, t.status = statusOf e := by
  cases h <;> exact ⟨_, rfl⟩

/-- EVERYTHING A COMMAND CAN LEAVE IN STATUS: success, or an error its row of R301 lists. -/
theorem status_cases (h : Effect s i t) :
    t.status = okStatus ∨ ∃ c ∈ codesOf i, t.status = errStatus c := by
  obtain ⟨e, hstatus⟩ := h.exists_statusOf
  by_cases he : e = .none
  · exact .inl (hstatus.trans (statusOf_eq_okStatus.mpr he))
  · have hmem : e.code ∈ 0 :: codesOf i := by simpa [hstatus, statusOf] using h.err_mem
    have hcode := (List.mem_cons.mp hmem).resolve_left (mt Err.code_eq_zero.mp he)
    exact .inr ⟨e.code, hcode, hstatus.trans (statusOf_eq_errStatus he)⟩

end Effect

/-- Settles O44: a command raises only the codes of its row, and a word that is no command raises
IllegalCommand. -/
theorem commandsRaiseOnlyTheirCodes : Obligations.CommandsRaiseOnlyTheirCodes := by
  refine ⟨fun i s t h => (exec_effect h).status_cases, fun w s t h => ?_⟩
  cases hdecode : decode w with
  | ok i =>
    rw [runWord_of_ok hdecode] at h
    refine (exec_effect h).status_cases.imp_right ?_
    rintro ⟨c, hc, hstatus⟩
    have hraised := codesOf_subset_raisedCodes i c hc
    obtain ⟨hnever, hlt⟩ := not_reserved_of_mem_raisedCodes c hraised
    exact ⟨c, hraised, ne_zero_of_mem_codesOf hc, hnever, hlt, hstatus⟩
  | error e =>
    rw [runWord_of_error hdecode] at h
    cases h
    exact .inr ⟨17, by decide, by decide, by decide, by decide, rfl⟩

/-! ### What a command that fails has changed (R300) -/

/-- How a command that fails takes the state `s` to a next state, one constructor per part of the state
that its rule lists. -/
inductive Failure (s : State) : Instr → State → Prop
  /-- STATUS and nothing else (R300). -/
  | statusOnly {i : Instr} (e : Err) : Failure s i (setStatus e s)
  /-- PARSE without a frame has cleared the frame registers (R230, R235). -/
  | parse (n : Count) (e : Err) : Failure s (.parse n) (setStatus e (clearFrame s))
  /-- PARSE_STREAM without a frame has cleared them too, and has set CONSUMED and EXAMINED (R232). -/
  | parseStream (n : Count) (e : Err) (consumed examined : Nat) :
      Failure s (.parseStream n) (setStatus e (setStream consumed examined (clearFrame s)))
  /-- PARSE_STREAM before CAT_INIT has set those two alone (R232, D40). -/
  | streamUninit (n : Count) :
      Failure s (.parseStream n) (setStatus .notInitialized (setStream 0 0 s))

/-- EVERYTHING A FAILING COMMAND CAN DO: the ways of ending whose STATUS is an error. -/
theorem Effect.failure {s t : State} {i : Instr} (h : Effect s i t) (hfail : t.status.ok = false) :
    Failure s i t := by
  cases h with
  | fails e => exact .statusOnly e
  | parseExhausted n r => exact .parse n r
  | streamNeedMore n | streamExhausted n => exact .parseStream n ..
  | streamUninit n => exact .streamUninit n
  | _ => cases hfail

namespace Failure

variable {s t : State} {i : Instr} {n : Count}

theorem eq_of_not_isParse (h : Failure s i t) (hi : isParse i = false) :
    t = { s with status := t.status } := by
  cases h with
  | statusOnly => rfl
  | _ => cases hi

theorem eq_of_parse (h : Failure s (.parse n) t) :
    t = { s with status := t.status, frame := t.frame } ∧
      (t.frame = s.frame ∨ t.frame = Frame.zero) := by
  cases h with
  | statusOnly => exact ⟨rfl, .inl rfl⟩
  | parse => exact ⟨rfl, .inr rfl⟩

theorem eq_of_parseStream (h : Failure s (.parseStream n) t) :
    t = { s with
      status := t.status, frame := t.frame, consumed := t.consumed, examined := t.examined } ∧
      (t.frame = s.frame ∨ t.frame = Frame.zero) := by
  cases h with
  | statusOnly | streamUninit => exact ⟨rfl, .inl rfl⟩
  | parseStream => exact ⟨rfl, .inr rfl⟩

end Failure

/-- Settles O45: every command ends in a next state, and the failing ways of ending are those of
`Failure`. -/
theorem failureLeavesStateAlone : Obligations.FailureLeavesStateAlone := by
  refine ⟨fun i s hinv => exec_endsInNext hinv i, fun i s t h hfail => ?_⟩
  have hfailure := (exec_effect h).failure hfail
  refine ⟨hfailure.eq_of_not_isParse, ?_, ?_⟩
  · rintro n rfl
    exact hfailure.eq_of_parse
  · rintro n rfl
    exact hfailure.eq_of_parseStream

end Sys2Proof.Machine
end

section
/-! PROOFS. What building, editing, reading and emitting a frame does not depend on: the filter bits
(R334, R260). A change of them leaves every field and length of an entry, so these commands do to the
changed state what they do to the state, and the change commutes with them. -/

namespace Sys2Proof.Machine

/-- `en` with its filter bit set to `b` (R167). -/
def Entry.withFilter (en : Entry) (b : Bool) : Entry := { en with included := b }

/-- `s` with the filter bit of every id `k` mapped set to `bit k` (R167). -/
def State.withFilter (bit : Nat → Bool) (s : State) : State :=
  { s with cat := Cells.mapData (fun k en => en.withFilter (bit k)) s.cat }

/-! ### What the change leaves as it was -/

section WithFilter

variable (bit : Nat → Bool) (s : State)

@[simp] theorem withFilter_frame : (s.withFilter bit).frame = s.frame := rfl

/-- The same ids are mapped, to the entries with their filter bits changed. -/
@[simp] theorem withFilter_catEntry (id : MsgId) :
    (s.withFilter bit).catEntry id = (s.catEntry id).map fun en => en.withFilter (bit id.toNat) :=
  read?_mapData (fun k (en : Entry) => en.withFilter (bit k)) s.cat id.toNat

end WithFilter

@[simp] theorem withFilter_select (en : Entry) (b : Bool) (k e : Byte) :
    (en.withFilter b).select k e = en.select k e := rfl

@[simp] theorem withFilter_limit (en : Entry) (b : Bool) (ver : Version) :
    (en.withFilter b).limit ver = en.limit ver := by cases ver <;> rfl

/-! ### The guards read no filter bit -/

section Guards

variable {bit : Nat → Bool} {s : State}

theorem whenInit_withFilter {run run' : Out} (hrun : run' = mapNext (State.withFilter bit) run) :
    whenInit (s.withFilter bit) run' = mapNext (State.withFilter bit) (whenInit s run) :=
  ite_eq_mapNext Iff.rfl hrun rfl

theorem whenFrame_withFilter {run run' : Out} (hrun : run' = mapNext (State.withFilter bit) run) :
    whenFrame (s.withFilter bit) run' = mapNext (State.withFilter bit) (whenFrame s run) :=
  whenInit_withFilter (ite_eq_mapNext Iff.rfl hrun rfl)

theorem withFrameEntry_withFilter {run run' : Entry → Out}
    (hrun : ∀ en b, run' (en.withFilter b) = mapNext (State.withFilter bit) (run en)) :
    withFrameEntry (s.withFilter bit) run' =
      mapNext (State.withFilter bit) (withFrameEntry s run) := by
  refine whenFrame_withFilter ?_
  simp only [withFilter_frame, withFilter_catEntry]
  cases s.catEntry s.frame.msgId with
  | none => rfl
  | some en => exact hrun en _

theorem withElement_withFilter {k e : Byte} {run run' : Field → Out}
    (hrun : ∀ f, run' f = mapNext (State.withFilter bit) (run f)) :
    withElement k e (s.withFilter bit) run' =
      mapNext (State.withFilter bit) (withElement k e s run) := by
  refine withFrameEntry_withFilter fun en b => ?_
  rw [withFilter_select]
  cases en.select k e with
  | none => rfl
  | some f => exact hrun f

end Guards

/-! ### The commands -/

section Commands

variable (bit : Nat → Bool) (s : State)

/-- FRAME_NEW does not consult the filter (R260). -/
theorem exec_frameNew_withFilter (id : MsgId) (ver : Version) :
    exec (.frameNew id ver) (s.withFilter bit) =
      mapNext (State.withFilter bit) (exec (.frameNew id ver) s) := by
  refine whenInit_withFilter ?_
  rw [withFilter_catEntry]
  cases s.catEntry id with
  | none => rfl
  | some en =>
    refine ite_eq_mapNext Iff.rfl rfl ?_
    rw [withFilter_limit]
    rfl

theorem exec_setHeader_withFilter (seq sys comp incompat compat : Byte) :
    exec (.setHeader seq sys comp incompat compat) (s.withFilter bit) =
      mapNext (State.withFilter bit) (exec (.setHeader seq sys comp incompat compat) s) := by
  refine whenFrame_withFilter ?_
  rw [withFilter_frame]
  cases s.frame.ver <;> rfl

theorem exec_fieldRead_withFilter (k e : Byte) :
    exec (.fieldRead k e) (s.withFilter bit) =
      mapNext (State.withFilter bit) (exec (.fieldRead k e) s) :=
  withElement_withFilter fun _ => rfl

theorem exec_fieldWrite_withFilter (k e : Byte) :
    exec (.fieldWrite k e) (s.withFilter bit) =
      mapNext (State.withFilter bit) (exec (.fieldWrite k e) s) :=
  withElement_withFilter fun _ => rfl

/-- Of the entry SERIALIZE uses CRC_EXTRA and the two lengths alone (R262 to R265). -/
theorem exec_serialize_withFilter :
    exec .serialize (s.withFilter bit) = mapNext (State.withFilter bit) (exec .serialize s) :=
  withFrameEntry_withFilter fun _ _ => rfl

end Commands

/-- Settles O43: each of the five commands commutes with the change of the filter bits, so its next
state is the old one with the same change. -/
theorem encodeIgnoresFilter : Obligations.EncodeIgnoresFilter := by
  intro i s t bit hi h
  have hcommutes : exec i (s.withFilter bit) = mapNext (State.withFilter bit) (exec i s) := by
    rcases hi with
      ⟨id, ver, rfl⟩ | ⟨seq, sys, comp, incompat, compat, rfl⟩ | rfl | ⟨k, e, rfl⟩ | ⟨k, e, rfl⟩
    · exact exec_frameNew_withFilter bit s id ver
    · exact exec_setHeader_withFilter bit s seq sys comp incompat compat
    · exact exec_serialize_withFilter bit s
    · exact exec_fieldRead_withFilter bit s k e
    · exact exec_fieldWrite_withFilter bit s k e
  rw [h] at hcommutes
  exact hcommutes

end Sys2Proof.Machine
end
